-- ==== Sys2Proof/Word.lean ====
section
/-! DEFINITION. The word types of the nrf24le1_flasher core: everything the spec moves is a byte, and the one wider
quantity is the 16-bit address of a wire command or of a HEX record (spec/00_scope.md R10, spec/30_encoding.md R85, R90). -/

namespace Sys2Proof

/-- A byte: a wire byte, a pin frame, a sample, a flash byte, a character of a HEX line. -/
abbrev Byte := BitVec 8

/-- A 16-bit address, as `READ`, `PROGRAM` and a HEX record carry it. -/
abbrev Half := BitVec 16

end Sys2Proof
end

