-- ==== Sys2Proof/Machine/Bits.lean ====
section
/-! DEFINITION. Bits and bytes: one bit of a byte, the most-significant-first bit order of the SPI lines (R54), and the
sums of a HEX record (R93). -/

namespace Sys2Proof

/-- `x` with bit `i` set to `b`, every other bit unchanged (R11's write of one field). -/
def setBit (x : Byte) (i : Nat) (b : Bool) : Byte :=
  if b then x ||| (1#8 <<< i) else x &&& ~~~(1#8 <<< i)

/-- Bit by bit: the bits of `new` where `sel` is 1, the bits of `old` where it is 0. -/
def mergeBits (old new sel : Byte) : Byte :=
  (old &&& ~~~sel) ||| (new &&& sel)

/-- The eight bits of a byte in the order they go over the wire: bit 7 first (R54). -/
def bitsMsb (b : Byte) : List Bool :=
  [b.getLsbD 7, b.getLsbD 6, b.getLsbD 5, b.getLsbD 4, b.getLsbD 3, b.getLsbD 2, b.getLsbD 1, b.getLsbD 0]

/-- The bits of a buffer in wire order: bytes in buffer order, each most significant bit first (R54). -/
def bufferBits (m : List Byte) : List Bool :=
  m.flatMap bitsMsb

/-- The byte whose bits, most significant first, are the given ones: the first becomes bit 7 (R241). -/
def byteOfBits (bits : List Bool) : Byte :=
  bits.foldl (fun acc b => (acc <<< 1) ||| (if b then 1#8 else 0#8)) 0#8

/-- The whole bytes a stream of bits makes; a tail of fewer than eight bits makes none (R82). -/
def bytesOfBits : List Bool → List Byte
  | b7 :: b6 :: b5 :: b4 :: b3 :: b2 :: b1 :: b0 :: rest =>
    byteOfBits [b7, b6, b5, b4, b3, b2, b1, b0] :: bytesOfBits rest
  | _ => []

/-- The sum of a list of bytes on unbounded naturals (R10, R93). -/
def byteSum (bs : List Byte) : Nat :=
  (bs.map BitVec.toNat).sum

/-- `S` of R93: count, both address bytes, type and payload. -/
def recordSum (address : Half) (type : Nat) (payload : List Byte) : Nat :=
  payload.length + address.toNat / 256 + address.toNat % 256 + type + byteSum payload

/-- The checksum test of R116: `(S + KK) mod 256 = 0`. -/
def checksumOk (address : Half) (type : Nat) (payload : List Byte) (checksum : Byte) : Bool :=
  (recordSum address type payload + checksum.toNat) % 256 == 0

end Sys2Proof
end

