-- ==== Sys2Proof/Config.lean ====
section
/-! DEFINITION. The fixed constants of the target (R7), the open parameters of an implementation (R8) and the free
values: what the spec calls `draw` and `unconstrained` (R11, R40, spec/93_implementation_defined.md 1.2). -/

namespace Sys2Proof

namespace Config

/-- `PAGE_SIZE` (R7): bytes of one flash page. -/
def pageSize : Nat := 512
/-- `PAGES_CNT` (R7): pages of main flash. -/
def pagesCnt : Nat := 32
/-- `FLASH_SIZE` (R7): bytes of main flash. -/
def flashSize : Nat := 16384
/-- `INFO_SIZE` (R7): bytes of the info page. -/
def infoSize : Nat := 512
/-- `CHIP_ID_OFFSET` (R7): offset of the chip id in the info page. -/
def chipIdOffset : Nat := 0x0B
/-- `CHIP_ID_SIZE` (R7). -/
def chipIdSize : Nat := 5
/-- `NUPP_OFFSET` (R7): offset of the number of unprotected pages; host policy only, no rule reads it (R65, R317). -/
def nuppOffset : Nat := 0x20
/-- `USER_AREA_OFFSET` (R7): offset of the user area; no rule reads it (R53). -/
def userAreaOffset : Nat := 0x100
/-- `HEX_MAX_PAYLOAD` (R7): the hard cap of one HEX record's payload. -/
def hexMaxPayload : Nat := 255

/-- Every byte the spec leaves open (`draw(0..255)`, or unconstrained): the n-th one the environment picks. No body: no
proof can know its value. DESIGN CHOICE (log entry 2), safe. -/
opaque freeByte : Nat → Byte

/-- Every two-way choice the spec leaves open (`draw` of a two-element set): the n-th one. No body. DESIGN CHOICE (log
entry 2), safe. -/
opaque freeBit : Nat → Bool

/-- What the bridge's FIFO holds after a transport error (R277): any samples, the n-th time. No body. DESIGN CHOICE (log
entry 2), safe. -/
opaque freeSamples : Nat → List Byte

/-- The bits a target has shifted in when the transport failed (R321): any, the n-th time. No body. DESIGN CHOICE (log
entry 2), safe. -/
opaque freeShift : Nat → List Bool

/-- How many response bits a target has shifted past when the transport failed (R321): any number, the n-th time. No body.
DESIGN CHOICE (log entry 2), safe. -/
opaque freeCount : Nat → Nat

/-- `ERASE_ALL_HITS_INFO` (R8, R151, D17) of the machine at power-up: open, and claims must hold for both values. No body. -/
opaque eraseAllHitsInfo : Bool

end Config

/-- The two implementations of `SpiTransport` (R235): the bit-banged driver and the in-memory emulator (R249). -/
inductive Backend where
  | bitbang
  | emulator
  deriving DecidableEq, Repr

/-- The open parameters of R8, fixed for one machine. `T_SETTLE` has no field: it is a lower bound with no value, and the
model has no time (R12); the wait itself is a step of `begin`. -/
structure Params where
  /-- `PIN_SCK` .. `PIN_PROG`: the bit of the pin byte each line has (R21, D1). -/
  pinSck : Fin 8
  pinMosi : Fin 8
  pinMiso : Fin 8
  pinCsn : Fin 8
  pinReset : Fin 8
  pinProg : Fin 8
  /-- `HOLD`: one more clock-high frame per bit (R240). -/
  hold : Bool
  /-- `SAMPLE_LAG`: true is 1 (a sample is captured before its frame is driven), false is 0 (R248). -/
  sampleLag : Bool
  /-- `FIFO_CAP`: samples the bridge's read FIFO holds (R33). -/
  fifoCap : Nat
  /-- `CHUNK_BYTES`: SPI bytes of one chunk (R242). -/
  chunkBytes : Nat
  /-- `READY_POLL_LIMIT`: `none` is `INF` (R175). -/
  readyPollLimit : Option Nat
  /-- `ERASE_ALL_HITS_INFO` (R151). -/
  eraseAllHitsInfo : Bool
  /-- Which transport carries the wire commands (R235). -/
  backend : Backend
  deriving DecidableEq, Repr

/-- The defaults of R8's table. `FIFO_CAP` has none there: DESIGN CHOICE (log entry 3), the least admitted capacity, with
the default `CHUNK_BYTES` it gives; `ERASE_ALL_HITS_INFO` has none either and stays the free `Config.eraseAllHitsInfo`. -/
def Params.default : Params where
  pinSck := 0
  pinMosi := 1
  pinMiso := 2
  pinCsn := 3
  pinReset := 4
  pinProg := 5
  hold := false
  sampleLag := true
  fifoCap := 24
  chunkBytes := 1
  readyPollLimit := none
  eraseAllHitsInfo := Config.eraseAllHitsInfo
  backend := .bitbang

end Sys2Proof
end

