-- ==== Sys2Proof/Syntax.lean ====
section
/-! DEFINITION. The instructions: one constructor for each row of spec/opcode_table.json, the eleven wire commands of
R84 and the two HEX record types of R92, each with the operands its format gives it (R83, R90). Beside them the reasons
a decoder gives for turning an encoding down. -/

namespace Sys2Proof

/-- One wire command (the bytes the target receives under one chip-select assertion) or one HEX record (a line given to
`HEXDEC`). -/
inductive Instr where
  /-- `WRSR` 0x01, format `FW`: `v` is a byte in FSR layout (R87, R147). -/
  | wrsr (v : Byte)
  /-- `PROGRAM` 0x02, format `FAW` (R149). -/
  | program (addr : Half) (data : List Byte)
  /-- `READ` 0x03, format `FAR`: `fill` are the don't-care bytes sent while the data comes back (R148). -/
  | read (addr : Half) (fill : List Byte)
  /-- `WRDIS` 0x04, format `F0` (R145). -/
  | wrdis
  /-- `RDSR` 0x05, format `FR` (R146). -/
  | rdsr (fill : Byte)
  /-- `WREN` 0x06, format `F0` (R144). -/
  | wren
  /-- `ERASE_PAGE` 0x52, format `FP`: `page` is the page index (R86, R150). -/
  | erasePage (page : Byte)
  /-- `ERASE_ALL` 0x62, format `F0` (R151). -/
  | eraseAll
  /-- `CMD_RDISMB` 0x85, format `F0` (R152). -/
  | cmdRdismb
  /-- `CMD_ENDEBUG` 0x86, format `F0` (R154). -/
  | cmdEndebug
  /-- `RDFPCR` 0x89, format `FR` (R153). -/
  | rdfpcr (fill : Byte)
  /-- `HEX_DATA`, record type 0x00 (R117). -/
  | hexData (address : Half) (payload : List Byte) (checksum : Byte)
  /-- `HEX_EOF`, record type 0x01 (R118). -/
  | hexEof (address : Half) (payload : List Byte) (checksum : Byte)
  deriving DecidableEq, Repr

/-- Why the bytes of one chip-select assertion are no command the spec gives a meaning (R88). -/
inductive WireError where
  /-- The first byte is none of the eleven opcodes (R156). -/
  | unknownOpcode
  /-- Too few or too many bytes for the opcode's format (R157). -/
  | malformedLength
  deriving DecidableEq, Repr

/-- The class `DecodeError` of R270: why `HEXDEC` turns a line down. -/
inductive DecodeError where
  | malformedLine
  | bufferTooSmall
  | truncatedLine
  | checksumMismatch
  | unsupportedRecordType
  deriving DecidableEq, Repr

end Sys2Proof
end

