-- ==== Sys2Proof/WellFormed.lean ====
section
/-! DEFINITION. Which instruction terms stand for an encoding. Every wire command does; a HEX record does when its
payload fits one count byte (R90, R127) and its checksum byte is the one R93 demands. -/

namespace Sys2Proof

/-- The payload fits the one-byte count (R127). -/
def payloadFits (payload : List Byte) : Bool :=
  decide (payload.length ≤ Config.hexMaxPayload)

/-- An instruction term that some encoding stands for. -/
def Instr.wellFormed : Instr → Bool
  | .wrsr _ => true
  | .program _ _ => true
  | .read _ _ => true
  | .wrdis => true
  | .rdsr _ => true
  | .wren => true
  | .erasePage _ => true
  | .eraseAll => true
  | .cmdRdismb => true
  | .cmdEndebug => true
  | .rdfpcr _ => true
  | .hexData address payload checksum => payloadFits payload && checksumOk address 0 payload checksum
  | .hexEof address payload checksum => payloadFits payload && checksumOk address 1 payload checksum

/-- The two spaces of spec/opcode_table.json: a wire command, or a record of a HEX line. -/
def Instr.isWire : Instr → Bool
  | .wrsr _ => true
  | .program _ _ => true
  | .read _ _ => true
  | .wrdis => true
  | .rdsr _ => true
  | .wren => true
  | .erasePage _ => true
  | .eraseAll => true
  | .cmdRdismb => true
  | .cmdEndebug => true
  | .rdfpcr _ => true
  | .hexData _ _ _ => false
  | .hexEof _ _ _ => false

end Sys2Proof
end

