-- ==== Sys2Proof/Decode.lean ====
section
/-! DEFINITION. The decoders, total on any bytes and rejecting by name, and after them the encoder: the wire commands of
R82 to R89, the HEX lines of R90 to R94 with the tests of R111 in their order, and the instruction of one table word. -/

namespace Sys2Proof

/-- The 16-bit address of a header, more significant byte first (R55, R85, R56). -/
def addressOf (hi lo : Byte) : Half :=
  BitVec.ofNat 16 (256 * hi.toNat + lo.toNat)

/-- `address[15:8]`. -/
def addressHi (a : Half) : Byte :=
  BitVec.ofNat 8 (a.toNat / 256)

/-- `address[7:0]`. -/
def addressLo (a : Half) : Byte :=
  BitVec.ofNat 8 (a.toNat % 256)

/-! ## Wire commands -/

/-- What the operand bytes must be for a command of format `F0` (R83, R157). -/
def decodeF0 (i : Instr) : List Byte → Except WireError Instr
  | [] => .ok i
  | _ => .error .malformedLength

/-- The one operand byte of the formats `FR`, `FW` and `FP` (R83, R157). -/
def decodeF1 (f : Byte → Instr) : List Byte → Except WireError Instr
  | [x] => .ok (f x)
  | _ => .error .malformedLength

/-- The two address bytes and the rest of the formats `FAR` and `FAW` (R83, R85, R157). -/
def decodeFA (f : Half → List Byte → Instr) : List Byte → Except WireError Instr
  | hi :: lo :: rest => .ok (f (addressOf hi lo) rest)
  | _ => .error .malformedLength

/-- The opcode map of R84: the command of an opcode, decoded from its operand bytes. -/
def decodeOpcode (op : Byte) (rest : List Byte) : Except WireError Instr :=
  match op.toNat with
  | 0x01 => decodeF1 .wrsr rest
  | 0x02 => decodeFA .program rest
  | 0x03 => decodeFA .read rest
  | 0x04 => decodeF0 .wrdis rest
  | 0x05 => decodeF1 .rdsr rest
  | 0x06 => decodeF0 .wren rest
  | 0x52 => decodeF1 .erasePage rest
  | 0x62 => decodeF0 .eraseAll rest
  | 0x85 => decodeF0 .cmdRdismb rest
  | 0x86 => decodeF0 .cmdEndebug rest
  | 0x89 => decodeF1 .rdfpcr rest
  | _ => .error .unknownOpcode

/-- The command the bytes `m[0..n-1]` of one chip-select assertion are (R82, R89). An assertion with no byte is no command
(R157); the caller sees to it, and here it counts as too short. -/
def decodeWire : List Byte → Except WireError Instr
  | [] => .error .malformedLength
  | op :: rest => decodeOpcode op rest

/-! ## HEX lines -/

/-- The value of one hexadecimal character, either letter case (R91, R124 (c), (e)). -/
def hexVal (c : Byte) : Option Nat :=
  if 0x30 ≤ c.toNat ∧ c.toNat ≤ 0x39 then some (c.toNat - 0x30)
  else if 0x41 ≤ c.toNat ∧ c.toNat ≤ 0x46 then some (c.toNat - 0x41 + 10)
  else if 0x61 ≤ c.toNat ∧ c.toNat ≤ 0x66 then some (c.toNat - 0x61 + 10)
  else none

/-- The byte two characters encode, high nibble first (R91). -/
def hexByte (h l : Byte) : Option Byte :=
  match hexVal h, hexVal l with
  | some a, some b => some (BitVec.ofNat 8 (16 * a + b))
  | _, _ => none

/-- The bytes a sequence of character pairs encodes; `none` where a character is no hexadecimal digit. -/
def hexBytes : List Byte → Option (List Byte)
  | [] => some []
  | [_] => none
  | h :: l :: rest =>
    match hexByte h l, hexBytes rest with
    | some b, some bs => some (b :: bs)
    | _, _ => none

/-- The start code `:` of a HEX line (R90). -/
def startCode : Byte := 0x3A#8

/-- Steps S5 and S6 of R111 from the decoded payload and checksum on: the checksum test, then the record type. -/
def classifyRecord (address : Half) (type : Byte) (payload : List Byte) (checksum : Byte) :
    Except DecodeError Instr :=
  if checksumOk address type.toNat payload checksum = false then .error .checksumMismatch
  else if type = 0x00#8 then .ok (.hexData address payload checksum)
  else if type = 0x01#8 then .ok (.hexEof address payload checksum)
  else .error .unsupportedRecordType

/-- Steps S3 to S5 of R111, after the header: `body` are the characters from position 9 on, `len` is the line's length. -/
def decodeBody (cap len : Nat) (count : Nat) (address : Half) (type : Byte) (body : List Byte) :
    Except DecodeError Instr :=
  if cap < count then .error .bufferTooSmall
  else if len < 11 + 2 * count then .error .truncatedLine
  else
    match hexBytes (body.take (2 * count + 2)) with
    | none => .error .malformedLine
    | some bytes => classifyRecord address type (bytes.take count) (bytes.getD count 0#8)

/-- The record of one line for a destination of `cap` bytes: steps S1 to S5 of R111 and the record type of S6, in the
order of R111 and R120. The clamp of S6 is the meaning of `HEX_DATA` (`execHexData`). -/
def decodeHex (cap : Nat) : List Byte → Except DecodeError Instr
  | [] => .error .malformedLine
  | c :: rest =>
    if c ≠ startCode then .error .malformedLine
    else if rest.length + 1 < 9 then .error .truncatedLine
    else
      match hexBytes (rest.take 8) with
      | some [cc, ah, al, tt] => decodeBody cap (rest.length + 1) cc.toNat (addressOf ah al) tt (rest.drop 8)
      | _ => .error .malformedLine

/-! ## The encoder -/

/-- The character of one hexadecimal digit, upper case (R91). -/
def hexDigit (n : Nat) : Byte :=
  if n < 10 then BitVec.ofNat 8 (0x30 + n) else BitVec.ofNat 8 (0x41 + (n - 10))

/-- The two characters of a byte. -/
def hexChars (b : Byte) : List Byte :=
  [hexDigit (b.toNat / 16), hexDigit (b.toNat % 16)]

/-- The line `:CCAAAATT[DD...]KK` (R90). -/
def encodeLine (address : Half) (type : Byte) (payload : List Byte) (checksum : Byte) : List Byte :=
  startCode ::
    ([BitVec.ofNat 8 payload.length, addressHi address, addressLo address, type] ++ payload ++ [checksum]).flatMap hexChars

/-- The checksum byte R93 gives a record; `HEXDEC`'s re-encoding (R126). -/
def recordChecksum (address : Half) (type : Nat) (payload : List Byte) : Byte :=
  BitVec.ofNat 8 ((256 - recordSum address type payload % 256) % 256)

/-- The bytes of an instruction: the wire bytes of a command (R83), the characters of a HEX line (R90). -/
def encode : Instr → List Byte
  | .wrsr v => [0x01#8, v]
  | .program a d => 0x02#8 :: addressHi a :: addressLo a :: d
  | .read a fill => 0x03#8 :: addressHi a :: addressLo a :: fill
  | .wrdis => [0x04#8]
  | .rdsr x => [0x05#8, x]
  | .wren => [0x06#8]
  | .erasePage p => [0x52#8, p]
  | .eraseAll => [0x62#8]
  | .cmdRdismb => [0x85#8]
  | .cmdEndebug => [0x86#8]
  | .rdfpcr x => [0x89#8, x]
  | .hexData a d k => encodeLine a 0x00#8 d k
  | .hexEof a d k => encodeLine a 0x01#8 d k

/-- The length of an instruction's encoding: R89 for a wire command, `11 + 2*count` (R90) for a line. -/
def Instr.encodedLength : Instr → Nat
  | .wrsr _ => 2
  | .program _ d => 3 + d.length
  | .read _ fill => 3 + fill.length
  | .wrdis => 1
  | .rdsr _ => 2
  | .wren => 1
  | .erasePage _ => 2
  | .eraseAll => 1
  | .cmdRdismb => 1
  | .cmdEndebug => 1
  | .rdfpcr _ => 2
  | .hexData _ d _ => 11 + 2 * d.length
  | .hexEof _ d _ => 11 + 2 * d.length

/-! ## A word of the opcode table -/

/-- The `n` bytes of a word, bit 0 being the least significant bit of the first byte. -/
def wordBytes : Nat → Nat → List Byte
  | 0, _ => []
  | n + 1, w => BitVec.ofNat 8 (w % 256) :: wordBytes n (w / 256)

/-- The result of a decoder without its reason. -/
def decodedInstr {ε : Type} : Except ε Instr → Option Instr
  | .ok i => some i
  | .error _ => none

/-- The wire bytes of a table word: its bytes, and behind them the zero operand bytes the opcode's format needs (the table
gives operand bytes no bits). `none` where no such bytes are a command. -/
def tableWire (nbits w : Nat) : Option (List Byte) :=
  let m := wordBytes (max 1 (nbits / 8)) w
  [m, m ++ [0#8], m ++ [0#8, 0#8]].find? (fun b => (decodedInstr (decodeWire b)).isSome)

/-- The HEX line of a table word: the word is the record type byte `TT`, every other byte of the record is 0. -/
def tableLine (w : Nat) : List Byte :=
  encodeLine 0#16 (BitVec.ofNat 8 w) [] 0#8

/-- The instruction the decoders read from a word of spec/opcode_table.json. The table numbers two spaces in one column:
0x01 is both `WRSR` and the record type `HEX_EOF`; the wire command is the one answered (log entry 5). -/
def decodeTableWord (nbits w : Nat) : Option Instr :=
  match tableWire nbits w with
  | some m => decodedInstr (decodeWire m)
  | none => decodedInstr (decodeHex Config.hexMaxPayload (tableLine w))

end Sys2Proof
end

