-- ==== Sys2Proof/Machine/State.lean ====
section
/-! DEFINITION. The state of the modelled system as plain data: the block's registers (R21, R22), the target's state (R26
to R32, R34), the bridge's (R33), and beside them the operation in progress, the host's side of the operation port (R14)
and the environment's choices (R39), which are the model's own fields. -/

namespace Sys2Proof.Machine

/-- The memory of one flash region: (address, byte) pairs with strictly rising addresses, none equal to what an unlisted
address reads as (`Memory.blank` in Machine/Ops.lean). -/
abbrev Memory := List Host.Cell

/-! ## Outcomes of an operation -/

/-- The class `TransportError` of R270. -/
inductive TransportError where
  | openFailed
  | writeFailed
  | readFailed
  deriving DecidableEq, Repr

/-- The class `ProtocolError` of R270, `Timeout` placed in it as R275 does. -/
inductive ProtocolError where
  | writeLatchFailed
  | infoPageToggleFailed
  | verificationError
  | deviceLocked
  | timeout
  deriving DecidableEq, Repr

/-- The error taxonomy of R270. An error is the outcome of an operation, not a stop of the machine: `raise` (R276) is a
next state. -/
inductive OpError where
  | decode (e : DecodeError)
  | transport (e : TransportError)
  | protocol (e : ProtocolError)
  deriving DecidableEq, Repr

/-- `record_type` of R37. `unsupported` is kept in the data model and never returned (spec/90_conflicts.md C9). -/
inductive RecordType where
  | data
  | endOfFile
  | unsupported
  deriving DecidableEq, Repr

/-- The result of one `decode_line` call (R37). -/
structure HexRecord where
  byteCount : Byte
  address : Half
  recordType : RecordType
  payload : List Byte
  checksum : Byte
  deriving DecidableEq, Repr

/-- What an operation returns beside `ok` (R13): nothing, a count of bytes, the FSR, a truth value, bytes, a record. -/
inductive Value where
  | unit
  | count (n : Nat)
  | status (fsr : Byte)
  | flag (b : Bool)
  | bytes (bs : List Byte)
  | record (r : HexRecord)
  deriving DecidableEq, Repr

/-- The outcome of an operation that the block reports to the host (R13). A refusal is no outcome: it ends the run (R279). -/
inductive OpResult where
  | ok (v : Value)
  | error (e : OpError)
  deriving DecidableEq, Repr

/-! ## Host-layer data (R38) -/

/-- `PagePlan` (R38): `runs` is the array of 512 run counts indexed by offset. -/
structure PagePlan where
  eraseNeeded : Bool
  writeNeeded : Bool
  bytesToWrite : Nat
  runs : List Nat
  deriving DecidableEq, Repr

/-- `InfoPageConfig` (R38): five address bytes, channel, power. -/
structure InfoPageConfig where
  txAddr0 : Byte
  txAddr1 : Byte
  txAddr2 : Byte
  txAddr3 : Byte
  txAddr4 : Byte
  channel : Byte
  power : Byte
  deriving DecidableEq, Repr

/-- Where the planner places an image: at a base offset, or at the highest possible one (R200, R206). -/
inductive Placement where
  | atOffset (offset : Nat)
  | highest
  deriving DecidableEq, Repr

/-- The clamp mode of `decode_line`: absent, or an offset and a maximum size (R122). -/
abbrev Clamp := Option (Nat × Nat)

/-! ## Operations and the steps they are made of -/

/-- One operation the host asks for, with its operands (R14, R95), the host layer's operations among them (R5). -/
inductive Op where
  /-- `begin(bus, port)`; the two identifiers are opaque (R236). -/
  | begin (bus port : Nat)
  /-- `end()` (R238). -/
  | close
  /-- `transfer(buffer)` (R239). -/
  | transfer (buffer : List Byte)
  /-- `transfer_scattered(op, address, buffer)` (R245). -/
  | transferScattered (op : Byte) (address : Nat) (buffer : List Byte)
  /-- `decode_line(line, cap, dest, clamp)` with `cap = len(dest)` (R110). -/
  | decodeLine (line dest : List Byte) (clamp : Clamp)
  /-- `read_fsr()` (R172). -/
  | readFsr
  /-- `enable_write_latch()` (R173). -/
  | enableWriteLatch
  /-- `enable_info_page()` (R174). -/
  | enableInfoPage
  /-- `disable_info_page()` (R174). -/
  | disableInfoPage
  /-- `wait_ready()` (R175). -/
  | waitReady
  /-- `is_locked()` (R176). -/
  | isLocked
  /-- `check_unlocked()` (R177). -/
  | checkUnlocked
  /-- `flash_erase_page(p)` (R178). -/
  | flashErasePage (page : Byte)
  /-- `flash_erase_all()` (R179). -/
  | flashEraseAll
  /-- `flash_program(addr, data)` (R180). -/
  | flashProgram (address : Nat) (data : List Byte)
  /-- `flash_read(addr, k, gate)` (R181). -/
  | flashRead (address count : Nat) (gate : Bool)
  /-- `flash_lock()` (R182). -/
  | flashLock
  /-- The planner over the lines of one file (R200 to R206). -/
  | planFile (lines : List (List Byte)) (placement : Placement)
  /-- `write_page_smart` (R215). -/
  | writePageSmart (plan : PagePlan) (page : Nat) (target : List Byte) (backup isInfo : Bool)
  /-- The loop over the planned pages (R226). -/
  | writeImage (backup : Bool)
  /-- The bracketed write of the info page's record at an offset the host gives (R225). -/
  | writeInfoConfig (offset : Nat) (config : InfoPageConfig) (backup : Bool)
  deriving DecidableEq, Repr

/-- What an operation hands back when its last step is done. -/
inductive Returns where
  /-- `ok` with no value. -/
  | unit
  /-- The number of bytes in the buffer (R239, R245). -/
  | count
  /-- The FSR last read (R172). -/
  | status
  /-- Bit 2 of the FSR last read (R176). -/
  | locked
  /-- The buffer (R181). -/
  | bytes
  deriving DecidableEq, Repr

/-- One step of an operation in progress: the pseudocode lines of the sections 42 to 45 as data, so that the unbounded poll
of R175 is a run of steps and no recursion. -/
inductive Task where
  /-- `begin` up to the end of its frames (R236, R237). -/
  | openLink (bus port : Nat)
  /-- The settle wait and `T.PROGMODE <- 1` (R237). -/
  | settle
  /-- `end` (R238). -/
  | closeLink
  /-- One logical transfer (R239). -/
  | xfer (m : List Byte)
  /-- `transfer_scattered` up to its transfer (R245). -/
  | scattered (op : Byte) (address : Nat) (buffer : List Byte)
  /-- `transfer_scattered` after its transfer: the buffer rule (R245). -/
  | payload (op : Byte) (buffer : List Byte)
  /-- One `decode_line` call (R111). -/
  | decodeLine (line dest : List Byte) (clamp : Clamp)
  /-- `enable_write_latch`: the first read (R173). -/
  | latch
  /-- its test of the value read. -/
  | latchTest
  /-- its test of the value read back. -/
  | latchCheck
  /-- `set_info_page(want)`: the first read (R174). -/
  | infoPage (want : Bool)
  /-- its test of the value read. -/
  | infoTest (want : Bool)
  /-- its test of the value read back against the bit before. -/
  | infoCheck (before : Bool)
  /-- `wait_ready` after `polls` polls: the next read (R175). -/
  | waitReady (polls : Nat)
  /-- its test of the value read. -/
  | readyTest (polls : Nat)
  /-- `check_unlocked`: the read (R177). -/
  | checkUnlocked
  /-- its test. -/
  | unlockedTest
  /-- `flash_erase_page` (R178). -/
  | erasePage (page : Byte)
  /-- `flash_erase_all` (R179). -/
  | eraseAll
  /-- `flash_program` (R180). -/
  | program (address : Nat) (data : List Byte)
  /-- `flash_read` (R181). -/
  | readFlash (address count : Nat) (gate : Bool)
  /-- `flash_lock` (R182). -/
  | lock
  /-- The planner (R200). -/
  | planFile (lines : List (List Byte)) (placement : Placement)
  /-- `write_page_smart`, step 1 (R216). -/
  | smartRead (plan : PagePlan) (page : Nat) (target : List Byte) (backup isInfo : Bool)
  /-- steps 2 and 3 and what they decide (R217, R218). -/
  | smartDecide (plan : PagePlan) (page : Nat) (target : List Byte) (backup isInfo : Bool)
  /-- step 4, the call of the backup collaborator (R219). -/
  | smartBackup (contents : List Byte)
  /-- step 8, the compare (R223). -/
  | smartVerify (merged : List Byte)
  /-- The pages of the image still to be visited, in ascending order (R226). -/
  | imagePages (pages : List Nat) (backup : Bool)
  /-- The plan of a committed page is discarded (R226). -/
  | discardPlan (page : Nat)
  /-- The bracketed write of the info page (R225). -/
  | infoConfig (offset : Nat) (config : InfoPageConfig) (backup : Bool)
  /-- The operation returns `ok`. -/
  | ret (how : Returns)
  deriving DecidableEq, Repr

/-! ## The environment's choices (R39) -/

/-- What the environment does next. The choices are an input of the machine and stand in `State.env`; an empty list means
`go` for ever. -/
inductive EnvChoice where
  /-- Nothing special: spent by the transfer or the `begin` it meets, and nothing fails in that. -/
  | go
  /-- The target takes its ready step now (R155). -/
  | ready
  /-- The bridge cannot be opened (R236): heeded by the `begin` it meets; a transfer it meets spends it as `go`. -/
  | noOpen
  /-- The `phase`-th phase of the transfer or the program-mode entry it meets fails: `write` says whether its write phase
  (`WriteFailed`) or its read phase (`ReadFailed`) does (R246). -/
  | fail (phase : Nat) (write : Bool)
  deriving DecidableEq, Repr

/-! ## Stops -/

/-- Why the machine stops with a fault. The spec has no stop of the machine of its own: its errors are outcomes (R276). -/
inductive Fault where
  /-- Raised by the bit-banged transport when the parameters of `State.params` break R8 (two lines on one pin, a chunk of no
  byte): no machine has such parameters. Safe: nothing can be proved about what follows. -/
  | badParameters
  deriving DecidableEq, Repr

/-- Why a step is refused: the `refuse(reason)` of R279 and spec/93_implementation_defined.md 1.3, one constructor for each
reason. Every one is safe: it gives a run no continuation, so nothing is provable about what the hardware then does. -/
inductive Refusal where
  /-- An instruction whose meaning the model does not hold yet (raised by `exec`'s refused arms only). Safe. -/
  | notModelled (mnemonic : String)
  /-- A transfer with `LINK_OPEN = 0` (R239); raised by `transferStep`. Safe. -/
  | linkClosed
  /-- A transfer after a transport error and before `end` (R273); raised by `transferStep`. Safe. -/
  | transportStateUnknown
  /-- `transfer_scattered` with an `op` other than 0x03 and 0x02 (R245); raised by `scatteredStep`. Safe. -/
  | scatteredOpcode
  /-- `transfer_scattered` with an address above 65535 (R85, R245); raised by `scatteredStep`. Safe. -/
  | addressTooWide
  /-- A wire command with `T.PROGMODE = 0` (R141); raised by every wire command's meaning. Safe. -/
  | notInProgramMode
  /-- A wire command other than `RDSR` while `RDYN = 1` (R142); raised by every such command's meaning. Safe. -/
  | targetBusy
  /-- The first byte of a command is none of the eleven opcodes (R156); raised by `receive`. Safe. -/
  | unknownOpcode
  /-- A command too short or too long for its format (R157); raised by `receive`. Safe. -/
  | malformedLength
  /-- `CMD_ENDEBUG`, which has an encoding and no semantics (R154); raised by `execCmdEndebug`. Safe. -/
  | debugCommandWithoutMeaning
  /-- `READ` or `PROGRAM` past the end of the region (R60); raised by `execRead` and `execProgram`. Safe. -/
  | outsideRegion
  /-- `PROGRAM` across a page boundary (R60, R149); raised by `execProgram`. Safe. -/
  | acrossPages
  /-- `ERASE_PAGE` with an index the region does not have (R60, R150); raised by `execErasePage`. Safe. -/
  | pageIndexOutOfRange
  /-- More samples pending than the bridge's FIFO holds (R33, R320); raised by `bitbangTransfer`. Safe. -/
  | fifoOverflow
  /-- HEX data records that cover one flash byte twice, given to the planner (R203); raised by `planStep`. Safe. -/
  | overlappingRecords
  deriving DecidableEq, Repr

end Sys2Proof.Machine

namespace Sys2Proof.Machine

/-- The whole system. Fields are grouped by owner; INVENTORY.md lists each with its rule and its reset value. -/
structure State where
  /-- The open parameters of R8: read-only data of the machine, never written by a step. -/
  params : Params
  /-- BLOCK: `PINS` (R21). -/
  pins : Byte
  /-- The frame trace of the last transfer or `begin`: the frames built, in order; none with the emulator (R24, R95). -/
  frames : List Byte
  /-- BLOCK: `LINK_OPEN` (R22). -/
  linkOpen : Bool
  /-- BRIDGE: the read FIFO's pending samples, oldest first (R33). -/
  fifo : List Byte
  /-- BRIDGE: the transport's state is unknown since a transport error (R273, R277). -/
  lost : Bool
  /-- TARGET: `T.FSR` (R26 to R28). -/
  fsr : Byte
  /-- TARGET: `T.FPCR` (R29). -/
  fpcr : Byte
  /-- TARGET: `T.MAIN`, 16384 bytes (R30). -/
  main : Memory
  /-- TARGET: `T.INFO`, 512 bytes (R31). -/
  info : Memory
  /-- TARGET: `T.PROGMODE` (R32). -/
  progmode : Bool
  /-- TARGET: bits shifted in since chip-select fell, oldest first (R34). -/
  shiftIn : List Bool
  /-- TARGET: response bits already shifted past since chip-select fell (R34). -/
  shiftPos : Nat
  /-- TARGET: `r[0..n-1]`, the bytes it drives on MISO during the last command (R82). -/
  resp : List Byte
  /-- The opcodes of the commands the target received, latest first: the observation of R158. -/
  received : List Byte
  /-- HOST: operations it is going to call, in order (R3, R14). -/
  requests : List Op
  /-- The rest of the operation in progress (R24). -/
  tasks : List Task
  /-- The buffer of the operation in progress: in/out operand of `transfer` (R239). -/
  buffer : List Byte
  /-- The destination of `decode_line` (R110); its length is `cap`. -/
  dest : List Byte
  /-- The clamp operand of `decode_line` (R122). -/
  clamp : Clamp
  /-- Lines consumed by `decode_line` calls: the cursor of R25. -/
  cursor : Nat
  /-- The outcome of the last operation that ended (R13). -/
  outcome : Option OpResult
  /-- HOST layer: `plan[0..31]` of the planner (R200). -/
  plans : List PagePlan
  /-- HOST layer: `image`, each planned byte at its flash address, in the order placed (R200, R203). -/
  image : List Host.Cell
  /-- HOST layer: the calls of the backup collaborator, latest first: page contents and chip id (R219). -/
  backups : List (List Byte × List Byte)
  /-- The environment's coming choices (R39). -/
  env : List EnvChoice
  /-- How many free values have been drawn (model's own: the index into `Config.freeByte` and `Config.freeBit`). -/
  draws : Nat
  deriving DecidableEq, Repr

/-- The system at block power-up (R40, R300): the link closed and the FIFO empty, as the spec says. Every target register,
both flash regions, `PINS` and `T.PROGMODE` are unconstrained there: the values below are DESIGN CHOICES (log entries 1, 3
and 4), unsafe, and no statement rests on them. -/
def State.reset : State where
  params := Params.default
  pins := 0#8
  frames := []
  linkOpen := false
  fifo := []
  lost := false
  fsr := 0#8
  fpcr := 0#8
  main := []
  info := []
  progmode := false
  shiftIn := []
  shiftPos := 0
  resp := []
  received := []
  requests := []
  tasks := []
  buffer := []
  dest := []
  clamp := none
  cursor := 0
  outcome := none
  plans := []
  image := []
  backups := []
  env := []
  draws := 0

end Sys2Proof.Machine
end

