-- ==== Sys2Proof/Machine/Flags.lean ====
section
/-! DEFINITION. The flash status register, the flag register of the system (R26, R35): its named bits, and every rule by
which a command or the target's own ready step changes it. -/

namespace Sys2Proof.Machine

/-- `FSR[5]`, the write-enable latch (R26). -/
def fsrWen (f : Byte) : Bool := f.getLsbD 5
/-- `FSR[4]`: 0 is ready, 1 is busy (R27). -/
def fsrRdyn (f : Byte) : Bool := f.getLsbD 4
/-- `FSR[3]`: the info page is the addressed region (R26). -/
def fsrInfen (f : Byte) : Bool := f.getLsbD 3
/-- `FSR[2]`: 1 is locked (R27). -/
def fsrRdismb (f : Byte) : Bool := f.getLsbD 2

/-- `FSR.WEN <- b`. -/
def setWen (f : Byte) (b : Bool) : Byte := setBit f 5 b
/-- `FSR.RDYN <- b`. -/
def setRdyn (f : Byte) (b : Bool) : Byte := setBit f 4 b
/-- `FSR.RDISMB <- b`. -/
def setRdismb (f : Byte) (b : Bool) : Byte := setBit f 2 b

/-- `FSR.INFEN` of a byte flipped, every other bit as it is: the byte `set_info_page` writes (R174). -/
def flipInfen (f : Byte) : Byte := f ^^^ 0x08#8

/-- What `RDSR` returns: the FSR with bits 1 and 0 replaced by two draws (R28, R146). -/
def statusRead (f : Byte) (b1 b0 : Bool) : Byte := setBit (setBit f 1 b1) 0 b0

/-- The FSR after `WRSR v` (R147): `INFEN` from `v`, `RDYN` kept, every other bit from `v` where the drawn byte `pick` has a
1 and kept where it has a 0. -/
def statusWritten (f v pick : Byte) : Byte := mergeBits f v ((pick &&& 0xE7#8) ||| 0x08#8)

/-- The FSR after an honoured mutating command (R149, R159): `RDYN` is the draw `busy`, `WEN` kept or cleared by the draw
`keep`. -/
def statusMutated (f : Byte) (busy keep : Bool) : Byte := setWen (setRdyn f busy) (fsrWen f && keep)

/-- The FSR after the target's ready step (R155). -/
def statusReady (f : Byte) (keep : Bool) : Byte := setWen (setRdyn f false) (fsrWen f && keep)

/-- The FSR after a mutating command that was in flight (R277): without `WEN` it could write nothing; else `RDYN` is
either and `WEN` is kept or cleared, by the drawn byte; `g` is the FSR with the bits the command writes beside these. -/
def statusMutationCut (f g pick : Byte) : Byte :=
  if fsrWen f then statusMutated g (pick.getLsbD 4) (pick.getLsbD 5) else f

/-- The FSR after a command that was in flight when the transport failed (R277): each bit the command could write is the
old or the new one, by the drawn byte; every other bit is the old one. -/
def statusCut (i : Instr) (f pick : Byte) : Byte :=
  match i with
  | .wren => setWen f (fsrWen f || pick.getLsbD 5)
  | .wrdis => setWen f (fsrWen f && pick.getLsbD 5)
  | .wrsr v => mergeBits f v (pick &&& 0xEF#8)
  | .program _ data => if data = [] then f else statusMutationCut f f pick
  | .erasePage _ => statusMutationCut f f pick
  | .eraseAll => statusMutationCut f (setRdismb f (fsrRdismb f && pick.getLsbD 2)) pick
  | .cmdRdismb => statusMutationCut f (setRdismb f (fsrRdismb f || pick.getLsbD 2)) pick
  | .read _ _ => f
  | .rdsr _ => f
  | .rdfpcr _ => f
  | .cmdEndebug => f
  | .hexData _ _ _ => f
  | .hexEof _ _ _ => f

end Sys2Proof.Machine
end

