-- ==== Sys2Proof/Machine/Ops.lean ====
section
/-! DEFINITION. The named operations the meanings share: the flash regions' memory, free values, the target's reply, and
taking an error (`raise`, R276) and returning. -/

namespace Sys2Proof.Machine

/-! ## Memory (R11's `MemRead`, `MemWrite`, `MemAnd`) -/

/-- What an address not listed in a region's memory reads as. DESIGN CHOICE (log entry 4): 0xFF, the erased byte; unsafe for
runs from `State.reset`, and without effect on statements about every state. -/
def Memory.blank : Byte := 0xFF#8

/-- The byte at an address. -/
def Memory.read : Memory → Nat → Byte
  | [], _ => Memory.blank
  | (k, v) :: rest, a => if k = a then v else Memory.read rest a

/-- The memory with one byte written, in canonical form again. -/
def Memory.write : Memory → Nat → Byte → Memory
  | [], a, v => if v = Memory.blank then [] else [(a, v)]
  | (k, w) :: rest, a, v =>
    if a < k then (if v = Memory.blank then (k, w) :: rest else (a, v) :: (k, w) :: rest)
    else if a = k then (if v = Memory.blank then rest else (a, v) :: rest)
    else (k, w) :: Memory.write rest a v

/-- `n` bytes at consecutive ascending addresses (R59). -/
def Memory.readRange (m : Memory) (base n : Nat) : List Byte :=
  (List.range n).map (fun i => Memory.read m (base + i))

/-- `MemAnd`: each byte of `data` ANDed into the memory from `base` on (R61). -/
def Memory.andRange : Memory → Nat → List Byte → Memory
  | m, _, [] => m
  | m, base, d :: ds => Memory.andRange (Memory.write m base (Memory.read m base &&& d)) (base + 1) ds

/-- The bytes at the addresses that `which` picks set to 0xFF: with 0xFF as the unlisted byte, their entries are removed. -/
def Memory.eraseWhere (m : Memory) (which : Nat → Bool) : Memory := m.filter (fun c => !which c.1)

/-- The address lies among the `n` from `base` on. -/
def inRange (base n a : Nat) : Bool := decide (base ≤ a) && decide (a < base + n)

/-- `n` bytes from `base` on set to 0xFF (R61). -/
def Memory.eraseRange (m : Memory) (base n : Nat) : Memory := m.eraseWhere (inRange base n)

/-- `n` bytes from `base` on, each erased or left by a draw, the drawn bits counted from `seed`: what an erase that was cut
short leaves (R277). -/
def Memory.eraseSome (m : Memory) (base n seed : Nat) : Memory :=
  m.eraseWhere (fun a => inRange base n a && Config.freeBit (seed + (a - base)))

/-- Each of a region's `size` bytes anything that programs and erases can make of it (R61): with as many drawn bytes `data`,
`old & x` or 0xFF, the drawn bits counted from `seed`. Irreducible: unfolding it makes a write of every byte. -/
@[irreducible] def Memory.scrambled (m : Memory) (size : Nat) (data : List Byte) (seed : Nat) : Memory :=
  Memory.eraseSome (Memory.andRange m 0 data) 0 size seed

/-- The canonical form for a region of `size` bytes: strictly rising addresses, all inside, no unlisted byte listed. -/
def Memory.wf (size : Nat) (m : Memory) : Bool :=
  decide (m.Pairwise (fun c d => c.1 < d.1)) && m.all (fun c => decide (c.1 < size) && decide (c.2 ≠ Memory.blank))

/-! ## Free values -/

/-- The `k`-th free byte from the state's next one on. -/
def State.freeByte (s : State) (k : Nat) : Byte := Config.freeByte (s.draws + k)

/-- The `k`-th free bit from the state's next one on. -/
def State.freeBit (s : State) (k : Nat) : Bool := Config.freeBit (s.draws + k)

/-- `n` free bytes, from the state's next one on. -/
def State.freeBytes (s : State) (n : Nat) : List Byte :=
  (List.range n).map (fun i => s.freeByte i)

/-- The next `n` free values are spent. -/
def State.spend (s : State) (n : Nat) : State := { s with draws := s.draws + n }

/-! ## The target -/

/-- The target drives `r` during the command (R82); `n` free values went into it. -/
def State.reply (s : State) (r : List Byte) (n : Nat) : State := { s with resp := r, draws := s.draws + n }

/-- The FSR takes a value. -/
def State.setFsr (s : State) (f : Byte) : State := { s with fsr := f }

/-- The end of an honoured mutating command (R149, R159): busy or already done, the latch kept or cleared. -/
def State.mutated (s : State) : State :=
  { s with fsr := statusMutated s.fsr (s.freeBit 0) (s.freeBit 1), draws := s.draws + 2 }

/-- The gate of every wire command: program mode (R141). -/
def inProgramMode (s : State) (k : Host.Outcome State Fault Refusal) : Host.Outcome State Fault Refusal :=
  if s.progmode then k else .refused .notInProgramMode

/-- The gates of every wire command but `RDSR`: program mode (R141) and ready (R142). -/
def whenReady (s : State) (k : Host.Outcome State Fault Refusal) : Host.Outcome State Fault Refusal :=
  inProgramMode s (if fsrRdyn s.fsr then .refused .targetBusy else k)

/-- The target's ready step (R155); without effect while it is ready. -/
def State.readyStep (s : State) : State :=
  if fsrRdyn s.fsr then { s with fsr := statusReady s.fsr (s.freeBit 0), draws := s.draws + 1 } else s

/-- The reset pulse of program-mode entry at the target (R40, R300): FSR and FPCR unconstrained, the shift position
cleared, flash unchanged. -/
def State.targetReset (s : State) : State :=
  { s with fsr := s.freeByte 0, fpcr := s.freeByte 1, draws := s.draws + 2, shiftIn := [], shiftPos := 0, resp := [] }

/-! ## Outcomes of operations -/

/-- `raise E` (R276): the operation and every operation that called it end with `error(E)`; no state is saved, no mode
changes, nothing is undone. There is no return from it (R278): the host's next operation is the next thing that runs. -/
def State.raise (s : State) (e : OpError) : State := { s with tasks := [], outcome := some (.error e) }

/-- An operation ends with `ok(v)` (R13). -/
def State.finish (s : State) (v : Value) : State := { s with outcome := some (.ok v) }

/-- Continue a step that answered a next state. -/
def andThen (o : Host.Outcome State Fault Refusal) (f : State → Host.Outcome State Fault Refusal) :
    Host.Outcome State Fault Refusal :=
  match o with
  | .next s => f s
  | .fault r => .fault r
  | .refused r => .refused r

/-- The kind of the transport error of a failed phase (R246). -/
def phaseError (write : Bool) : OpError :=
  if write then .transport .writeFailed else .transport .readFailed

/-- The code column of R270: the spec's ordinal label of each error. -/
def OpError.code : OpError → Nat
  | .decode .malformedLine => 1
  | .decode .bufferTooSmall => 2
  | .decode .truncatedLine => 3
  | .decode .checksumMismatch => 4
  | .decode .unsupportedRecordType => 5
  | .transport .openFailed => 6
  | .transport .writeFailed => 7
  | .transport .readFailed => 8
  | .protocol .writeLatchFailed => 9
  | .protocol .infoPageToggleFailed => 10
  | .protocol .verificationError => 11
  | .protocol .deviceLocked => 12
  | .protocol .timeout => 13

end Sys2Proof.Machine
end

