-- ==== Sys2Proof/Machine/Operands.lean ====
section
/-! DEFINITION. The operand forms of the wire commands and the HEX records: the region an array command addresses (R51),
its bounds (R60), the page operand (R86), and the destination and clamp of a record (R114, R122). -/

namespace Sys2Proof.Machine

/-- The region `FSR.INFEN` selects (R51). -/
def State.region (s : State) : Memory := if fsrInfen s.fsr then s.info else s.main

/-- The size of the region `FSR.INFEN` selects (R50). -/
def State.regionSize (s : State) : Nat := if fsrInfen s.fsr then Config.infoSize else Config.flashSize

/-- The selected region replaced. -/
def State.setRegion (s : State) (m : Memory) : State :=
  if fsrInfen s.fsr then { s with info := m } else { s with main := m }

/-- An access of `k` bytes at `addr` stays inside the selected region (R60). -/
def State.inRegion (s : State) (addr k : Nat) : Bool := decide (addr + k ≤ s.regionSize)

/-- An access of `k` bytes at `addr` stays inside one page (R60, R149). -/
def inOnePage (addr k : Nat) : Bool :=
  decide (k = 0) || decide (addr / Config.pageSize = (addr + k - 1) / Config.pageSize)

/-- The page indices the selected region has (R60, R150): 32 of main flash, one of the info page. -/
def State.pageCount (s : State) : Nat := if fsrInfen s.fsr then 1 else Config.pagesCnt

/-- The first address of a page (R52, R86). -/
def pageBase (page : Nat) : Nat := Config.pageSize * page

/-- Main flash is what `READ` addresses, and it is locked (R65, R148). -/
def State.readLocked (s : State) : Bool := !fsrInfen s.fsr && fsrRdismb s.fsr

/-- A data record would write past the clamp's maximum size (R122). -/
def clampExceeded (clamp : Clamp) (address : Half) (count : Nat) : Bool :=
  match clamp with
  | none => false
  | some (offset, maxSize) => decide (maxSize < address.toNat + offset + count)

/-- The destination with a payload stored at its start (R117). -/
def storePayload (dest payload : List Byte) : List Byte := payload ++ dest.drop payload.length

end Sys2Proof.Machine
end

