-- ==== Sys2Proof/Machine/HexRecords.lean ====
section
/-! DEFINITION. The HEX record kinds (spec/40_hex_decoder.md): what `decode_line` does with a record once steps S1 to S5 of
R111 have made it of a line, on the destination and the clamp that `State` holds for the call. -/

namespace Sys2Proof.Machine

/-- The record `decode_line` returns (R37). -/
def hexRecord (address : Half) (type : RecordType) (payload : List Byte) (checksum : Byte) : HexRecord where
  byteCount := BitVec.ofNat 8 payload.length
  address := address
  recordType := type
  payload := payload
  checksum := checksum

/-- The integer result of R110 and C10: the count of a data record, 0 at the end of the file. -/
def HexRecord.integerResult (r : HexRecord) : Nat :=
  match r.recordType with
  | .data => r.byteCount.toNat
  | .endOfFile => 0
  | .unsupported => 0

/-- The tests that come before the record type: the destination's size (S3, R114) and the checksum (S5, R116). -/
def checkRecord (s : State) (address : Half) (type : Nat) (payload : List Byte) (checksum : Byte) (k : State) : State :=
  if s.dest.length < payload.length then s.raise (.decode .bufferTooSmall)
  else if checksumOk address type payload checksum = false then s.raise (.decode .checksumMismatch)
  else k

/-- `HEX_DATA` (R117, R122): the clamp's test, then the payload goes to the destination's start and the record is the
result. -/
def execHexData (address : Half) (payload : List Byte) (checksum : Byte) (s : State) :
    Host.Outcome State Fault Refusal :=
  .next (checkRecord s address 0 payload checksum
    (if clampExceeded s.clamp address payload.length then s.raise (.decode .bufferTooSmall)
    else { s with dest := storePayload s.dest payload }.finish (.record (hexRecord address .data payload checksum))))

/-- `HEX_EOF` (R118): the record is the result; the destination is not written, and the clamp does not apply. -/
def execHexEof (address : Half) (payload : List Byte) (checksum : Byte) (s : State) :
    Host.Outcome State Fault Refusal :=
  .next (checkRecord s address 1 payload checksum (s.finish (.record (hexRecord address .endOfFile payload checksum))))

end Sys2Proof.Machine
end

