-- ==== Sys2Proof/Machine/Planner.lean ====
section
/-! DEFINITION. Host layer: the page write planner (spec/43_page_planner.md). Pure computation over the lines of one file. -/

namespace Sys2Proof.Machine

/-- The whole of `decode_line` as a function (R111): the record, or the error, for a destination of `cap` bytes. -/
def decodeLineResult (cap : Nat) (clamp : Clamp) (line : List Byte) : Except DecodeError HexRecord :=
  match decodeHex cap line with
  | .error e => .error e
  | .ok (.hexData address payload checksum) =>
    if clampExceeded clamp address payload.length then .error .bufferTooSmall
    else .ok (hexRecord address .data payload checksum)
  | .ok (.hexEof address payload checksum) => .ok (hexRecord address .endOfFile payload checksum)
  | .ok _ => .error .unsupportedRecordType

/-- The records of a file's lines up to and including the first end-of-file record (R200); the first error ends it. Lines
that end without such a record are taken as the whole file: the model's choice, the spec is silent (log entry 25). -/
def fileRecords : List (List Byte) → Except DecodeError (List HexRecord)
  | [] => .ok []
  | line :: lines =>
    match decodeLineResult Config.hexMaxPayload none line with
    | .error e => .error e
    | .ok r =>
      if r.recordType = .endOfFile then .ok [r]
      else
        match fileRecords lines with
        | .error e => .error e
        | .ok rs => .ok (r :: rs)

/-- An empty plan (R38). -/
def emptyPlan : PagePlan where
  eraseNeeded := false
  writeNeeded := false
  bytesToWrite := 0
  runs := List.replicate Config.pageSize 0

/-- The plans of an empty flash: one for each page (R200). -/
def emptyPlans : List PagePlan := List.replicate Config.pagesCnt emptyPlan

/-- What the planner has placed so far. -/
structure Planned where
  plans : List PagePlan
  image : List Host.Cell
  deriving DecidableEq, Repr

/-- Why planning stops: an error of the taxonomy (R200, R201), or overlapping records, which the model refuses (R203). -/
inductive PlanStop where
  | error (e : DecodeError)
  | overlap
  deriving DecidableEq, Repr

/-- The bytes of one part of a record with their flash addresses (R203). -/
def partCells (page off : Nat) (bytes : List Byte) : List Host.Cell :=
  bytes.mapIdx (fun i b => (pageBase page + off + i, b))

/-- One run recorded in its page's plan (R203). -/
def recordRun (plan : PagePlan) (off count : Nat) : PagePlan :=
  { plan with runs := plan.runs.set off count, bytesToWrite := plan.bytesToWrite + count }

/-- One part of a record placed (R203); an empty part records nothing. -/
def placePart (st : Planned) (page off : Nat) (bytes : List Byte) : Planned :=
  if bytes = [] then st
  else
    { plans := st.plans.modify page (fun plan => recordRun plan off bytes.length)
      image := st.image ++ partCells page off bytes }

/-- Some byte of a range is planned already (R203). -/
def alreadyPlanned (st : Planned) (addr count : Nat) : Bool :=
  st.image.any (fun c => decide (addr ≤ c.1) && decide (c.1 < addr + count))

/-- One data record placed (R201, R202, R203): page and offset, the split at a page boundary, the range test. -/
def placeRecord (offset : Nat) (st : Planned) (r : HexRecord) : Except PlanStop Planned :=
  let addr := r.address.toNat + offset
  let count := r.payload.length
  let page := addr / Config.pageSize
  let off := addr % Config.pageSize
  let spill := off + count - Config.pageSize
  if count = 0 then .ok st
  else if Config.pagesCnt ≤ page ∨ (0 < spill ∧ Config.pagesCnt ≤ page + 1) then .error (.error .bufferTooSmall)
  else if alreadyPlanned st addr count then .error .overlap
  else
    .ok (placePart (placePart st page off (r.payload.take (count - spill))) (page + 1) 0 (r.payload.drop (count - spill)))

/-- The main pass over a file's lines (R200): each record is placed as soon as its line is decoded, before the next line
is (R37). So the first line that fails decides, whether in decoding, by its place or by an overlap: the model's choice (log
entry 25), as is that lines which end without an end-of-file record are taken as the whole file. -/
def placeLines (offset : Nat) : Planned → List (List Byte) → Except PlanStop Planned
  | st, [] => .ok st
  | st, line :: lines =>
    match decodeLineResult Config.hexMaxPayload none line with
    | .error e => .error (.error e)
    | .ok r =>
      if r.recordType = .endOfFile then .ok st
      else
        match placeRecord offset st r with
        | .error e => .error e
        | .ok st' => placeLines offset st' lines

/-- The count of the run at an offset; 0 past the page. -/
def runAt (runs : List Nat) (i : Nat) : Nat := runs.getD i 0

/-- The loop of `compact_writes` (R204), with the number of iterations it may still take. -/
def compactLoop : Nat → Nat → List Nat → List Nat
  | 0, _, runs => runs
  | fuel + 1, i, runs =>
    if runs.length ≤ i then runs
    else if runAt runs i = 0 then compactLoop fuel (i + 1) runs
    else
      let j := i + runAt runs i
      if j < runs.length ∧ runAt runs j ≠ 0 then
        compactLoop fuel i ((runs.set i (runAt runs i + runAt runs j)).set j 0)
      else compactLoop fuel j runs

/-- `compact_writes` (R204). Each iteration moves on or zeroes one run, so twice the length is enough of them. -/
def compactRuns (runs : List Nat) : List Nat := compactLoop (2 * runs.length) 0 runs

/-- A page's plan compacted; nothing but the runs changes (R204). -/
def compactPlan (plan : PagePlan) : PagePlan := { plan with runs := compactRuns plan.runs }

/-- `round_up` of R10. -/
def roundUp (x m : Nat) : Nat := (x + m - 1) / m * m

/-- The maximum of `address + count` over the data records; 0 if there is none (R206). -/
def maxExtent (rs : List HexRecord) : Nat :=
  rs.foldl (fun e r => if r.recordType = .data then max e (r.address.toNat + r.payload.length) else e) 0

/-- The highest offset at which the records of an image fit (R206); an image larger than the flash has none. -/
def highestOffset (rs : List HexRecord) : Except PlanStop Nat :=
  if Config.flashSize < roundUp (maxExtent rs) Config.pageSize then .error (.error .bufferTooSmall)
  else .ok (Config.flashSize - roundUp (maxExtent rs) Config.pageSize)

/-- The base offset of a placement (R200, R206). The highest one takes a pre-pass that decodes every line, so its errors
come before any of the main pass. -/
def baseOffset (placement : Placement) (lines : List (List Byte)) : Except PlanStop Nat :=
  match placement with
  | .atOffset offset => .ok offset
  | .highest =>
    match fileRecords lines with
    | .error e => .error (.error e)
    | .ok rs => highestOffset rs

/-- The planner (R200): the base offset, the main pass over the lines from empty plans, every page compacted. In which order
its errors decide is said at `placeLines` (log entry 25). -/
def planFile (placement : Placement) (lines : List (List Byte)) : Except PlanStop Planned :=
  match baseOffset placement lines with
  | .error e => .error e
  | .ok offset =>
    match placeLines offset { plans := emptyPlans, image := [] } lines with
    | .error e => .error e
    | .ok st => .ok { st with plans := st.plans.map compactPlan }

/-- The planner as a step of the host: its plans and image are the host's from then on. -/
def planStep (lines : List (List Byte)) (placement : Placement) (s : State) : Host.Outcome State Fault Refusal :=
  match planFile placement lines with
  | .ok st => .next { s with plans := st.plans, image := st.image }
  | .error (.error e) => .next (s.raise (.decode e))
  | .error .overlap => .refused .overlappingRecords

/-- The bytes of a page in the image: its row `image[p]`. An offset no run covers reads as 0xFF and is never looked at
(R200, R216). -/
def imageRow (image : List Host.Cell) (page : Nat) : List Byte :=
  (List.range Config.pageSize).map (fun i =>
    ((image.find? (fun c => c.1 == pageBase page + i)).map (fun c => c.2)).getD 0xFF#8)

end Sys2Proof.Machine
end

