-- ==== Sys2Proof/Machine/SmartWriter.lean ====
section
/-! DEFINITION. Host layer: the smart page writer (spec/44_smart_writer.md), its pure parts as functions and its steps as
tasks over the operations of FSRCTL. -/

namespace Sys2Proof.Machine

/-- The offsets the nonzero runs of a plan cover, run by run in ascending order (R215). -/
def coveredOffsets (runs : List Nat) : List Nat :=
  (List.range runs.length).flatMap (fun off => (List.range (runAt runs off)).map (fun k => off + k))

/-- The byte at an offset of a page buffer or of a `target_bytes` list. Past that list's own end it is 0x00, whichever of the
two lists it is. The contract of R215 has 512 bytes in both; what a list that is shorter, a list that is longer, or a run past
the page's end means, the spec leaves open. DESIGN CHOICE (log entry 26), unsafe. -/
def pageByte (page : List Byte) (i : Nat) : Byte := page.getD i 0#8

/-- A byte needs an erase: the target sets a bit that is 0 now (R218). -/
def eraseBit (current target : Byte) : Bool := decide (~~~current &&& target ≠ 0#8)

/-- Steps 2 and 3 (R217, R218): the two booleans of the plan for the page as it was read. DESIGN CHOICE (log entry 26, unsafe)
where `target` is not the 512 bytes of R215 or a run leaves the page: each list counts as 0x00 past its own end. So a shorter
target's 0x00 is compared with the page's own byte, a longer target's own bytes past the page's end are compared with 0x00,
and both can set the booleans; past the end of both nothing differs. -/
def analysePlan (plan : PagePlan) (current target : List Byte) : PagePlan :=
  { plan with
    writeNeeded := plan.writeNeeded ||
      (coveredOffsets plan.runs).any (fun i => decide (pageByte target i ≠ pageByte current i))
    eraseNeeded := plan.eraseNeeded ||
      (coveredOffsets plan.runs).any (fun i => eraseBit (pageByte current i) (pageByte target i)) }

/-- Step 6 (R221): the contents read in step 1 with the target's bytes laid over every run's span. DESIGN CHOICE (log entry
26, unsafe): where the target is shorter than the span, 0x00 is laid over the rest of it and programmed; what of a run, and of
a longer target, reaches past the page's end is dropped. -/
def mergedPage (runs : List Nat) (current target : List Byte) : List Byte :=
  (coveredOffsets runs).foldl (fun page i => page.set i (pageByte target i)) current

/-- The plan has a run (R217, R226). -/
def hasRun (plan : PagePlan) : Bool := plan.runs.any (fun c => decide (c ≠ 0))

/-- The chip id in a page buffer of the info page (R53, R219). -/
def chipIdOf (page : List Byte) : List Byte := (page.drop Config.chipIdOffset).take Config.chipIdSize

/-- `t` first, then the rest of the operation. -/
def State.push (s : State) (ts : List Task) : State := { s with tasks := ts ++ s.tasks }

/-- The plan given to `write_page_smart` is the planner's plan of the page, held in `State.plans`; any other plan is a value
of the host's (R14, log entry 19). -/
def State.ownsPlan (s : State) (page : Nat) (isInfo : Bool) (given : PagePlan) : Bool :=
  !isInfo && decide (s.plans[page]? = some given)

/-- Step 1 (R216): read the page, gated by the lock for main flash. Behind all the other steps, where the operation succeeds,
the page is committed and the planner's plan of it is discarded (R38, R226). -/
def smartReadStep (plan : PagePlan) (page : Nat) (target : List Byte) (backup isInfo : Bool) (s : State) : State :=
  s.push ([.readFlash (pageBase page) Config.pageSize (!isInfo), .smartDecide plan page target backup isInfo] ++
    (if s.ownsPlan page isInfo plan then [.discardPlan page] else []))

/-- The steps 4 to 8 for a page that needs writing (R219 to R223). -/
def smartTasks (plan : PagePlan) (page : Nat) (current target : List Byte) (backup isInfo : Bool) : List Task :=
  (if backup && isInfo then [.smartBackup current] else []) ++
    (if plan.eraseNeeded then [.erasePage (BitVec.ofNat 8 page)] else []) ++
      [.program (pageBase page) (mergedPage plan.runs current target),
        .readFlash (pageBase page) Config.pageSize (!isInfo),
        .smartVerify (mergedPage plan.runs current target)]

/-- The writer mutates the plan it was given (R38, R215). Where that is the planner's plan of the page, the change stands in
`State.plans`, and an error later in the operation leaves it there. -/
def State.mutatePlan (s : State) (page : Nat) (isInfo : Bool) (given mutated : PagePlan) : State :=
  if s.ownsPlan page isInfo given then { s with plans := s.plans.set page mutated } else s

/-- Steps 2 and 3 on the page just read (the buffer): the plan's booleans are set, and without a difference nothing more is
issued (R217). -/
def smartDecideStep (plan : PagePlan) (page : Nat) (target : List Byte) (backup isInfo : Bool) (s : State) : State :=
  if (analysePlan plan s.buffer target).writeNeeded then
    (s.mutatePlan page isInfo plan (analysePlan plan s.buffer target)).push
      (smartTasks (analysePlan plan s.buffer target) page s.buffer target backup isInfo)
  else s.mutatePlan page isInfo plan (analysePlan plan s.buffer target)

/-- Step 4 (R219): the collaborator is called; neither block nor target changes. -/
def smartBackupStep (contents : List Byte) (s : State) : State :=
  { s with backups := (contents, chipIdOf contents) :: s.backups }

/-- Step 8 (R223): the page read back (the buffer) must equal the merged buffer, all of it. -/
def smartVerifyStep (merged : List Byte) (s : State) : State :=
  if s.buffer = merged then s else s.raise (.protocol .verificationError)

/-- The loop of R226: the next planned page with a run, in ascending order, then the pages behind it. The writer discards the
plan of each page it commits. -/
def imagePagesStep (pages : List Nat) (backup : Bool) (s : State) : State :=
  match pages with
  | [] => s
  | p :: ps =>
    let plan := s.plans.getD p emptyPlan
    if hasRun plan then
      s.push [.smartRead plan p (imageRow s.image p) backup false, .imagePages ps backup]
    else s.push [.imagePages ps backup]

/-- The plan of a committed page is discarded (R226, R38). -/
def discardPlanStep (page : Nat) (s : State) : State := { s with plans := s.plans.set page emptyPlan }

/-- The seven bytes of an `InfoPageConfig` in the order of R38. -/
def InfoPageConfig.bytes (c : InfoPageConfig) : List Byte :=
  [c.txAddr0, c.txAddr1, c.txAddr2, c.txAddr3, c.txAddr4, c.channel, c.power]

/-- The info page's plan: one run of seven bytes at the offset (R225). -/
def infoPlan (offset : Nat) : PagePlan := recordRun emptyPlan offset 7

/-- The info page's target bytes; offsets outside the run are never looked at (R216). -/
def infoTarget (offset : Nat) (config : InfoPageConfig) : List Byte :=
  (List.range Config.pageSize).map (fun i => if i < offset then 0xFF#8 else config.bytes.getD (i - offset) 0xFF#8)

/-- The bracketed write of the info page (R225). A record that does not fit the page fails as in R201 (log entry 11). -/
def infoConfigStep (offset : Nat) (config : InfoPageConfig) (backup : Bool) (s : State) : State :=
  if Config.infoSize < offset + 7 then s.raise (.decode .bufferTooSmall)
  else
    s.push [.infoPage true, .smartRead (infoPlan offset) 0 (infoTarget offset config) backup true, .infoPage false]

end Sys2Proof.Machine
end

