-- ==== Sys2Proof/Machine/ArrayCommands.lean ====
section
/-! DEFINITION. The array commands: `READ`, `PROGRAM`, `ERASE_PAGE`, `ERASE_ALL` (spec/41_flash_commands.md section 3). -/

namespace Sys2Proof.Machine

/-- The data bytes `READ` answers: the region's, or draws from main flash under the lock (R148, D15). The draws are counted
from the state's fourth free value on: the first three are `r[0..2]`. -/
def State.readData (s : State) (addr k : Nat) : List Byte :=
  if s.readLocked then (List.range k).map (fun i => s.freeByte (3 + i)) else Memory.readRange s.region addr k

/-- `READ` (R148): `r[3+i] = region[addr+i]`; no state is written; `WEN` is not needed. -/
def execRead (addr : Half) (fill : List Byte) (s : State) : Host.Outcome State Fault Refusal :=
  whenReady s
    (if s.inRegion addr.toNat fill.length then
      .next (s.reply (s.freeBytes 3 ++ s.readData addr.toNat fill.length) (3 + fill.length))
    else .refused .outsideRegion)

/-- `PROGRAM` (R149): AND into the region, with `WEN` set; not honoured without; `k = 0` changes nothing. -/
def execProgram (addr : Half) (data : List Byte) (s : State) : Host.Outcome State Fault Refusal :=
  whenReady s
    (let answered := s.reply (s.freeBytes (3 + data.length)) (3 + data.length)
    if fsrWen s.fsr = false then .next answered
    else if s.inRegion addr.toNat data.length = false then .refused .outsideRegion
    else if inOnePage addr.toNat data.length = false then .refused .acrossPages
    else if data = [] then .next answered
    else .next (answered.setRegion (Memory.andRange s.region addr.toNat data)).mutated)

/-- `ERASE_PAGE` (R150): the page's 512 bytes become 0xFF, with `WEN` set; not honoured without. -/
def execErasePage (page : Byte) (s : State) : Host.Outcome State Fault Refusal :=
  whenReady s
    (let answered := s.reply (s.freeBytes 2) 2
    if fsrWen s.fsr = false then .next answered
    else if s.pageCount ≤ page.toNat then .refused .pageIndexOutOfRange
    else .next (answered.setRegion (Memory.eraseRange s.region (pageBase page.toNat) Config.pageSize)).mutated)

/-- The flash after a mass erase: all of main flash, and the info page where `INFEN = 1` and the parameter says so (R151). -/
def State.massErased (s : State) : State :=
  { s with
    main := Memory.eraseRange s.main 0 Config.flashSize
    info := if fsrInfen s.fsr && s.params.eraseAllHitsInfo then Memory.eraseRange s.info 0 Config.infoSize else s.info }

/-- `ERASE_ALL` (R151): with `WEN` set all of main flash becomes 0xFF; `RDISMB` is kept or cleared by a draw. -/
def execEraseAll (s : State) : Host.Outcome State Fault Refusal :=
  whenReady s
    (let answered := s.reply (s.freeBytes 1) 2
    if fsrWen s.fsr = false then .next answered
    else .next (answered.massErased.setFsr (setRdismb s.fsr (fsrRdismb s.fsr && s.freeBit 1))).mutated)

end Sys2Proof.Machine
end

