-- ==== Sys2Proof/Machine/ProtectCommands.lean ====
section
/-! DEFINITION. Protection, configuration and debug commands: `CMD_RDISMB`, `RDFPCR`, `CMD_ENDEBUG`
(spec/41_flash_commands.md section 4). -/

namespace Sys2Proof.Machine

/-- `CMD_RDISMB` (R152): with `WEN` set, `RDISMB <- 1`; not honoured without. -/
def execCmdRdismb (s : State) : Host.Outcome State Fault Refusal :=
  whenReady s
    (let answered := s.reply (s.freeBytes 1) 1
    if fsrWen s.fsr = false then .next answered
    else .next (answered.setFsr (setRdismb s.fsr true)).mutated)

/-- `RDFPCR` (R153): `r[1]` is `T.FPCR`; no state is written. -/
def execRdfpcr (_fill : Byte) (s : State) : Host.Outcome State Fault Refusal :=
  whenReady s (.next (s.reply [s.freeByte 0, s.fpcr] 1))

/-- `CMD_ENDEBUG` (R154): an encoding and no semantics; refused in every state. -/
def execCmdEndebug (_s : State) : Host.Outcome State Fault Refusal :=
  .refused .debugCommandWithoutMeaning

end Sys2Proof.Machine
end

