-- ==== Sys2Proof/Machine/StatusCommands.lean ====
section
/-! DEFINITION. The status and latch commands: `WREN`, `WRDIS`, `RDSR`, `WRSR` (spec/41_flash_commands.md section 2). -/

namespace Sys2Proof.Machine

/-- `WREN` (R144): `WEN <- 1`. -/
def execWren (s : State) : Host.Outcome State Fault Refusal :=
  whenReady s (.next ((s.reply (s.freeBytes 1) 1).setFsr (setWen s.fsr true)))

/-- `WRDIS` (R145): `WEN <- 0`. -/
def execWrdis (s : State) : Host.Outcome State Fault Refusal :=
  whenReady s (.next ((s.reply (s.freeBytes 1) 1).setFsr (setWen s.fsr false)))

/-- `RDSR` (R146): `r[1]` is the FSR, bits 1 and 0 drawn; allowed while busy; the fill byte is ignored. -/
def execRdsr (_fill : Byte) (s : State) : Host.Outcome State Fault Refusal :=
  inProgramMode s (.next (s.reply [s.freeByte 0, statusRead s.fsr (s.freeBit 1) (s.freeBit 2)] 3))

/-- `WRSR` (R147): `INFEN <- v[3]`, honoured whether or not `WEN` is set; the other bits but `RDYN` kept or taken from
`v`. -/
def execWrsr (v : Byte) (s : State) : Host.Outcome State Fault Refusal :=
  whenReady s (.next ((s.reply (s.freeBytes 2) 3).setFsr (statusWritten s.fsr v (s.freeByte 2))))

end Sys2Proof.Machine
end

