-- ==== Sys2Proof/Machine/Dispatch.lean ====
section
/-! DEFINITION. The meaning of every instruction, by name. -/

namespace Sys2Proof.Machine

def exec (i : Instr) (s : State) : Host.Outcome State Fault Refusal :=
  match i with
  | .wrsr v => Sys2Proof.Machine.execWrsr v s
  | .program addr data => Sys2Proof.Machine.execProgram addr data s
  | .read addr fill => Sys2Proof.Machine.execRead addr fill s
  | .wrdis => Sys2Proof.Machine.execWrdis s
  | .rdsr fill => Sys2Proof.Machine.execRdsr fill s
  | .wren => Sys2Proof.Machine.execWren s
  | .erasePage page => Sys2Proof.Machine.execErasePage page s
  | .eraseAll => Sys2Proof.Machine.execEraseAll s
  | .cmdRdismb => Sys2Proof.Machine.execCmdRdismb s
  | .cmdEndebug => Sys2Proof.Machine.execCmdEndebug s
  | .rdfpcr fill => Sys2Proof.Machine.execRdfpcr fill s
  | .hexData address payload checksum => Sys2Proof.Machine.execHexData address payload checksum s
  | .hexEof address payload checksum => Sys2Proof.Machine.execHexEof address payload checksum s

end Sys2Proof.Machine
end

