-- ==== Sys2Proof/Machine/Parameters.lean ====
section
/-! DEFINITION. The constraints R8 puts on the open parameters, and the frames of one bit (R239). -/

namespace Sys2Proof

/-- The six pin positions, in the order of R8. -/
def Params.pinList (p : Params) : List (Fin 8) :=
  [p.pinSck, p.pinMosi, p.pinMiso, p.pinCsn, p.pinReset, p.pinProg]

/-- What R8 demands before a frame can mean anything: pairwise distinct pins and a chunk of at least one byte. -/
def Params.wf (p : Params) : Bool :=
  decide p.pinList.Nodup && decide (1 ≤ p.chunkBytes)

/-- `FPB`, frames per bit: `3 + HOLD` (R239). -/
def Params.framesPerBit (p : Params) : Nat :=
  if p.hold then 4 else 3

/-- Every constraint of R8: the ones of `wf`, a chunk that fits the FIFO, and a poll limit that is `INF` or positive. -/
def Params.admitted (p : Params) : Bool :=
  p.wf && decide (p.chunkBytes * (8 * p.framesPerBit) ≤ p.fifoCap) && decide (p.readyPollLimit ≠ some 0)

end Sys2Proof
end

