-- ==== Sys2Proof/Machine/Frames.lean ====
section
/-! DEFINITION. SPISEQ at frame level (spec/45_spi_sequencer.md): the frames a transfer is made of (R240, R242, R243), the
bridge that drives them and captures samples (R248), the target's side of the pins (R241), and how the block reads the
response out of the samples. -/

namespace Sys2Proof.Machine

/-! ## Pins and frames -/

/-- One line of the pin byte written, every other bit unchanged (R21). -/
def setPin (pins : Byte) (pin : Fin 8) (level : Bool) : Byte := setBit pins pin.val level

/-- The level of one line in a frame or a sample (R81). -/
def pinLevel (x : Byte) (pin : Fin 8) : Bool := x.getLsbD pin.val

/-- The session idle value of `PINS`: `CSN`, `RESET` and `PROG` 1, every other bit 0 (R40, R237). -/
def idlePins (p : Params) : Byte :=
  setPin (setPin (setPin 0#8 p.pinCsn true) p.pinReset true) p.pinProg true

/-- The three frames of program-mode entry (R237): `PROG` asserted on idle pins, `RESET` low, `RESET` high. -/
def entryFrames (p : Params) : List Byte :=
  [idlePins p, setPin (idlePins p) p.pinReset false, setPin (setPin (idlePins p) p.pinReset false) p.pinReset true]

/-- Frame `A` of a bit cell: the data bit set up, the clock as it was, low (R240). -/
def cellSetup (p : Params) (pins : Byte) (v : Bool) : Byte := setPin pins p.pinMosi v

/-- Frame `B`, and `H` where there is one: the clock raised (R240). -/
def cellHigh (p : Params) (pins : Byte) (v : Bool) : Byte := setPin (cellSetup p pins v) p.pinSck true

/-- Frame `C`, the pins after the cell: the clock lowered (R240). -/
def cellLow (p : Params) (pins : Byte) (v : Bool) : Byte := setPin (cellHigh p pins v) p.pinSck false

/-- The frames of one bit (R240). -/
def bitCell (p : Params) (pins : Byte) (v : Bool) : List Byte :=
  cellSetup p pins v :: cellHigh p pins v ::
    (if p.hold then [cellHigh p pins v, cellLow p pins v] else [cellLow p pins v])

/-- The frames of a sequence of bits, each cell starting from the pins the one before left. -/
def bitFrames (p : Params) : Byte → List Bool → List Byte
  | _, [] => []
  | pins, v :: vs => bitCell p pins v ++ bitFrames p (cellLow p pins v) vs

/-- `PINS` after a sequence of bits. -/
def pinsAfterBits (p : Params) (pins : Byte) (bits : List Bool) : Byte :=
  bits.foldl (cellLow p) pins

/-- One phase of a transfer: the frames its write phase hands to the bridge, and how many payload bytes its read phase
recovers from as many samples; 0 for a control frame, whose sample is discarded (R243). -/
structure Phase where
  frames : List Byte
  count : Nat
  deriving DecidableEq, Repr

/-- The chunks of a buffer: `k` bytes each, the last one the rest (R242). The first argument bounds the number of chunks. -/
def chunksOf (k : Nat) : Nat → List Byte → List (List Byte)
  | 0, _ => []
  | _ + 1, [] => []
  | n + 1, b :: bs => (b :: bs).take k :: chunksOf k n ((b :: bs).drop k)

/-- The phases of the chunks, from the pins the leading frame left. -/
def chunkPhases (p : Params) : Byte → List (List Byte) → List Phase
  | _, [] => []
  | pins, c :: cs =>
    { frames := bitFrames p pins (bufferBits c), count := c.length } ::
      chunkPhases p (pinsAfterBits p pins (bufferBits c)) cs

/-- `PINS` while the chip is selected, before the first bit (R243). -/
def selectedPins (p : Params) (pins : Byte) : Byte := setPin pins p.pinCsn false

/-- `PINS` after a whole logical transfer of `m` (R243, R247). -/
def pinsAfterTransfer (p : Params) (pins : Byte) (m : List Byte) : Byte :=
  setPin (pinsAfterBits p (selectedPins p pins) (bufferBits m)) p.pinCsn true

/-- The phases of one logical transfer (R239, R243): the leading chip-select frame, the chunks, the trailing frame. -/
def transferPhases (p : Params) (pins : Byte) (m : List Byte) : List Phase :=
  { frames := [selectedPins p pins], count := 0 } ::
    (chunkPhases p (selectedPins p pins) (chunksOf p.chunkBytes m.length m) ++
      [{ frames := [pinsAfterTransfer p pins m], count := 0 }])

/-- The frame trace of one logical transfer (R95). -/
def transferFrames (p : Params) (pins : Byte) (m : List Byte) : List Byte :=
  (transferPhases p pins m).flatMap Phase.frames

/-! ## The bridge and the target's pins -/

/-- What the frame level carries along: the levels the bridge drives, the samples in its FIFO, and the target's shift
position (R33, R34). -/
structure Lines where
  levels : Byte
  fifo : List Byte
  bits : List Bool
  pos : Nat
  deriving DecidableEq, Repr

/-- The target's reaction to the pins taking the levels of frame `f` (R240, R241): a falling chip-select starts a command;
a rising clock shifts `MOSI` in; a falling clock moves on to the next response bit. With `CSN` high nothing happens. -/
def targetReact (p : Params) (l : Lines) (f : Byte) : Lines :=
  if pinLevel f p.pinCsn then { l with levels := f }
  else if pinLevel l.levels p.pinCsn then { l with levels := f, bits := [], pos := 0 }
  else if !pinLevel l.levels p.pinSck && pinLevel f p.pinSck then
    { l with levels := f, bits := l.bits ++ [pinLevel f p.pinMosi] }
  else if pinLevel l.levels p.pinSck && !pinLevel f p.pinSck then { l with levels := f, pos := l.pos + 1 }
  else { l with levels := f }

/-- The sample of the pins as they are: the driven levels, with the level the target drives at the `MISO` position. The
response bits are given in wire order (R241, R248). -/
def sampleOf (p : Params) (response : List Bool) (l : Lines) : Byte :=
  setPin l.levels p.pinMiso (response.getD l.pos false)

/-- The bridge drives one frame and captures one sample: before driving with `SAMPLE_LAG = 1`, after with 0 (R248). -/
def driveFrame (p : Params) (response : List Bool) (l : Lines) (f : Byte) : Lines :=
  { targetReact p l f with
    fifo := l.fifo ++ [sampleOf p response (if p.sampleLag then l else targetReact p l f)] }

/-- A write phase (R242). -/
def driveFrames (p : Params) (response : List Bool) (l : Lines) (fs : List Byte) : Lines :=
  fs.foldl (driveFrame p response) l

/-- The index, among the samples of a chunk, of the one that shows the pins after frame `B` of bit `t` (counted from the
most significant) of byte `j` (R239, R241). -/
def sampleIndex (p : Params) (j t : Nat) : Nat :=
  (j * 8 + t) * p.framesPerBit + 1 + (if p.sampleLag then 1 else 0)

/-- The byte the block reads out of a chunk's samples: byte `j`, most significant bit first (R239, R241). -/
def sampledByte (p : Params) (samples : List Byte) (j : Nat) : Byte :=
  byteOfBits ((List.range 8).map (fun t => pinLevel (samples.getD (sampleIndex p j t) 0#8) p.pinMiso))

/-- One phase: write, then read as many samples as frames were written; the bytes recovered go behind the ones recovered
before (R239). -/
def runPhase (p : Params) (response : List Bool) (a : Lines × List Byte) (ph : Phase) : Lines × List Byte :=
  let l := driveFrames p response a.1 ph.frames
  let samples := l.fifo.take ph.frames.length
  ({ l with fifo := l.fifo.drop ph.frames.length }, a.2 ++ (List.range ph.count).map (sampledByte p samples))

/-- The phases of a transfer in order: the lines after them and the bytes the block recovered. -/
def runPhases (p : Params) (response : List Bool) (l : Lines) (phs : List Phase) : Lines × List Byte :=
  phs.foldl (runPhase p response) (l, [])

end Sys2Proof.Machine
end

