-- ==== Sys2Proof/Machine/Transfer.lean ====
section
/-! DEFINITION. The transport: one logical transfer through the bit-banged frames or the emulator (R239, R244, R249), what
the target does with the bytes it received (R140), what a transport error leaves behind (R246, R277), and the session
operations `begin` and `end` (R236 to R238). -/

namespace Sys2Proof.Machine

/-! ## The target's end of a transfer -/

/-- The refusal for bytes that are no command (R156, R157). -/
def wireRefusal : WireError → Refusal
  | .unknownOpcode => .unknownOpcode
  | .malformedLength => .malformedLength

/-- A command has arrived: the observation of R158. -/
def State.arrive (s : State) (op : Byte) : State := { s with received := op :: s.received }

/-- What the target does with the bytes `m` of one chip-select assertion (R140): no byte is no command and changes nothing
(R157); else it decodes the command and executes it. -/
def receive (m : List Byte) (s : State) : Host.Outcome State Fault Refusal :=
  match m with
  | [] => .next { s with resp := [] }
  | op :: rest =>
    match decodeWire (op :: rest) with
    | .ok i => exec i (s.arrive op)
    | .error e => .refused (wireRefusal e)

/-- The flash after a mass erase was in flight (R151, R277): each byte it addresses erased or not, by a draw. -/
def State.massCut (s : State) : State :=
  { s with
    main := Memory.eraseSome s.main 0 Config.flashSize s.draws
    info :=
      if fsrInfen s.fsr && s.params.eraseAllHitsInfo then
        Memory.eraseSome s.info 0 Config.infoSize (s.draws + Config.flashSize)
      else s.info }

/-- The flash after the command `i` was in flight when the transport failed (R277): the bytes it addresses are draws
between old and new, for `PROGRAM` any `old & x`; without `WEN` it addresses none. The bytes of an address range are those
the selected region has. -/
def cutFlash (i : Instr) (s : State) : State :=
  if fsrWen s.fsr = false then s
  else
    match i with
    | .program addr data =>
      (s.setRegion (Memory.andRange s.region addr.toNat
        (s.freeBytes (min data.length (s.regionSize - addr.toNat))))).spend data.length
    | .erasePage page =>
      if page.toNat < s.pageCount then
        (s.setRegion (Memory.eraseSome s.region (pageBase page.toNat) Config.pageSize s.draws)).spend Config.pageSize
      else s
    | .eraseAll => s.massCut.spend (Config.flashSize + Config.infoSize)
    | .wren => s
    | .wrdis => s
    | .wrsr _ => s
    | .read _ _ => s
    | .rdsr _ => s
    | .rdfpcr _ => s
    | .cmdRdismb => s
    | .cmdEndebug => s
    | .hexData _ _ _ => s
    | .hexEof _ _ _ => s

/-- The command that the bytes of one chip-select assertion are, where the spec gives it semantics (R154, R156, R157). -/
def knownCommand (m : List Byte) : Option Instr :=
  match decodeWire m with
  | .ok i => if i = .cmdEndebug then none else some i
  | .error _ => none

/-- The target after bytes without semantics were clocked and the transport failed. Which FSR bits they could write and which
flash bytes they address is unknown (R154, R156, R157), so the bound of R277 leaves all of them open: any FSR, and any flash
that R61 lets a command make of the old one (log entry 13). -/
def State.scrambled (s : State) : State :=
  { s with
    fsr := s.freeByte (Config.flashSize + Config.infoSize)
    main := Memory.scrambled s.main Config.flashSize (s.freeBytes Config.flashSize) s.draws
    info := Memory.scrambled s.info Config.infoSize ((s.spend Config.flashSize).freeBytes Config.infoSize)
      (s.draws + Config.flashSize)
    draws := s.draws + (Config.flashSize + Config.infoSize + 1) }

/-- The FSR and the flash after the bytes `m` were in flight (R277): each bit their command could write and each byte it
addresses is a draw between old and new. Bytes without semantics that were `clocked`, in part at least, leave everything
open; where no clock has come they do nothing. -/
def cutCommand (m : List Byte) (clocked : Bool) (s : State) : State :=
  match knownCommand m with
  | some i => ((cutFlash i s).setFsr (statusCut i s.fsr ((cutFlash i s).freeByte 0))).spend 1
  | none => if clocked && decide (m ≠ []) then s.scrambled else s

/-- Whether a command that was in flight counts among those received (R158) is a draw (log entry 13). -/
def State.maybeArrive (s : State) (m : List Byte) : State :=
  { s with received := (if s.freeBit 0 then m.take 1 else []) ++ s.received, draws := s.draws + 1 }

/-- What the target drives while the bytes `m` are in flight: the response of their command; draws where the spec gives the
target none (R143). -/
def State.answering (s : State) (m : List Byte) : State :=
  match receive m s with
  | .next t => { s with resp := t.resp, draws := t.draws }
  | .fault _ => s.reply (s.freeBytes m.length) m.length
  | .refused _ => s.reply (s.freeBytes m.length) m.length

/-- The target after the transport failed with the bytes `m` in flight. -/
def cutShort (m : List Byte) (clocked : Bool) (s : State) : State := (cutCommand m clocked (s.answering m)).maybeArrive m

/-- How far a failing transfer had come with the target, as far as its outcome depends on it. -/
inductive Reached where
  /-- The leading chip-select frame's own phase failed: no clock has come. -/
  | selected
  /-- Bits of the command were handed to the bridge, and chip-select was not released. -/
  | clocked
  /-- The frame that releases chip-select was accepted, and its sample did not come back. -/
  | released
  deriving DecidableEq, Repr

/-- The target's side of a failing transfer of `m`, in time order (R281). A command is what lies between the falling and the
rising edge of `CSN` (R82, R140): while `CSN` has not been released (R246) the target has received no command, so nothing is
refused and the phase's error is the outcome whatever `m` is. Once it has been released the command was received, and one
to which the spec gives no meaning is refused (R279, log entry 13). -/
def interrupted (m : List Byte) (reached : Reached) (s : State) : Host.Outcome State Fault Refusal :=
  match reached with
  | .selected => .next (cutShort m false s)
  | .clocked => .next (cutShort m true s)
  | .released => andThen (receive m s) fun _ => .next (cutShort m true s)

/-! ## One logical transfer -/

/-- The environment's choice for the step at hand is spent. -/
def State.spendEnv (s : State) : State := { s with env := s.env.tail }

/-- The phase that fails among `n` phases, with whether it is its write phase; `none` where none of them does. -/
def failingPhase (env : List EnvChoice) (n : Nat) : Option (Nat × Bool) :=
  match env with
  | .fail j write :: _ => if j < n then some (j, write) else none
  | _ => none

/-- How far a transfer of `n` phases had come when its phase `j` failed (R243, R246): the first phase is the leading
chip-select frame's, the last one the trailing frame's, which is driven before its sample is missed. -/
def reachedAt (n j : Nat) (write : Bool) : Reached :=
  if j = 0 then .selected
  else if j + 1 = n ∧ write = false then .released
  else .clocked

/-- The phases a transfer comes to: all, or those up to the one that fails (R246). -/
def begunPhases (env : List EnvChoice) (phs : List Phase) : List Phase :=
  match failingPhase env phs.length with
  | none => phs
  | some (j, _) => phs.take (j + 1)

/-- The frame level's view of the state before a transfer. -/
def State.lines (s : State) : Lines where
  levels := s.pins
  fifo := s.fifo
  bits := s.shiftIn
  pos := s.shiftPos

/-- The frame level's result written back: `PINS` is the last frame built. -/
def State.setLines (s : State) (l : Lines) : State :=
  { s with pins := l.levels, fifo := l.fifo, shiftIn := l.bits, shiftPos := l.pos }

/-- A completed transfer: the lines as the trailing frame left them and every byte of the buffer overwritten (R239). -/
def State.transferred (s : State) (trace : List Byte) (r : Lines × List Byte) : State :=
  { (s.setLines r.1).spendEnv with buffer := r.2, frames := trace }

/-- The caller's buffer after a failed transfer of a buffer that now holds `wire` (R245, R277): `transfer_scattered`, whose
buffer rule is then still to come, leaves the buffer it was given as it was; `transfer`'s own buffer is the one sent. -/
def callersBuffer (tasks : List Task) (wire : List Byte) : List Byte :=
  match tasks with
  | .payload _ buffer :: _ => buffer
  | _ => wire

/-- What is unknown after a transport error (R277, R321): the samples in the bridge's FIFO, and how far into the command the
target is: free values (log entry 12). -/
def State.transportUnknown (s : State) : State :=
  { s with
    lost := true, fifo := (Config.freeSamples s.draws).take s.params.fifoCap, shiftIn := Config.freeShift s.draws,
    shiftPos := Config.freeCount s.draws, draws := s.draws + 1 }

/-- A failed transfer of `m` (R246, R277): `PINS` holds the last frame built, the bytes recovered by the completed phases
stand in the buffer before the rest as sent, and the transport's state is unknown. -/
def State.transferFailed (s : State) (trace recovered : List Byte) (lastFrame : Byte) (m : List Byte) : State :=
  { s.transportUnknown.spendEnv with
    pins := lastFrame, buffer := callersBuffer s.tasks (recovered ++ m.drop recovered.length), frames := trace }

/-- The last frame of a phase. -/
def lastFrameOf (phs : List Phase) (j : Nat) (pins : Byte) : Byte :=
  ((phs.getD j { frames := [], count := 0 }).frames).getLastD pins

/-- The write phases fit the bridge's FIFO (R33, R242). -/
def phasesFit (s : State) (phs : List Phase) : Bool :=
  phs.all (fun ph => decide (s.fifo.length + ph.frames.length ≤ s.params.fifoCap))

/-- The bytes the target assembles from the frames of the phases (R244). What it shifts in does not depend on what it
drives, so the response is left out. -/
def deliveredBytes (p : Params) (l : Lines) (phs : List Phase) : List Byte :=
  bytesOfBits (runPhases p [] l phs).1.bits

/-- `transfer` over the bit-banged driver (R239): the target executes what the frames deliver, and the block reads back what
the samples show. -/
def bitbangTransfer (m : List Byte) (s : State) : Host.Outcome State Fault Refusal :=
  if s.params.wf = false then .fault .badParameters
  else
    let phs := transferPhases s.params s.pins m
    if phasesFit s (begunPhases s.env phs) = false then .refused .fifoOverflow
    else
      let heard := deliveredBytes s.params s.lines phs
      match failingPhase s.env phs.length with
      | none =>
        andThen (receive heard s) fun t =>
          .next (t.transferred (phs.flatMap Phase.frames) (runPhases s.params (bufferBits t.resp) s.lines phs))
      | some (j, write) =>
        andThen (interrupted heard (reachedAt phs.length j write) s) fun t =>
          .next ((t.transferFailed ((phs.take (j + 1)).flatMap Phase.frames)
            (runPhases s.params (bufferBits t.resp) s.lines (phs.take j)).2 (lastFrameOf phs j s.pins) m).raise
              (phaseError write))

/-- A failed transfer of `m` over the emulator (R249): it has no chunks and no pins. That every byte of the buffer stays as
sent is the model's choice (log entry 24): the spec allows the error and says nothing of the buffer. -/
def State.emulatorFailed (s : State) (m : List Byte) : State :=
  { s.spendEnv with buffer := callersBuffer s.tasks m, frames := [], lost := true }

/-- `transfer` over the in-memory emulator (R249): the response of R140 directly, no frame, `PINS` not used. It can raise
the transport errors too: `WriteFailed` before the command is received, `ReadFailed` after (log entry 24). -/
def emulatorTransfer (m : List Byte) (s : State) : Host.Outcome State Fault Refusal :=
  match s.env with
  | .fail _ write :: _ =>
    andThen (interrupted m (if write then .selected else .released) s) fun t => .next ((t.emulatorFailed m).raise (phaseError write))
  | _ => andThen (receive m s) fun t => .next { t.spendEnv with buffer := t.resp, frames := [] }

/-- `transfer(m)` (R239): refused with the link closed; after a transport error only `end` and `begin` have a meaning
(R273). -/
def transferStep (m : List Byte) (s : State) : Host.Outcome State Fault Refusal :=
  if s.linkOpen = false then .refused .linkClosed
  else if s.lost then .refused .transportStateUnknown
  else
    match s.params.backend with
    | .bitbang => bitbangTransfer m s
    | .emulator => emulatorTransfer m s

/-- `transfer_scattered` up to its transfer (R245): the two admitted opcodes, an address that can be encoded, and header and
payload as one logical transfer. -/
def scatteredStep (op : Byte) (address : Nat) (buffer : List Byte) (s : State) :
    Host.Outcome State Fault Refusal :=
  if op ≠ 0x03#8 ∧ op ≠ 0x02#8 then .refused .scatteredOpcode
  else if 65536 ≤ address then .refused .addressTooWide
  else
    let m := op :: addressHi (BitVec.ofNat 16 address) :: addressLo (BitVec.ofNat 16 address) :: buffer
    .next { s with tasks := .xfer m :: .payload op buffer :: s.tasks }

/-- The buffer rule of `transfer_scattered` (R245): the payload of the response for `READ`, the caller's buffer as it was
for `PROGRAM`. -/
def payloadStep (op : Byte) (buffer : List Byte) (s : State) : State :=
  { s with buffer := if op = 0x03#8 then s.buffer.drop 3 else buffer }

/-! ## Session operations -/

/-- The link is open and program-mode entry has been driven (R236, R237): the target has been reset, `PINS` is the value
given. `T.PROGMODE <- 1` follows the settle wait, a task of its own. -/
def State.entered (s : State) (trace : List Byte) (pins : Byte) : State :=
  { s.targetReset.spendEnv with
    linkOpen := true, lost := false, pins := pins, frames := trace, fifo := [], tasks := .settle :: s.tasks }

/-- Program-mode entry cut short by a transport error (R236, R246, R277): `LINK_OPEN` stays 1, `PINS` is the last frame
built, the target may or may not have been reset and have entered program mode, the transport's state is unknown. -/
def State.entryFailed (s : State) (trace : List Byte) (pins : Byte) : State :=
  { s.targetReset.transportUnknown.spendEnv with
    linkOpen := true, pins := pins, frames := trace, progmode := s.progmode || s.freeBit 3, draws := s.draws + 4 }

/-- The phases of program-mode entry: three one-frame phases (R237). -/
def entryPhases (p : Params) : List Phase :=
  (entryFrames p).map (fun f => { frames := [f], count := 0 })

/-- `begin` over the bit-banged driver, the bridge opened (R236, R237). -/
def bitbangEntry (s : State) : Host.Outcome State Fault Refusal :=
  if s.params.wf = false then .fault .badParameters
  else
    let phs := entryPhases s.params
    match failingPhase s.env phs.length with
    | none =>
      .next (s.entered (entryFrames s.params) (runPhases s.params [] { levels := s.pins, fifo := [], bits := [], pos := 0 } phs).1.levels)
    | some (j, write) => .next ((s.entryFailed ((entryFrames s.params).take (j + 1)) (lastFrameOf phs j s.pins)).raise (phaseError write))

/-- `begin(bus, port)` (R236, R249): nothing on an open link; `OpenFailed` where the bridge cannot be opened. -/
def openStep (_bus _port : Nat) (s : State) : Host.Outcome State Fault Refusal :=
  if s.linkOpen then .next s
  else
    match s.env with
    | .noOpen :: _ => .next (s.spendEnv.raise (.transport .openFailed))
    | _ =>
      match s.params.backend with
      | .bitbang => bitbangEntry s
      | .emulator => .next (s.entered [] s.pins)

/-- The end of the settle wait: the target is in program mode (R32, R237). -/
def settleStep (s : State) : State := { s with progmode := true }

/-- `end()` (R238): the link closed, no frame; `PINS` unspecified and `T.PROGMODE` unconstrained from then on. The emulator
does not use `PINS` (R249). -/
def closeStep (s : State) : State :=
  if s.linkOpen then
    { s with
      linkOpen := false
      lost := false
      pins := if s.params.backend = .bitbang then s.freeByte 0 else s.pins
      progmode := s.freeBit 1
      draws := s.draws + 2 }
  else s

end Sys2Proof.Machine
end

