-- ==== Sys2Proof/Machine/Controller.lean ====
section
/-! DEFINITION. FSRCTL (spec/42_fsr_controller.md): its operations as tasks over the transfer, the operations of the
operation port (R14), and one step of the operation in progress. -/

namespace Sys2Proof.Machine

/-- The wire bytes of `RDSR` with the fill byte 0x00 (R172). -/
def rdsrBytes : List Byte := [0x05#8, 0x00#8]

/-- The FSR value last read: `r[1]` of the `RDSR` exchange before (R172). -/
def State.status (s : State) : Byte := s.buffer.getD 1 0#8

/-- `enable_write_latch` after its first read (R173): `WREN` and a second read only where `WEN` is unset. -/
def latchTestStep (s : State) : State :=
  if fsrWen s.status then s else s.push [.xfer [0x06#8], .xfer rdsrBytes, .latchCheck]

/-- `enable_write_latch` after its second read (R173). -/
def latchCheckStep (s : State) : State :=
  if fsrWen s.status then s else s.raise (.protocol .writeLatchFailed)

/-- `set_info_page(want)` after its first read (R174): `WRSR` with the bit flipped only where it differs. -/
def infoTestStep (want : Bool) (s : State) : State :=
  if fsrInfen s.status = want then s
  else s.push [.xfer [0x01#8, flipInfen s.status], .xfer rdsrBytes, .infoCheck (fsrInfen s.status)]

/-- `set_info_page` after its second read (R174): the bit must have changed. -/
def infoCheckStep (before : Bool) (s : State) : State :=
  if fsrInfen s.status = before then s.raise (.protocol .infoPageToggleFailed) else s

/-- The polls so far have reached `READY_POLL_LIMIT` (R175). -/
def pollLimitReached (limit : Option Nat) (polls : Nat) : Bool :=
  match limit with
  | none => false
  | some n => decide (n ≤ polls)

/-- `wait_ready` after a poll (R175): ready, or one poll more, or `Timeout`. -/
def readyTestStep (polls : Nat) (s : State) : State :=
  if fsrRdyn s.status = false then s
  else if pollLimitReached s.params.readyPollLimit (polls + 1) then s.raise (.protocol .timeout)
  else s.push [.waitReady (polls + 1)]

/-- `check_unlocked` after its read (R177). -/
def unlockedTestStep (s : State) : State :=
  if fsrRdismb s.status then s.raise (.protocol .deviceLocked) else s

/-- `flash_read` (R181): the gate where it is asked for, then one `READ` with `count` fill bytes 0x00. -/
def readFlashStep (address count : Nat) (gate : Bool) (s : State) : State :=
  s.push ((if gate then [.checkUnlocked] else []) ++ [.scattered 0x03#8 address (List.replicate count 0x00#8)])

/-- `decode_line` (R111, R123): one line is consumed; the record that its steps S1 to S5 find is executed. -/
def decodeLineStep (line dest : List Byte) (clamp : Clamp) (s : State) : Host.Outcome State Fault Refusal :=
  let called := { s with dest := dest, clamp := clamp, cursor := s.cursor + 1 }
  match decodeHex dest.length line with
  | .ok i => exec i called
  | .error e => .next (called.raise (.decode e))

/-- What an operation returns (R13). -/
def returnValue (how : Returns) (s : State) : Value :=
  match how with
  | .unit => .unit
  | .count => .count s.buffer.length
  | .status => .status s.status
  | .locked => .flag (fsrRdismb s.status)
  | .bytes => .bytes s.buffer

/-- One step of the operation in progress; `s` no longer holds the task. -/
def runTask (t : Task) (s : State) : Host.Outcome State Fault Refusal :=
  match t with
  | .openLink bus port => openStep bus port s
  | .settle => .next (settleStep s)
  | .closeLink => .next (closeStep s)
  | .xfer m => transferStep m s
  | .scattered op address buffer => scatteredStep op address buffer s
  | .payload op buffer => .next (payloadStep op buffer s)
  | .decodeLine line dest clamp => decodeLineStep line dest clamp s
  | .latch => .next (s.push [.xfer rdsrBytes, .latchTest])
  | .latchTest => .next (latchTestStep s)
  | .latchCheck => .next (latchCheckStep s)
  | .infoPage want => .next (s.push [.xfer rdsrBytes, .infoTest want])
  | .infoTest want => .next (infoTestStep want s)
  | .infoCheck before => .next (infoCheckStep before s)
  | .waitReady polls => .next (s.push [.xfer rdsrBytes, .readyTest polls])
  | .readyTest polls => .next (readyTestStep polls s)
  | .checkUnlocked => .next (s.push [.xfer rdsrBytes, .unlockedTest])
  | .unlockedTest => .next (unlockedTestStep s)
  | .erasePage page => .next (s.push [.latch, .xfer [0x52#8, page], .waitReady 0])
  | .eraseAll => .next (s.push [.latch, .xfer [0x62#8], .waitReady 0])
  | .program address data => .next (s.push [.latch, .scattered 0x02#8 address data, .waitReady 0])
  | .readFlash address count gate => .next (readFlashStep address count gate s)
  | .lock => .next (s.push [.latch, .xfer [0x85#8], .waitReady 0])
  | .planFile lines placement => planStep lines placement s
  | .smartRead plan page target backup isInfo => .next (smartReadStep plan page target backup isInfo s)
  | .smartDecide plan page target backup isInfo => .next (smartDecideStep plan page target backup isInfo s)
  | .smartBackup contents => .next (smartBackupStep contents s)
  | .smartVerify merged => .next (smartVerifyStep merged s)
  | .imagePages pages backup => .next (imagePagesStep pages backup s)
  | .discardPlan page => .next (discardPlanStep page s)
  | .infoConfig offset config backup => .next (infoConfigStep offset config backup s)
  | .ret how => .next (s.finish (returnValue how s))

/-- The steps of an operation of the operation port. `decode_line` hands back its own result; `end` has none (R238). -/
def Op.tasks : Op → List Task
  | .begin bus port => [.openLink bus port, .ret .unit]
  | .close => [.closeLink, .ret .unit]
  | .transfer buffer => [.xfer buffer, .ret .count]
  | .transferScattered op address buffer => [.scattered op address buffer, .ret .count]
  | .decodeLine line dest clamp => [.decodeLine line dest clamp]
  | .readFsr => [.xfer rdsrBytes, .ret .status]
  | .enableWriteLatch => [.latch, .ret .unit]
  | .enableInfoPage => [.infoPage true, .ret .unit]
  | .disableInfoPage => [.infoPage false, .ret .unit]
  | .waitReady => [.waitReady 0, .ret .unit]
  | .isLocked => [.xfer rdsrBytes, .ret .locked]
  | .checkUnlocked => [.checkUnlocked, .ret .unit]
  | .flashErasePage page => [.erasePage page, .ret .unit]
  | .flashEraseAll => [.eraseAll, .ret .unit]
  | .flashProgram address data => [.program address data, .ret .unit]
  | .flashRead address count gate => [.readFlash address count gate, .ret .bytes]
  | .flashLock => [.lock, .ret .unit]
  | .planFile lines placement => [.planFile lines placement, .ret .unit]
  | .writePageSmart plan page target backup isInfo => [.smartRead plan page target backup isInfo, .ret .unit]
  | .writeImage backup => [.imagePages (List.range Config.pagesCnt) backup, .ret .unit]
  | .writeInfoConfig offset config backup => [.infoConfig offset config backup, .ret .unit]

/-- The block's own turn: the next task of the operation in progress; with none, the host's next operation; with none of
these either, nothing happens (R282, R301). -/
def blockStep (s : State) : Host.Outcome State Fault Refusal :=
  match s.tasks with
  | t :: ts => runTask t { s with tasks := ts }
  | [] =>
    match s.requests with
    | op :: ops => .next { s with requests := ops, tasks := op.tasks }
    | [] => .next s

/-- Whose turn it is (R3, R286): the target takes its ready step where the environment says so (R155), else the block moves. -/
def systemStep (s : State) : Host.Outcome State Fault Refusal :=
  match s.env with
  | .ready :: _ => .next s.spendEnv.readyStep
  | _ => blockStep s

/-- The state in which the very next step runs the wire command `m`: an open session, the pins idle, the target in program
mode, and the transfer of `m` at hand (R301, R304). -/
def State.withCommand (s : State) (m : List Byte) : State :=
  { s with
    linkOpen := true, lost := false, progmode := true, pins := idlePins s.params, fifo := [], env := [],
    tasks := [.xfer m] }

/-- The state in which the very next step decodes and executes the HEX line, with room for any record. -/
def State.withLine (s : State) (line : List Byte) : State :=
  { s with tasks := [.decodeLine line (List.replicate Config.hexMaxPayload 0#8) none], env := [] }

/-- A word of spec/opcode_table.json placed where the next step fetches. -/
def State.withTableWord (s : State) (nbits w : Nat) : State :=
  match tableWire nbits w with
  | some m => s.withCommand m
  | none => s.withLine (tableLine w)

end Sys2Proof.Machine
end

