-- ==== Sys2Proof/Machine/Step.lean ====
section
/-! DEFINITION. One step of the whole system, and the placing of one instruction where the next step runs it. -/

namespace Sys2Proof.Machine

/-- One step: the target's ready step, one step of the operation in progress, or the host's next operation. A wire command
is one step (one logical transfer, R239), and so is one HEX line. -/
def step (s : State) : Host.Outcome State Fault Refusal := systemStep s

/-- `s` with the instruction of one table word where `step` fetches its next one (log entry 6). -/
def State.withFetchWord (s : State) (nbits w : Nat) : State := s.withTableWord nbits w

end Sys2Proof.Machine
end

