-- ==== Sys2Proof/Machine/Runs.lean ====
section
/-! DEFINITION. The infinite runs of the machine and the weak fairness of the target's ready step, which R12 and R155 make
part of the model: the assumption that stands for the "guaranteed-bounded" erase and program latency. -/

namespace Sys2Proof.Machine

/-- One step with `c` as the environment's choice for it (R39). -/
def envStep (c : EnvChoice) (s : State) : Host.Outcome State Fault Refusal := step { s with env := [c] }

/-- An infinite run: at every step the environment makes a choice, the ready step only while the target is busy (R155), and
the machine goes on. -/
def InfiniteRun (states : Nat → State) (choices : Nat → EnvChoice) : Prop :=
  ∀ k, (choices k = .ready → fsrRdyn (states k).fsr = true) ∧
    envStep (choices k) (states k) = .next (states (k + 1))

/-- Weak fairness of the ready step (R155): where the target is busy from some point on, the ready step is taken after that
point. -/
def WeaklyFair (states : Nat → State) (choices : Nat → EnvChoice) : Prop :=
  ∀ n, (∀ k, n ≤ k → fsrRdyn (states k).fsr = true) → ∃ k, n ≤ k ∧ choices k = .ready

/-- The infinite runs of the model (R12, R155). A run in which a busy target is left busy for ever, such as that of an empty
`State.env`, is none of them. -/
def FairRun (states : Nat → State) (choices : Nat → EnvChoice) : Prop :=
  InfiniteRun states choices ∧ WeaklyFair states choices

end Sys2Proof.Machine
end

