-- ==== Sys2Proof/Safety.lean ====
section
/-! DEFINITION. What the claims mean by a good state: the pins between two transfers, the flash regions' canonical form, and
the invariant every step keeps. -/

namespace Sys2Proof.Machine

/-- The five output lines have their between-transfers levels (R247): the clock low, the chip not selected, `RESET` and
`PROG` high. -/
def betweenTransfers (p : Params) (pins : Byte) : Prop :=
  pinLevel pins p.pinSck = false ∧ pinLevel pins p.pinCsn = true ∧
    pinLevel pins p.pinReset = true ∧ pinLevel pins p.pinProg = true

/-- Inside a session whose transport is intact, the bit-banged driver's pins are between transfers and the bridge's FIFO is
empty (R33, R247, R274). -/
def sessionPinsIdle (s : State) : Prop :=
  s.params.backend = .bitbang → s.linkOpen = true → s.lost = false →
    betweenTransfers s.params s.pins ∧ s.fifo = []

/-- Both flash regions are in canonical form and inside their address ranges (R50). -/
def flashWf (s : State) : Prop :=
  Memory.wf Config.flashSize s.main = true ∧ Memory.wf Config.infoSize s.info = true

/-- The invariant of the model: canonical flash, and idle pins between transfers. -/
def Good (s : State) : Prop := flashWf s ∧ sessionPinsIdle s

/-- A transfer can take place: the link open, the transport intact, parameters R8 admits, pins between transfers, the FIFO
empty, and no failing phase chosen by the environment. -/
def transferReady (s : State) : Prop :=
  s.linkOpen = true ∧ s.lost = false ∧ s.params.admitted = true ∧
    betweenTransfers s.params s.pins ∧ s.fifo = [] ∧ s.env = []

/-- `k` steps of the machine, stopping at the first stop. -/
def runSteps : Nat → State → Host.Outcome State Fault Refusal
  | 0, s => .next s
  | k + 1, s => andThen (step s) (runSteps k)

/-! ## What a wire command leaves alone -/

/-- Everything outside the target is the same: the parameters, the block, the bridge, the pins' shift position, the host's
side and the environment. -/
def sameOutsideTarget (s t : State) : Prop :=
  t.params = s.params ∧ t.pins = s.pins ∧ t.frames = s.frames ∧ t.linkOpen = s.linkOpen ∧ t.fifo = s.fifo ∧ t.lost = s.lost ∧
    t.shiftIn = s.shiftIn ∧ t.shiftPos = s.shiftPos ∧ t.received = s.received ∧ t.requests = s.requests ∧
    t.tasks = s.tasks ∧ t.buffer = s.buffer ∧ t.dest = s.dest ∧ t.clamp = s.clamp ∧ t.cursor = s.cursor ∧
    t.outcome = s.outcome ∧ t.plans = s.plans ∧ t.image = s.image ∧ t.backups = s.backups ∧ t.env = s.env

/-- What no wire command changes: everything outside the target, `T.FPCR` and `T.PROGMODE`. -/
def commandFrame (s t : State) : Prop :=
  sameOutsideTarget s t ∧ t.fpcr = s.fpcr ∧ t.progmode = s.progmode

/-- Every byte of main flash reads as before. -/
def sameMain (s t : State) : Prop := ∀ a, Memory.read t.main a = Memory.read s.main a

/-- Every byte of the info page reads as before. -/
def sameInfo (s t : State) : Prop := ∀ a, Memory.read t.info a = Memory.read s.info a

/-- Every byte of flash reads as before. -/
def sameFlash (s t : State) : Prop := sameMain s t ∧ sameInfo s t

/-- The region `FSR.INFEN` does not select reads as before. -/
def sameOtherRegion (s t : State) : Prop :=
  (fsrInfen s.fsr = true → sameMain s t) ∧ (fsrInfen s.fsr = false → sameInfo s t)

/-- Every FSR bit but the listed ones is as before. -/
def statusKeptBut (changed : List Nat) (s t : State) : Prop :=
  ∀ j, j < 8 → j ∉ changed → t.fsr.getLsbD j = s.fsr.getLsbD j

/-- The gates of a wire command other than `RDSR` are open: program mode and ready (R141, R142). -/
def acceptsCommand (s : State) : Prop := s.progmode = true ∧ fsrRdyn s.fsr = false

/-! ## Runs of a page plan -/

/-- Offset `o` of the page is pending: some run covers it (R205). -/
def pending (runs : List Nat) (o : Nat) : Prop := ∃ i, i ≤ o ∧ o < i + runAt runs i

/-- The precondition of R203: no two runs overlap and none leaves the page. -/
def runsDisjoint (runs : List Nat) : Prop :=
  ∀ i, runAt runs i ≠ 0 →
    i + runAt runs i ≤ runs.length ∧ ∀ k, i < k → runAt runs k ≠ 0 → i + runAt runs i ≤ k

end Sys2Proof.Machine
end

