-- ==== Sys2Proof/Certificates/Slice0/Obligations.lean ====
section
/-! DEFINITION. The statements for the provers. Each one's docstring names the rule it formalises; OBLIGATIONS.json lists
them with titles, tiers and quotes. -/

open Sys2Proof Sys2Proof.Machine

/-! ## Encodings -/

/-- Decode and encode agree on every wire command, every operand at every value (R83, R84, R89). -/
def Obligations.WireEncodingRoundTrip : Prop :=
  ∀ i : Instr, i.isWire = true → i.wellFormed = true → decodeWire (encode i) = .ok i

/-- Decode and encode agree on every HEX record, whatever follows the line's checksum (R90 to R94). -/
def Obligations.HexLineRoundTrip : Prop :=
  ∀ (i : Instr) (cap : Nat) (tail : List Byte), i.isWire = false → i.wellFormed = true → Config.hexMaxPayload ≤ cap →
    decodeHex cap (encode i ++ tail) = .ok i

/-- Each sequence of wire bytes is at most one command, and that command's encoding is the bytes themselves (R82, R89). -/
def Obligations.WireBytesHaveOneMeaning : Prop :=
  ∀ (m : List Byte) (i : Instr), decodeWire m = .ok i → i.isWire = true ∧ i.wellFormed = true ∧ encode i = m

/-- A few of the spec's own words decode to the commands they stand for (R83, R84; V50 to V62). -/
def Obligations.SpecWordsDecode : Prop :=
  decodeWire [0x06#8] = .ok .wren ∧ decodeWire [0x01#8, 0x08#8] = .ok (.wrsr 0x08#8) ∧
    decodeWire [0x02#8, 0x06#8, 0x00#8, 0xDE#8, 0xAD#8] = .ok (.program 0x0600#16 [0xDE#8, 0xAD#8]) ∧
    decodeWire [0x03#8, 0x00#8, 0x0B#8, 0x00#8] = .ok (.read 0x000B#16 [0x00#8]) ∧
    decodeWire [0x52#8, 0x03#8] = .ok (.erasePage 0x03#8) ∧ decodeWire [0x9F#8] = .error .unknownOpcode ∧
    decodeWire [0x06#8, 0x00#8] = .error .malformedLength ∧ decodeWire [0x05#8] = .error .malformedLength

/-! ## HEXDEC -/

/-- R126: re-encoding the record of an accepted line gives the line's own checksum byte. -/
def Obligations.DecodedRecordReencodesItsChecksum : Prop :=
  ∀ (cap : Nat) (line : List Byte) (a : Half) (d : List Byte) (k : Byte),
    (decodeHex cap line = .ok (.hexData a d k) → k = recordChecksum a 0 d) ∧
      (decodeHex cap line = .ok (.hexEof a d k) → k = recordChecksum a 1 d)

/-- R121: on every line that passes each test before the checksum's, in either letter case (R124 (c)), a sum that is not 0
modulo 256 fails with `ChecksumMismatch`; and on every error of `decode_line`, the destination is as the caller gave it
and nothing else of the system has changed but the call's own bookkeeping (R123, R272; that bookkeeping in State is the
model's choice, log entry 16). -/
def Obligations.DecodeErrorsLeaveDestination : Prop :=
  (∀ (rest dest bytes : List Byte) (cc ah al tt : Byte) (clamp : Clamp) (s : State),
    hexBytes (rest.take 8) = some [cc, ah, al, tt] → cc.toNat ≤ dest.length → 11 + 2 * cc.toNat ≤ rest.length + 1 →
    hexBytes ((rest.drop 8).take (2 * cc.toNat + 2)) = some bytes →
    (cc.toNat + ah.toNat + al.toNat + tt.toNat + (bytes.map BitVec.toNat).sum) % 256 ≠ 0 →
      ∃ t, decodeLineStep (startCode :: rest) dest clamp s = .next t ∧
        t.outcome = some (.error (.decode .checksumMismatch)) ∧ t.dest = dest) ∧
  (∀ (line dest : List Byte) (clamp : Clamp) (s t : State) (e : OpError),
    decodeLineStep line dest clamp s = .next t → t.outcome = some (.error e) →
      (∃ e', e = .decode e') ∧ t.dest = dest ∧
        t = { s with dest := dest, clamp := clamp, cursor := s.cursor + 1, tasks := [], outcome := some (.error e) })

/-- R112: a line that does not begin with the colon, an empty line among them. -/
def Obligations.LineWithoutColonIsMalformed : Prop :=
  ∀ (cap : Nat) (line : List Byte), line.head? ≠ some startCode → decodeHex cap line = .error .malformedLine

/-- The order of the tests S2 to S6 of R111 on a line that begins with the colon, in either letter case: each test's error
is given where every test before it has passed and it fails. The cases exclude each other and leave no line out: where all
have passed, the record type decides. -/
def Obligations.HexTestsInOrder : Prop :=
  ∀ (cap : Nat) (rest : List Byte),
    (rest.length + 1 < 9 → decodeHex cap (startCode :: rest) = .error .truncatedLine) ∧
    (9 ≤ rest.length + 1 → (∃ c ∈ rest.take 8, hexVal c = none) →
      decodeHex cap (startCode :: rest) = .error .malformedLine) ∧
    (∀ cc ah al tt : Byte, hexBytes (rest.take 8) = some [cc, ah, al, tt] →
      (cap < cc.toNat → decodeHex cap (startCode :: rest) = .error .bufferTooSmall) ∧
      (cc.toNat ≤ cap → rest.length + 1 < 11 + 2 * cc.toNat →
        decodeHex cap (startCode :: rest) = .error .truncatedLine) ∧
      (cc.toNat ≤ cap → 11 + 2 * cc.toNat ≤ rest.length + 1 →
        (∃ c ∈ (rest.drop 8).take (2 * cc.toNat + 2), hexVal c = none) →
        decodeHex cap (startCode :: rest) = .error .malformedLine) ∧
      (∀ bytes : List Byte, cc.toNat ≤ cap → 11 + 2 * cc.toNat ≤ rest.length + 1 →
        hexBytes ((rest.drop 8).take (2 * cc.toNat + 2)) = some bytes →
        ((cc.toNat + ah.toNat + al.toNat + tt.toNat + (bytes.map BitVec.toNat).sum) % 256 ≠ 0 →
          decodeHex cap (startCode :: rest) = .error .checksumMismatch) ∧
        ((cc.toNat + ah.toNat + al.toNat + tt.toNat + (bytes.map BitVec.toNat).sum) % 256 = 0 →
          (tt = 0x00#8 → decodeHex cap (startCode :: rest) =
            .ok (.hexData (addressOf ah al) (bytes.take cc.toNat) (bytes.getD cc.toNat 0#8))) ∧
          (tt = 0x01#8 → decodeHex cap (startCode :: rest) =
            .ok (.hexEof (addressOf ah al) (bytes.take cc.toNat) (bytes.getD cc.toNat 0#8))) ∧
          (2 ≤ tt.toNat → decodeHex cap (startCode :: rest) = .error .unsupportedRecordType))))

/-- R119: a record type from 0x02 on, everything before it in order. -/
def Obligations.UnsupportedRecordTypeFails : Prop :=
  ∀ (cap : Nat) (a : Half) (type : Byte) (d : List Byte) (k : Byte) (tail : List Byte),
    d.length ≤ Config.hexMaxPayload → d.length ≤ cap → 2 ≤ type.toNat → checksumOk a type.toNat d k = true →
      decodeHex cap (encodeLine a type d k ++ tail) = .error .unsupportedRecordType

/-- R117: a data record completes: the payload stands at the destination's start, the rest of the destination is unchanged,
the record is the result, and nothing else changes. -/
def Obligations.HexDataStoresPayload : Prop :=
  ∀ (a : Half) (d : List Byte) (k : Byte) (s : State),
    d.length ≤ s.dest.length → checksumOk a 0 d k = true → clampExceeded s.clamp a d.length = false →
      ∃ t, exec (.hexData a d k) s = .next t ∧
        t.dest.length = s.dest.length ∧ (∀ j, j < d.length → t.dest.getD j 0#8 = d.getD j 0#8) ∧
        (∀ j, d.length ≤ j → t.dest.getD j 0#8 = s.dest.getD j 0#8) ∧
        t.outcome = some (.ok (.record (hexRecord a .data d k))) ∧
        t = { s with dest := t.dest, outcome := t.outcome }

/-- R118: an end-of-file record completes whatever its count and address; the destination is not written and the clamp is
not looked at. -/
def Obligations.HexEofTerminates : Prop :=
  ∀ (a : Half) (d : List Byte) (k : Byte) (s : State),
    d.length ≤ s.dest.length → checksumOk a 1 d k = true →
      exec (.hexEof a d k) s = .next { s with outcome := some (.ok (.record (hexRecord a .endOfFile d k))) }

/-- R122: with a clamp, a data record fails exactly where it would reach past the maximum size, and is then not stored; one
that ends at the maximum is stored. -/
def Obligations.ClampRejectsOverrun : Prop :=
  ∀ (a : Half) (d : List Byte) (k : Byte) (offset maxSize : Nat) (s : State),
    s.clamp = some (offset, maxSize) → d.length ≤ s.dest.length → checksumOk a 0 d k = true →
      (maxSize < a.toNat + offset + d.length →
        exec (.hexData a d k) s = .next { s with tasks := [], outcome := some (.error (.decode .bufferTooSmall)) }) ∧
      (a.toNat + offset + d.length ≤ maxSize →
        exec (.hexData a d k) s = .next { s with
          dest := d ++ s.dest.drop d.length, outcome := some (.ok (.record (hexRecord a .data d k))) })

/-! ## Wire commands -/

/-- R144: `WREN` completes on a ready target and sets `WEN` and nothing else. -/
def Obligations.WrenSetsLatch : Prop :=
  ∀ s, acceptsCommand s →
    ∃ t, exec .wren s = .next t ∧ fsrWen t.fsr = true ∧ statusKeptBut [5] s t ∧ t.resp.length = 1 ∧
      commandFrame s t ∧ sameFlash s t

/-- R145: `WRDIS` completes on a ready target and clears `WEN` and nothing else. -/
def Obligations.WrdisClearsLatch : Prop :=
  ∀ s, acceptsCommand s →
    ∃ t, exec .wrdis s = .next t ∧ fsrWen t.fsr = false ∧ statusKeptBut [5] s t ∧ t.resp.length = 1 ∧
      commandFrame s t ∧ sameFlash s t

/-- R146: `RDSR` completes in program mode, busy or not: the second response byte is the FSR but for bits 1 and 0, of which
nothing is said, and no state of the target changes. -/
def Obligations.RdsrReadsStatus : Prop :=
  ∀ (fill : Byte) (s : State), s.progmode = true →
    ∃ t, exec (.rdsr fill) s = .next t ∧ t.resp.length = 2 ∧
      (∀ j, 2 ≤ j → j < 8 → (t.resp.getD 1 0#8).getLsbD j = s.fsr.getLsbD j) ∧
      t.fsr = s.fsr ∧ commandFrame s t ∧ sameFlash s t

/-- R147: `WRSR` completes on a ready target, whatever `WEN` is: `INFEN` is the operand's bit 3, `RDYN` is kept, every other
bit is kept or taken from the operand. -/
def Obligations.WrsrWritesInfen : Prop :=
  ∀ (v : Byte) (s : State), acceptsCommand s →
    ∃ t, exec (.wrsr v) s = .next t ∧ fsrInfen t.fsr = v.getLsbD 3 ∧ fsrRdyn t.fsr = fsrRdyn s.fsr ∧
      (∀ j, j < 8 → t.fsr.getLsbD j = s.fsr.getLsbD j ∨ t.fsr.getLsbD j = v.getLsbD j) ∧
      t.resp.length = 2 ∧ commandFrame s t ∧ sameFlash s t

/-- R148: `READ` inside the selected region completes; from the info page or unlocked main flash it answers the region's
bytes in order, from locked main flash as many bytes of which nothing is said; no state of the target changes. -/
def Obligations.ReadAnswersRegion : Prop :=
  ∀ (addr : Half) (fill : List Byte) (s : State), acceptsCommand s → addr.toNat + fill.length ≤ s.regionSize →
    ∃ t, exec (.read addr fill) s = .next t ∧ t.resp.length = 3 + fill.length ∧
      ((fsrInfen s.fsr = true ∨ fsrRdismb s.fsr = false) →
        ∀ i, i < fill.length → t.resp.getD (3 + i) 0#8 = Memory.read s.region (addr.toNat + i)) ∧
      t.fsr = s.fsr ∧ commandFrame s t ∧ sameFlash s t

/-- R149: an honoured `PROGRAM` of at least one byte completes: each addressed byte is the old one ANDed with its data byte,
every other byte of both regions reads as before; `RDYN` is either, `WEN` is kept or cleared, the other bits are kept. -/
def Obligations.ProgramAndsBytes : Prop :=
  ∀ (addr : Half) (data : List Byte) (s : State), acceptsCommand s → flashWf s → fsrWen s.fsr = true → data ≠ [] →
    addr.toNat + data.length ≤ s.regionSize → addr.toNat / 512 = (addr.toNat + data.length - 1) / 512 →
      ∃ t, exec (.program addr data) s = .next t ∧
        (∀ i, i < data.length →
          Memory.read t.region (addr.toNat + i) = Memory.read s.region (addr.toNat + i) &&& data.getD i 0#8) ∧
        (∀ a, a < addr.toNat ∨ addr.toNat + data.length ≤ a → Memory.read t.region a = Memory.read s.region a) ∧
        sameOtherRegion s t ∧ statusKeptBut [4, 5] s t ∧ t.resp.length = 3 + data.length ∧ commandFrame s t

/-- R150: an honoured `ERASE_PAGE` of a page the selected region has completes: its 512 bytes read 0xFF, every other byte of
both regions reads as before; of the FSR only `RDYN` and `WEN` may change. -/
def Obligations.ErasePageSetsBytes : Prop :=
  ∀ (page : Byte) (s : State), acceptsCommand s → fsrWen s.fsr = true →
    page.toNat < (if fsrInfen s.fsr then 1 else 32) →
      ∃ t, exec (.erasePage page) s = .next t ∧
        (∀ a, 512 * page.toNat ≤ a → a < 512 * page.toNat + 512 → Memory.read t.region a = 0xFF#8) ∧
        (∀ a, a < 512 * page.toNat ∨ 512 * page.toNat + 512 ≤ a → Memory.read t.region a = Memory.read s.region a) ∧
        sameOtherRegion s t ∧ statusKeptBut [4, 5] s t ∧ t.resp.length = 2 ∧ commandFrame s t

/-- R151: an honoured `ERASE_ALL` completes: all of main flash reads 0xFF; the info page reads 0xFF where `INFEN` is 1 and
the parameter says so, else as before; `RDISMB` and `WEN` are kept or cleared, `RDYN` is either, the other bits are kept. -/
def Obligations.EraseAllSetsMain : Prop :=
  ∀ s, acceptsCommand s → fsrWen s.fsr = true →
    ∃ t, exec .eraseAll s = .next t ∧
      (∀ a, a < 16384 → Memory.read t.main a = 0xFF#8) ∧
      ((fsrInfen s.fsr && s.params.eraseAllHitsInfo) = true → ∀ a, a < 512 → Memory.read t.info a = 0xFF#8) ∧
      ((fsrInfen s.fsr && s.params.eraseAllHitsInfo) = false → sameInfo s t) ∧
      (fsrRdismb t.fsr = true → fsrRdismb s.fsr = true) ∧ statusKeptBut [2, 4, 5] s t ∧
      t.resp.length = 1 ∧ commandFrame s t

/-- R152: an honoured `CMD_RDISMB` completes and sets `RDISMB`; of the other bits only `RDYN` and `WEN` may change. -/
def Obligations.LockCommandSetsRdismb : Prop :=
  ∀ s, acceptsCommand s → fsrWen s.fsr = true →
    ∃ t, exec .cmdRdismb s = .next t ∧ fsrRdismb t.fsr = true ∧ statusKeptBut [2, 4, 5] s t ∧ t.resp.length = 1 ∧
      commandFrame s t ∧ sameFlash s t

/-- R153: `RDFPCR` completes on a ready target: its second response byte is `T.FPCR`; no state is written. -/
def Obligations.RdfpcrReadsFpcr : Prop :=
  ∀ (fill : Byte) (s : State), acceptsCommand s →
    ∃ t, exec (.rdfpcr fill) s = .next t ∧ t.resp.length = 2 ∧ t.resp.getD 1 0#8 = s.fpcr ∧ t.fsr = s.fsr ∧
      commandFrame s t ∧ sameFlash s t

/-- R154: `CMD_ENDEBUG` is refused in every state, as the rule itself prescribes (log entry 15). -/
def Obligations.EndebugIsRefused : Prop :=
  ∀ s, exec .cmdEndebug s = .refused .debugCommandWithoutMeaning

/-- R62, R305: a mutating command with `WEN` clear completes and changes no flash byte and no FSR bit; and an empty
`PROGRAM` inside the region does so even with `WEN` set (R149). -/
def Obligations.UnlatchedCommandIsIgnored : Prop :=
  ∀ (i : Instr) (s : State), acceptsCommand s →
    (((∃ a d, i = .program a d) ∨ (∃ p, i = .erasePage p) ∨ i = .eraseAll ∨ i = .cmdRdismb) ∧ fsrWen s.fsr = false ∨
      (∃ a : Half, i = .program a [] ∧ a.toNat ≤ s.regionSize)) →
      ∃ t, exec i s = .next t ∧ t.fsr = s.fsr ∧ t.resp.length = i.encodedLength ∧ commandFrame s t ∧ sameFlash s t

/-- R141: outside program mode every wire command is refused, each but `CMD_ENDEBUG` for that reason. That `CMD_ENDEBUG`
keeps its own reason is the model's choice (log entry 15). -/
def Obligations.OutsideProgramModeIsRefused : Prop :=
  ∀ (i : Instr) (s : State), i.isWire = true → s.progmode = false →
    ∃ r, exec i s = .refused r ∧ (i ≠ .cmdEndebug → r = .notInProgramMode)

/-- R142: while the target is busy every wire command but `RDSR` is refused, and `RDSR` completes. -/
def Obligations.BusyTargetAnswersOnlyRdsr : Prop :=
  ∀ (i : Instr) (s : State), i.isWire = true → s.progmode = true → fsrRdyn s.fsr = true →
    ((∃ x, i = .rdsr x) → ∃ t, exec i s = .next t) ∧
      ((∀ x, i ≠ .rdsr x) → ∃ r, exec i s = .refused r ∧ (i ≠ .cmdEndebug → r = .targetBusy))

/-- R60: an access past the selected region, a program across a page boundary and a page the region does not have are
refused, each by its name. -/
def Obligations.OutOfBoundsIsRefused : Prop :=
  ∀ s, acceptsCommand s →
    (∀ (addr : Half) (fill : List Byte), s.regionSize < addr.toNat + fill.length →
      exec (.read addr fill) s = .refused .outsideRegion) ∧
    (fsrWen s.fsr = true → ∀ (addr : Half) (data : List Byte),
      (s.regionSize < addr.toNat + data.length → exec (.program addr data) s = .refused .outsideRegion) ∧
      (addr.toNat + data.length ≤ s.regionSize → data ≠ [] →
        addr.toNat / 512 ≠ (addr.toNat + data.length - 1) / 512 →
        exec (.program addr data) s = .refused .acrossPages)) ∧
    (fsrWen s.fsr = true → ∀ page : Byte, (if fsrInfen s.fsr then 1 else 32) ≤ page.toNat →
      exec (.erasePage page) s = .refused .pageIndexOutOfRange)

/-- R62: with `WEN` clear no instruction changes a flash byte or makes the target busy. -/
def Obligations.ClosedLatchProtectsFlash : Prop :=
  ∀ (i : Instr) (s t : State), fsrWen s.fsr = false → exec i s = .next t →
    sameFlash s t ∧ fsrRdyn t.fsr = fsrRdyn s.fsr

/-- R313: no instruction but `WRSR` changes `INFEN`. -/
def Obligations.OnlyWrsrChangesInfen : Prop :=
  ∀ (i : Instr) (s t : State), (∀ v, i ≠ .wrsr v) → exec i s = .next t → fsrInfen t.fsr = fsrInfen s.fsr

/-- R155: when the environment lets the target take its ready step, a busy target becomes ready, its latch kept or
cleared, every other bit kept; a ready one is unchanged; nothing else moves but the environment's choice and the count
of draws. When it happens is the environment's choice in `State.env` (log entry 7); and in no run that is weakly fair (R12,
R155) does a target stay busy for ever. -/
def Obligations.ReadyStepEndsBusy : Prop :=
  (∀ (s : State) (es : List EnvChoice), s.env = .ready :: es →
    ∃ t, step s = .next t ∧ t = { s with env := es, fsr := t.fsr, draws := t.draws } ∧
      (fsrRdyn s.fsr = true → fsrRdyn t.fsr = false ∧ (fsrWen t.fsr = true → fsrWen s.fsr = true) ∧
        statusKeptBut [4, 5] s t) ∧
      (fsrRdyn s.fsr = false → t.fsr = s.fsr)) ∧
  (∀ (states : Nat → State) (choices : Nat → EnvChoice), FairRun states choices →
    ∀ n, ∃ k, n ≤ k ∧ fsrRdyn (states k).fsr = false)

/-! ## SPISEQ -/

/-- R244: with admitted pins and chunks, from between-transfers pins and an empty FIFO, a transfer makes the target receive
exactly the bytes `m`, and the block reads back exactly the bytes the target drives, whatever the parameters are. -/
def Obligations.FrameLevelDeliversWireLevel : Prop :=
  ∀ (p : Params) (l : Lines) (m r : List Byte), p.wf = true → betweenTransfers p l.levels → l.fifo = [] →
    r.length = m.length →
      deliveredBytes p l (transferPhases p l.levels m) = m ∧
        (runPhases p (bufferBits r) l (transferPhases p l.levels m)).2 = r

/-- R243: the envelope of a logical transfer: the leading frame with `CSN` and `SCK` 0 and `MOSI` as it was, the bits' frames
all with `CSN` 0, the trailing frame with `CSN` 1, `SCK` 0 and `MOSI` at the last bit sent; the two control frames phases of
their own; no frame moves another line (R247); `2 + 8 * FPB * n` frames in all. -/
def Obligations.ChipSelectEnvelope : Prop :=
  ∀ (p : Params) (pins : Byte) (m : List Byte), p.wf = true → betweenTransfers p pins →
    ∃ lead trail body, transferFrames p pins m = lead :: (body ++ [trail]) ∧
      (transferPhases p pins m).head? = some { frames := [lead], count := 0 } ∧
      (transferPhases p pins m).getLast? = some { frames := [trail], count := 0 } ∧
      pinLevel lead p.pinCsn = false ∧ pinLevel lead p.pinSck = false ∧
      pinLevel lead p.pinMosi = pinLevel pins p.pinMosi ∧
      (∀ f ∈ body, pinLevel f p.pinCsn = false) ∧
      pinLevel trail p.pinCsn = true ∧ pinLevel trail p.pinSck = false ∧
      pinLevel trail p.pinMosi = (bufferBits m).getLastD (pinLevel pins p.pinMosi) ∧
      (∀ f ∈ transferFrames p pins m, ∀ a : Fin 8, a ≠ p.pinSck → a ≠ p.pinMosi → a ≠ p.pinCsn →
        pinLevel f a = pinLevel pins a) ∧
      (transferFrames p pins m).length = 2 + 8 * p.framesPerBit * m.length

/-- R240, R318: between two consecutive frames of a transfer, a rising clock is the only change, and `MOSI` changes only
while the clock is low in both. -/
def Obligations.DataIsSetUpBeforeClock : Prop :=
  ∀ (p : Params) (pins : Byte) (m : List Byte) (k : Nat) (f g : Byte), p.wf = true → betweenTransfers p pins →
    (pins :: transferFrames p pins m)[k]? = some f → (pins :: transferFrames p pins m)[k + 1]? = some g →
      (pinLevel f p.pinSck = false → pinLevel g p.pinSck = true → g = setPin f p.pinSck true) ∧
        (pinLevel f p.pinMosi ≠ pinLevel g p.pinMosi → pinLevel f p.pinSck = false ∧ pinLevel g p.pinSck = false)

/-- R242: the chunks are the buffer cut in order, each of at most `CHUNK_BYTES` bytes and all but the last of exactly so
many, and with the parameters of R8 no write phase is longer than the FIFO. -/
def Obligations.ChunksFitFifo : Prop :=
  ∀ (p : Params) (pins : Byte) (m : List Byte), p.admitted = true →
    (chunksOf p.chunkBytes m.length m).flatten = m ∧
      (∀ c ∈ chunksOf p.chunkBytes m.length m, c.length ≤ p.chunkBytes) ∧
      (∀ c ∈ (chunksOf p.chunkBytes m.length m).dropLast, c.length = p.chunkBytes) ∧
      (∀ ph ∈ transferPhases p pins m, ph.frames.length ≤ p.fifoCap)

/-- A STEP RUNS THE DECODED INSTRUCTION (R140, R239): with a transfer of `m` at hand and nothing in its way, the step is
the meaning of the command `m` is, the transfer's pins and shift position around it, and the target's response in the
buffer; and it stops as the meaning stops. That one step is one whole transfer is the model's choice (log entry 8). -/
def Obligations.StepRunsDecodedCommand : Prop :=
  ∀ (s : State) (m : List Byte) (ts : List Task) (i : Instr), transferReady s → s.params.backend = .bitbang →
    s.tasks = .xfer m :: ts → decodeWire m = .ok i →
      (∀ t, exec i { s with tasks := ts, received := m.getD 0 0#8 :: s.received } = .next t →
        step s = .next { t with
          pins := pinsAfterTransfer s.params s.pins m, buffer := t.resp, fifo := [],
          shiftIn := bufferBits m, shiftPos := 8 * m.length, frames := transferFrames s.params s.pins m }) ∧
      (∀ r, exec i { s with tasks := ts, received := m.getD 0 0#8 :: s.received } = .refused r →
        step s = .refused r)

/-- A STEP RUNS THE DECODED INSTRUCTION, for a HEX line (R111, R123): the step is the meaning of the record the line is,
on the call's destination and clamp, one line consumed; a line that is no record fails with its error. That the call's
operands stand in State is the model's choice (log entry 16). -/
def Obligations.StepRunsDecodedLine : Prop :=
  ∀ (s : State) (line dest : List Byte) (clamp : Clamp) (ts : List Task), s.env.head? ≠ some .ready →
    s.tasks = .decodeLine line dest clamp :: ts →
      (∀ i, decodeHex dest.length line = .ok i →
        step s = exec i { s with tasks := ts, dest := dest, clamp := clamp, cursor := s.cursor + 1 }) ∧
      (∀ e, decodeHex dest.length line = .error e →
        step s = .next { s with
          tasks := [], dest := dest, clamp := clamp, cursor := s.cursor + 1, outcome := some (.error (.decode e)) })

/-- R235, R249: the two transports have the same wire-level meaning: where a transfer can take place, the bit-banged driver
and the emulator refuse alike, and where they go on they leave the same state but for the pins, the shift position and the
frame trace. -/
def Obligations.TransportsAgreeAtWireLevel : Prop :=
  ∀ (s : State) (m : List Byte), transferReady s →
    (∀ r, bitbangTransfer m s = .refused r ↔ emulatorTransfer m s = .refused r) ∧
      (∀ u, emulatorTransfer m s = .next u →
        bitbangTransfer m s = .next { u with
          pins := pinsAfterTransfer s.params s.pins m, shiftIn := bufferBits m, shiftPos := 8 * m.length,
          frames := transferFrames s.params s.pins m }) ∧
      (∀ t, bitbangTransfer m s = .next t → ∃ u, emulatorTransfer m s = .next u)

/-- R236, R237: `begin` on a closed link that opens: the three frames of program-mode entry, then the settle wait; then the
link is open, the pins are idle, the FIFO is empty, the target is in program mode, and no flash byte has changed. -/
def Obligations.BeginEntersProgramMode : Prop :=
  ∀ (s : State) (bus port : Nat) (ts : List Task), s.linkOpen = false → s.env = [] → s.params.backend = .bitbang →
    s.params.wf = true → s.tasks = .openLink bus port :: ts →
      entryFrames s.params = [idlePins s.params, setPin (idlePins s.params) s.params.pinReset false, idlePins s.params] ∧
        ∃ t, runSteps 2 s = .next t ∧ t.linkOpen = true ∧ t.lost = false ∧ t.pins = idlePins s.params ∧
          betweenTransfers s.params t.pins ∧ t.fifo = [] ∧ t.frames = entryFrames s.params ∧ t.progmode = true ∧ t.tasks = ts ∧ t.params = s.params ∧
          sameFlash s t

/-- R236: `begin` on an open link does nothing; on a bridge that cannot be opened it fails with `OpenFailed` and the
link stays closed. Whether the bridge opens stands in `State.env` (log entry 7). -/
def Obligations.BeginWithoutEffect : Prop :=
  ∀ (s : State) (bus port : Nat),
    (s.linkOpen = true → openStep bus port s = .next s) ∧
      (s.linkOpen = false → ∀ es, s.env = .noOpen :: es →
        openStep bus port s =
          .next { s with env := es, tasks := [], outcome := some (.error (.transport .openFailed)) })

/-- R238: `end` closes the link, touches neither flash nor FSR nor FIFO, and does nothing on a closed link; of `PINS` and
`T.PROGMODE` afterwards nothing is said. -/
def Obligations.EndClosesLink : Prop :=
  ∀ (s : State),
    (s.linkOpen = false → closeStep s = s) ∧
      (s.linkOpen = true → (closeStep s).linkOpen = false ∧
        closeStep s = { s with
          linkOpen := false, lost := false, pins := (closeStep s).pins, progmode := (closeStep s).progmode,
          draws := (closeStep s).draws })

/-- R239, R273, R304: no transfer with the link closed, and none after a transport error. That the second stops as a
refusal is the model's reading of R273 (log entry 12). -/
def Obligations.TransferNeedsIntactLink : Prop :=
  ∀ (s : State) (m : List Byte),
    (s.linkOpen = false → transferStep m s = .refused .linkClosed) ∧
      (s.linkOpen = true → s.lost = true → transferStep m s = .refused .transportStateUnknown)

/-- R245, R85: `transfer_scattered` admits two opcodes and 16-bit addresses, sends header and payload as one transfer, and
refuses the rest. -/
def Obligations.ScatteredHeader : Prop :=
  ∀ (op : Byte) (address : Nat) (buffer : List Byte) (s : State),
    (op = 0x03#8 ∨ op = 0x02#8 → address < 65536 →
      ∃ hi lo : Byte, address = 256 * hi.toNat + lo.toNat ∧
        scatteredStep op address buffer s =
          .next { s with tasks := .xfer (op :: hi :: lo :: buffer) :: .payload op buffer :: s.tasks }) ∧
      (op = 0x03#8 ∨ op = 0x02#8 → 65536 ≤ address → scatteredStep op address buffer s = .refused .addressTooWide) ∧
      (op ≠ 0x03#8 → op ≠ 0x02#8 → scatteredStep op address buffer s = .refused .scatteredOpcode)

/-- R246, R277, R279, R281: a phase that fails. As long as chip-select is not released (every phase but the trailing frame's,
and that one's write phase) the phase's error is the transfer's outcome, whatever the bytes are and whatever the target
would do with the whole of them. Where the trailing frame was driven and its sample did not come back, a command to which
the target gives no meaning is refused, and for every other one the phase's error is the outcome. That a refusal waits for
the release of chip-select is read from R82 and R140 (log entry 13). And what the failing phase of a bit-banged `PROGRAM`
or `ERASE_PAGE` leaves: the operation ends with the phase's error, the link stays open, the transport is lost (log entry
12), `PINS` holds the last frame built; of the FSR only `RDYN` may change and `WEN` be cleared; flash bytes outside the
command's range are unchanged, each byte inside is some `old & x` after a `PROGRAM`, the old one or 0xFF after an
`ERASE_PAGE`; with `WEN` clear neither FSR nor flash changes; the buffer holds the rest as sent behind the bytes of the
completed chunks, and the one given to `transfer_scattered` is as it was. Which phase fails stands in `State.env`, and
what was in flight is bounded as log entry 13 says. -/
def Obligations.TransportErrorAftermath : Prop :=
  (∀ (s : State) (m : List Byte) (j : Nat) (write : Bool) (es : List EnvChoice), s.params.admitted = true →
    betweenTransfers s.params s.pins → s.fifo = [] → s.env = .fail j write :: es →
    j < (transferPhases s.params s.pins m).length →
      (j + 1 = (transferPhases s.params s.pins m).length → write = false →
        ∀ r, receive m s = .refused r → bitbangTransfer m s = .refused r) ∧
      ((j + 1 < (transferPhases s.params s.pins m).length ∨ write = true ∨ ∃ u, receive m s = .next u) →
        ∃ t, bitbangTransfer m s = .next t ∧ t.outcome = some (.error (phaseError write)) ∧ t.tasks = [])) ∧
  (∀ (s t : State) (m : List Byte) (i : Instr) (j : Nat) (write : Bool) (es : List EnvChoice) (base n : Nat),
    flashWf s → betweenTransfers s.params s.pins → s.fifo = [] → s.env = .fail j write :: es →
    j < (transferPhases s.params s.pins m).length → decodeWire m = .ok i →
    ((∃ addr d, i = .program addr d ∧ base = addr.toNat ∧ n = d.length) ∨
      (∃ page, i = .erasePage page ∧ base = 512 * page.toNat ∧ n = 512)) →
    bitbangTransfer m s = .next t →
      t.outcome = some (.error (phaseError write)) ∧ t.tasks = [] ∧ t.lost = true ∧ t.linkOpen = s.linkOpen ∧
        t.env = es ∧ t.pins = lastFrameOf (transferPhases s.params s.pins m) j s.pins ∧
        t.frames = ((transferPhases s.params s.pins m).take (j + 1)).flatMap Phase.frames ∧
        statusKeptBut [4, 5] s t ∧ (fsrWen t.fsr = true → fsrWen s.fsr = true) ∧ sameOtherRegion s t ∧
        (fsrWen s.fsr = false → t.fsr = s.fsr ∧ sameFlash s t) ∧
        (∀ a, a < base ∨ base + n ≤ a → Memory.read t.region a = Memory.read s.region a) ∧
        ((∃ addr d, i = .program addr d) → ∀ a, Memory.read t.region a &&& ~~~(Memory.read s.region a) = 0#8) ∧
        ((∃ page, i = .erasePage page) →
          ∀ a, Memory.read t.region a = Memory.read s.region a ∨ Memory.read t.region a = 0xFF#8) ∧
        (∀ op b ts, s.tasks = .payload op b :: ts → t.buffer = b) ∧
        ((∀ op b ts, s.tasks ≠ .payload op b :: ts) → t.buffer.length = m.length ∧
          ∀ k, (((transferPhases s.params s.pins m).take j).map Phase.count).sum ≤ k →
            t.buffer.getD k 0#8 = m.getD k 0#8))

/-! ## FSRCTL and errors -/

/-- R276, R274: a step that raises a protocol error ends every operation in progress and changes nothing else. The premise
on the outcome before says that it is this step that raises the error. -/
def Obligations.ProtocolErrorChangesNothingElse : Prop :=
  ∀ (task : Task) (s t : State) (e : ProtocolError), s.outcome ≠ some (.error (.protocol e)) →
    runTask task s = .next t → t.outcome = some (.error (.protocol e)) →
      t = { s with tasks := [], outcome := some (.error (.protocol e)) }

/-- R184: whatever step of an operation runs, a transfer it adds carries one of the opcodes FSRCTL issues: never `WRDIS`,
`RDFPCR`, `CMD_ENDEBUG` or an unknown opcode. -/
def Obligations.ControllerOpcodes : Prop :=
  ∀ (task : Task) (s t : State) (m : List Byte), runTask task s = .next t → Task.xfer m ∈ t.tasks →
    Task.xfer m ∈ s.tasks ∨
      ∃ op rest, m = op :: rest ∧
        op ∈ [0x01#8, 0x02#8, 0x03#8, 0x05#8, 0x06#8, 0x52#8, 0x62#8, 0x85#8]

/-- R173: `enable_write_latch` on a ready target with an intact link: with `WEN` set, one `RDSR` and nothing more; with
`WEN` clear, `RDSR`, `WREN`, `RDSR`, after which `WEN` is set; no error, no flash byte changed, and ready for the next
transfer. -/
def Obligations.EnableWriteLatchSetsWen : Prop :=
  ∀ (s : State) (ts : List Task), transferReady s → s.params.backend = .bitbang → acceptsCommand s →
    s.tasks = .latch :: ts →
      (fsrWen s.fsr = true →
        ∃ t, runSteps 3 s = .next t ∧ t.tasks = ts ∧ t.fsr = s.fsr ∧ t.received = 0x05#8 :: s.received ∧
          t.outcome = s.outcome ∧ transferReady t ∧ sameFlash s t) ∧
      (fsrWen s.fsr = false →
        ∃ t, runSteps 6 s = .next t ∧ t.tasks = ts ∧ fsrWen t.fsr = true ∧ statusKeptBut [5] s t ∧
          t.received = 0x05#8 :: 0x06#8 :: 0x05#8 :: s.received ∧ t.outcome = s.outcome ∧ transferReady t ∧
          sameFlash s t)

/-- R174: `enable_info_page` and `disable_info_page` on a ready target with an intact link: one `RDSR` where the bit is as
wanted; else `RDSR`, `WRSR`, `RDSR`, after which the bit is as wanted and the other bits are as before but for what `WRSR`
may take of bits 1 and 0 as they were read. -/
def Obligations.SetInfoPageTogglesInfen : Prop :=
  ∀ (s : State) (want : Bool) (ts : List Task), transferReady s → s.params.backend = .bitbang → acceptsCommand s →
    s.tasks = .infoPage want :: ts →
      (fsrInfen s.fsr = want →
        ∃ t, runSteps 3 s = .next t ∧ t.tasks = ts ∧ t.fsr = s.fsr ∧ t.received = 0x05#8 :: s.received ∧
          t.outcome = s.outcome ∧ transferReady t ∧ sameFlash s t) ∧
      (fsrInfen s.fsr ≠ want →
        ∃ t, runSteps 6 s = .next t ∧ t.tasks = ts ∧ fsrInfen t.fsr = want ∧ statusKeptBut [0, 1, 3] s t ∧
          t.received = 0x05#8 :: 0x01#8 :: 0x05#8 :: s.received ∧ t.outcome = s.outcome ∧ transferReady t ∧
          sameFlash s t)

/-- R175, R275: `wait_ready` on a ready target costs exactly one `RDSR` and returns; on a target that stays busy it gives up
with `Timeout` after exactly `READY_POLL_LIMIT` polls. That the target stays busy is the empty list of the environment's
choices in `transferReady` (log entry 7). -/
def Obligations.WaitReadyPolls : Prop :=
  ∀ (s : State) (ts : List Task), transferReady s → s.params.backend = .bitbang → s.progmode = true →
    s.tasks = .waitReady 0 :: ts →
      (fsrRdyn s.fsr = false →
        ∃ t, runSteps 3 s = .next t ∧ t.tasks = ts ∧ t.fsr = s.fsr ∧ t.received = 0x05#8 :: s.received ∧
          t.outcome = s.outcome ∧ transferReady t ∧ sameFlash s t) ∧
      (∀ n : Nat, fsrRdyn s.fsr = true → s.params.readyPollLimit = some (n + 1) →
        ∃ t, runSteps (3 * (n + 1)) s = .next t ∧ t.tasks = [] ∧ t.outcome = some (.error (.protocol .timeout)) ∧
          t.received = List.replicate (n + 1) 0x05#8 ++ s.received ∧ t.fsr = s.fsr ∧ transferReady t ∧ sameFlash s t)

/-- R177, R181: a gated `flash_read` of a locked target fails with `DeviceLocked` after one `RDSR`, no `READ` sent; of an
unlocked one it goes on to its `READ`. -/
def Obligations.GatedReadChecksLock : Prop :=
  ∀ (s : State) (address count : Nat) (ts : List Task), transferReady s → s.params.backend = .bitbang →
    s.progmode = true → s.tasks = .readFlash address count true :: ts →
      ∃ t, runSteps 4 s = .next t ∧ t.received = 0x05#8 :: s.received ∧ t.fsr = s.fsr ∧ transferReady t ∧
        sameFlash s t ∧
        (fsrRdismb s.fsr = true → t.tasks = [] ∧ t.outcome = some (.error (.protocol .deviceLocked))) ∧
        (fsrRdismb s.fsr = false →
          t.tasks = .scattered 0x03#8 address (List.replicate count 0x00#8) :: ts ∧ t.outcome = s.outcome)

/-! ## Host layer -/

/-- R205: `compact_writes` is idempotent. -/
def Obligations.CompactionIsIdempotent : Prop :=
  ∀ runs : List Nat, compactRuns (compactRuns runs) = compactRuns runs

/-- R205: after compaction no nonzero run ends exactly where another begins, under the precondition of R203. -/
def Obligations.CompactionLeavesNoAdjacentRuns : Prop :=
  ∀ (runs : List Nat) (i : Nat), runsDisjoint runs → runAt (compactRuns runs) i ≠ 0 →
    runAt (compactRuns runs) (i + runAt (compactRuns runs) i) = 0

/-- R205: compaction changes neither the pending byte offsets nor the sum of the counts. -/
def Obligations.CompactionKeepsPendingBytes : Prop :=
  ∀ runs : List Nat, (compactRuns runs).sum = runs.sum ∧ (compactRuns runs).length = runs.length ∧
    ∀ o, pending (compactRuns runs) o ↔ pending runs o

/-- R201, R202, R203: what the planner does with one data record. With no payload it records nothing; outside flash it fails
with `BufferTooSmall`. Inside flash and none of its bytes planned before, it is placed: inside one page as one run at its
offset; across a page boundary as a run of the bytes that fit and a run of the rest at offset 0 of the next page. Each
part's count is added to its page's `bytes_to_write`, every payload byte stands at its address in the image, and every
other run and plan is as it was. That an empty record passes no range test, and that the range test comes before the test
for overlap, is the model's choice (log entry 17). -/
def Obligations.RecordIsPlannedByPage : Prop :=
  ∀ (offset : Nat) (st : Planned) (r : HexRecord) (addr count page off : Nat),
    st.plans.length = 32 → (∀ plan ∈ st.plans, plan.runs.length = 512) → r.recordType = .data →
    count = r.payload.length → count ≤ 255 → addr = r.address.toNat + offset → page = addr / 512 → off = addr % 512 →
      (count = 0 → placeRecord offset st r = .ok st) ∧
      (0 < count → 32 ≤ page ∨ (512 < off + count ∧ 32 ≤ page + 1) →
        placeRecord offset st r = .error (.error .bufferTooSmall)) ∧
      (0 < count → page < 32 → off + count ≤ 512 → alreadyPlanned st addr count = false →
        ∃ st', placeRecord offset st r = .ok st' ∧
          runAt (st'.plans.getD page emptyPlan).runs off = count ∧
          (∀ o, o ≠ off →
            runAt (st'.plans.getD page emptyPlan).runs o = runAt (st.plans.getD page emptyPlan).runs o) ∧
          (st'.plans.getD page emptyPlan).bytesToWrite = (st.plans.getD page emptyPlan).bytesToWrite + count ∧
          (∀ p, p ≠ page → st'.plans.getD p emptyPlan = st.plans.getD p emptyPlan) ∧
          (∀ k, k < count → (addr + k, r.payload.getD k 0#8) ∈ st'.image) ∧ (∀ c ∈ st.image, c ∈ st'.image)) ∧
      (page + 1 < 32 → 512 < off + count → alreadyPlanned st addr count = false →
        ∃ st', placeRecord offset st r = .ok st' ∧
          runAt (st'.plans.getD page emptyPlan).runs off = 512 - off ∧
          (∀ o, o ≠ off →
            runAt (st'.plans.getD page emptyPlan).runs o = runAt (st.plans.getD page emptyPlan).runs o) ∧
          (st'.plans.getD page emptyPlan).bytesToWrite = (st.plans.getD page emptyPlan).bytesToWrite + (512 - off) ∧
          runAt (st'.plans.getD (page + 1) emptyPlan).runs 0 = count - (512 - off) ∧
          (∀ o, o ≠ 0 → runAt (st'.plans.getD (page + 1) emptyPlan).runs o =
            runAt (st.plans.getD (page + 1) emptyPlan).runs o) ∧
          (st'.plans.getD (page + 1) emptyPlan).bytesToWrite =
            (st.plans.getD (page + 1) emptyPlan).bytesToWrite + (count - (512 - off)) ∧
          (∀ p, p ≠ page → p ≠ page + 1 → st'.plans.getD p emptyPlan = st.plans.getD p emptyPlan) ∧
          (∀ k, k < count → (addr + k, r.payload.getD k 0#8) ∈ st'.image) ∧ (∀ c ∈ st.image, c ∈ st'.image))

/-- R218: the page needs an erase exactly where some byte of a run sets a bit that is 0 now, and a write exactly where some
byte of a run differs (R217); an erase implies a write. Past a list's own end, where the contract of R215 has no byte,
`pageByte` is the model's choice (log entry 26). -/
def Obligations.NecessityAnalysis : Prop :=
  ∀ (plan : PagePlan) (current target : List Byte), plan.eraseNeeded = false → plan.writeNeeded = false →
    ((analysePlan plan current target).eraseNeeded = true ↔
      ∃ o, pending plan.runs o ∧ ~~~(pageByte current o) &&& pageByte target o ≠ 0#8) ∧
    ((analysePlan plan current target).writeNeeded = true ↔
      ∃ o, pending plan.runs o ∧ pageByte target o ≠ pageByte current o) ∧
    ((analysePlan plan current target).eraseNeeded = true → (analysePlan plan current target).writeNeeded = true)

/-- R221, R222: the merged page has the target's byte where a run covers it and the page's own byte elsewhere; and where no
erase is needed, ANDing it into the page leaves exactly it. Past the end of a target that is shorter than the page `pageByte`
is the model's choice (log entry 26). -/
def Obligations.MergeAndProgram : Prop :=
  ∀ (plan : PagePlan) (current target : List Byte) (o : Nat), o < current.length →
    (pending plan.runs o → pageByte (mergedPage plan.runs current target) o = pageByte target o) ∧
      (¬ pending plan.runs o → pageByte (mergedPage plan.runs current target) o = pageByte current o) ∧
      ((analysePlan plan current target).eraseNeeded = false →
        pageByte current o &&& pageByte (mergedPage plan.runs current target) o =
          pageByte (mergedPage plan.runs current target) o)

/-- R217: a page whose planned bytes are all there already is skipped: the step after the first read adds no erase, no
program and no second read. Past a list's own end, where the contract of R215 has no byte, `pageByte` is the model's choice
(log entry 26). -/
def Obligations.EqualPageIsSkipped : Prop :=
  ∀ (plan : PagePlan) (page : Nat) (target : List Byte) (backup isInfo : Bool) (s : State), plan.writeNeeded = false →
    (∀ o, pending plan.runs o → pageByte target o = pageByte s.buffer o) →
      runTask (.smartDecide plan page target backup isInfo) s = .next s

/-! ## The whole machine -/

/-- Every step keeps the model's invariant: both flash regions canonical and inside their address ranges (R50), and
between transfers of an intact bit-banged session the pins idle and the FIFO empty (R33, R247, R274). The canonical form
and the flag of a lost transport are the model's (log entries 4 and 12). -/
def Obligations.EveryStepKeepsGood : Prop :=
  ∀ s t : State, Good s → step s = .next t → Good t

/-- The invariant holds at power-up, where the spec also says the link is closed and the FIFO empty (R40). That both
memories list nothing at power-up is the model's choice (log entry 4). -/
def Obligations.PowerUpIsGood : Prop :=
  Good State.reset ∧ State.reset.linkOpen = false ∧ State.reset.fifo = []

/-- R283, R32: only `begin` and `end` move the target into or out of program mode, and only they open or close the link
(R22); and no step changes a parameter of the machine (R8). That parameters stand in State is the model's choice (log
entry 3). -/
def Obligations.OnlySessionOpsChangeSession : Prop :=
  ∀ s t : State, step s = .next t → t.params = s.params ∧
    ((t.progmode ≠ s.progmode ∨ t.linkOpen ≠ s.linkOpen) →
      ∃ ts, (∃ bus port, s.tasks = .openLink bus port :: ts) ∨ s.tasks = .settle :: ts ∨ s.tasks = .closeLink :: ts)

/-- R61 over whole steps, transport errors included: a flash byte after a step is 0xFF or has no bit set that was clear
before. -/
def Obligations.StepsOnlyAndOrErase : Prop :=
  ∀ s t : State, Good s → step s = .next t →
    ∀ a, (Memory.read t.main a = 0xFF#8 ∨ Memory.read t.main a &&& ~~~(Memory.read s.main a) = 0#8) ∧
      (Memory.read t.info a = 0xFF#8 ∨ Memory.read t.info a &&& ~~~(Memory.read s.info a) = 0#8)
end

