-- ==== Sys2Proof/Laws/Bits.lean ====
section
/-! SUPPORT. The small lemmas of the bit helpers: one bit of a byte written and read, bits to bytes and back. -/

namespace Sys2Proof

theorem setBit_getLsbD (x : Byte) (i j : Nat) (b : Bool) (hj : j < 8) :
    (setBit x i b).getLsbD j = if j = i then b else x.getLsbD j := by
  unfold setBit
  by_cases hji : j = i
  · subst hji
    cases b <;> simp [hj]
  · by_cases hlt : j < i
    · cases b <;> simp [hji, hj, hlt]
    · have : j - i ≠ 0 := by omega
      cases b <;> simp [hji, hj, hlt, this]

/-- Writing one bit reads back as written. -/
theorem setBit_getLsbD_same (x : Byte) (i : Nat) (b : Bool) (hi : i < 8) : (setBit x i b).getLsbD i = b := by
  simp [setBit_getLsbD x i i b hi]

/-- Writing one bit leaves every other bit. -/
theorem setBit_getLsbD_other (x : Byte) (i j : Nat) (b : Bool) (h : j ≠ i) :
    (setBit x i b).getLsbD j = x.getLsbD j := by
  by_cases hj : j < 8
  · simp [setBit_getLsbD x i j b hj, h]
  · rw [BitVec.getLsbD_of_ge _ _ (by omega), BitVec.getLsbD_of_ge _ _ (by omega)]

/-- Each bit of a merge is the new one where selected, else the old one. -/
theorem mergeBits_getLsbD (old new sel : Byte) (j : Nat) :
    (mergeBits old new sel).getLsbD j = if sel.getLsbD j then new.getLsbD j else old.getLsbD j := by
  unfold mergeBits
  by_cases hj : j < 8
  · simp only [BitVec.getLsbD_or, BitVec.getLsbD_and, BitVec.getLsbD_not, hj, decide_true, Bool.true_and]
    cases sel.getLsbD j <;> simp
  · simp [BitVec.getLsbD_of_ge _ _ (show 8 ≤ j by omega)]

/-- Shifting a byte's bits out and in again gives the byte. -/
@[simp] theorem byteOfBits_bitsMsb : ∀ b : Byte, byteOfBits (bitsMsb b) = b := by decide

@[simp] theorem bitsMsb_length (b : Byte) : (bitsMsb b).length = 8 := rfl

@[simp] theorem bufferBits_nil : bufferBits [] = [] := rfl

@[simp] theorem bufferBits_cons (b : Byte) (m : List Byte) : bufferBits (b :: m) = bitsMsb b ++ bufferBits m := rfl

theorem bufferBits_append (m n : List Byte) : bufferBits (m ++ n) = bufferBits m ++ bufferBits n := by
  simp [bufferBits]

theorem bufferBits_length (m : List Byte) : (bufferBits m).length = 8 * m.length := by
  induction m with
  | nil => rfl
  | cons b m ih => simp [ih]; omega

/-- A buffer sent bit by bit is received byte by byte. -/
@[simp] theorem bytesOfBits_bufferBits (m : List Byte) : bytesOfBits (bufferBits m) = m := by
  induction m with
  | nil => rfl
  | cons b m ih =>
    have h : bytesOfBits (bitsMsb b ++ bufferBits m) = byteOfBits (bitsMsb b) :: bytesOfBits (bufferBits m) := rfl
    rw [bufferBits_cons, h, byteOfBits_bitsMsb, ih]

@[simp] theorem byteSum_nil : byteSum [] = 0 := rfl

@[simp] theorem byteSum_cons (b : Byte) (bs : List Byte) : byteSum (b :: bs) = b.toNat + byteSum bs := rfl

end Sys2Proof
end

