-- ==== Sys2Proof/Laws/Flags.lean ====
section
/-! SUPPORT. What each rule about the FSR leaves in its bits. -/

namespace Sys2Proof.Machine

/-- Two bytes with the same eight bits are the same byte. -/
theorem byte_eq_of_bits (x y : Byte) (h : ∀ j, j < 8 → x.getLsbD j = y.getLsbD j) : x = y :=
  BitVec.eq_of_getLsbD_eq (fun j hj => h j hj)

theorem statusMutated_bit (f : Byte) (busy keep : Bool) (j : Nat) (hj : j < 8) :
    (statusMutated f busy keep).getLsbD j =
      if j = 5 then fsrWen f && keep else if j = 4 then busy else f.getLsbD j := by
  rw [statusMutated, setWen, setRdyn, setBit_getLsbD _ _ _ _ hj, setBit_getLsbD _ _ _ _ hj]

theorem statusReady_bit (f : Byte) (keep : Bool) (j : Nat) (hj : j < 8) :
    (statusReady f keep).getLsbD j =
      if j = 5 then fsrWen f && keep else if j = 4 then false else f.getLsbD j := by
  rw [statusReady, setWen, setRdyn, setBit_getLsbD _ _ _ _ hj, setBit_getLsbD _ _ _ _ hj]

theorem statusRead_bit (f : Byte) (b1 b0 : Bool) (j : Nat) (hj : j < 8) :
    (statusRead f b1 b0).getLsbD j = if j = 0 then b0 else if j = 1 then b1 else f.getLsbD j := by
  rw [statusRead, setBit_getLsbD _ _ _ _ hj, setBit_getLsbD _ _ _ _ hj]

/-- The bits `WRSR` takes from its operand: `INFEN` always, `RDYN` never, each other one where the draw says so. -/
theorem statusSelect_bit (pick : Byte) :
    ((pick &&& 0xE7#8) ||| 0x08#8).getLsbD 3 = true ∧ ((pick &&& 0xE7#8) ||| 0x08#8).getLsbD 4 = false := by
  simp

theorem statusWritten_infen (f v pick : Byte) : fsrInfen (statusWritten f v pick) = fsrInfen v := by
  simp only [fsrInfen, statusWritten, mergeBits_getLsbD, (statusSelect_bit pick).1, if_true]

theorem statusWritten_rdyn (f v pick : Byte) : fsrRdyn (statusWritten f v pick) = fsrRdyn f := by
  simp only [fsrRdyn, statusWritten, mergeBits_getLsbD, (statusSelect_bit pick).2]
  simp

/-- Each bit after `WRSR` is the old or the written one. -/
theorem statusWritten_bit (f v pick : Byte) (j : Nat) :
    (statusWritten f v pick).getLsbD j = f.getLsbD j ∨ (statusWritten f v pick).getLsbD j = v.getLsbD j := by
  rw [statusWritten, mergeBits_getLsbD]
  split
  · exact .inr rfl
  · exact .inl rfl

theorem setWen_bit (f : Byte) (b : Bool) (j : Nat) (hj : j < 8) :
    (setWen f b).getLsbD j = if j = 5 then b else f.getLsbD j := setBit_getLsbD f 5 j b hj

theorem setRdismb_bit (f : Byte) (b : Bool) (j : Nat) (hj : j < 8) :
    (setRdismb f b).getLsbD j = if j = 2 then b else f.getLsbD j := setBit_getLsbD f 2 j b hj

/-- A mutating command that was in flight: without `WEN` nothing, else `RDYN` and `WEN` by the drawn byte. -/
theorem statusMutationCut_bit (f g pick : Byte) (j : Nat) (hj : j < 8) :
    (statusMutationCut f g pick).getLsbD j =
      if fsrWen f then
        (if j = 5 then fsrWen g && pick.getLsbD 5 else if j = 4 then pick.getLsbD 4 else g.getLsbD j)
      else f.getLsbD j := by
  unfold statusMutationCut
  split
  · exact statusMutated_bit _ _ _ _ hj
  · rfl

theorem statusMutationCut_infen (f g pick : Byte) (h : fsrInfen g = fsrInfen f) :
    fsrInfen (statusMutationCut f g pick) = fsrInfen f := by
  rw [fsrInfen, statusMutationCut_bit _ _ _ 3 (by decide)]
  split
  · exact h
  · rfl

/-- No command that was in flight but `WRSR` touches `INFEN`. -/
theorem statusCut_infen (i : Instr) (f pick : Byte) (h : ∀ v, i ≠ .wrsr v) :
    fsrInfen (statusCut i f pick) = fsrInfen f := by
  cases i with
  | wrsr v => exact absurd rfl (h v)
  | program _ data =>
    rw [statusCut]
    split
    · rfl
    · exact statusMutationCut_infen _ _ _ rfl
  | wren => exact setWen_bit _ _ 3 (by decide)
  | wrdis => exact setWen_bit _ _ 3 (by decide)
  | erasePage _ => exact statusMutationCut_infen _ _ _ rfl
  | eraseAll => exact statusMutationCut_infen _ _ _ (setRdismb_bit _ _ 3 (by decide))
  | cmdRdismb => exact statusMutationCut_infen _ _ _ (setRdismb_bit _ _ 3 (by decide))
  | read _ _ => rfl
  | rdsr _ => rfl
  | rdfpcr _ => rfl
  | cmdEndebug => rfl
  | hexData _ _ _ => rfl
  | hexEof _ _ _ => rfl

theorem flipInfen_bit (f : Byte) (j : Nat) (hj : j < 8) :
    (flipInfen f).getLsbD j = if j = 3 then !f.getLsbD 3 else f.getLsbD j := by
  have : ∀ f : Byte, ∀ j : Fin 8, (flipInfen f).getLsbD j = if j.val = 3 then !f.getLsbD 3 else f.getLsbD j := by
    decide
  exact this f ⟨j, hj⟩

end Sys2Proof.Machine
end

