-- ==== Sys2Proof/Laws/Frames.lean ====
section
/-! SUPPORT. The frame level's small lemmas: one line of the pin byte written and read, the distinct pins of admitted
parameters, the pins of a bit cell, and what driving one bit cell does to the target and the bridge. -/

namespace Sys2Proof.Machine

/-- One line written and read (R21). -/
theorem pinLevel_setPin (x : Byte) (a b : Fin 8) (v : Bool) :
    pinLevel (setPin x a v) b = if b = a then v else pinLevel x b := by
  unfold pinLevel setPin
  rw [setBit_getLsbD _ _ _ _ b.isLt]
  simp [Fin.ext_iff]

@[simp] theorem pinLevel_setPin_same (x : Byte) (a : Fin 8) (v : Bool) : pinLevel (setPin x a v) a = v := by
  simp [pinLevel_setPin]

theorem pinLevel_setPin_other (x : Byte) (a b : Fin 8) (v : Bool) (h : b ≠ a) :
    pinLevel (setPin x a v) b = pinLevel x b := by
  simp [pinLevel_setPin, h]

/-- Admitted parameters put the lines a transfer moves on different pins. -/
theorem params_distinct (p : Params) (h : p.wf = true) :
    p.pinSck ≠ p.pinMosi ∧ p.pinSck ≠ p.pinMiso ∧ p.pinSck ≠ p.pinCsn ∧ p.pinMosi ≠ p.pinMiso ∧
      p.pinMosi ≠ p.pinCsn ∧ p.pinMiso ≠ p.pinCsn ∧ p.pinSck ≠ p.pinReset ∧ p.pinSck ≠ p.pinProg ∧
      p.pinMosi ≠ p.pinReset ∧ p.pinMosi ≠ p.pinProg ∧ p.pinCsn ≠ p.pinReset ∧ p.pinCsn ≠ p.pinProg ∧
      p.pinReset ≠ p.pinProg := by
  simp only [Params.wf, Params.pinList, Bool.and_eq_true, decide_eq_true_eq, List.nodup_cons, List.mem_cons,
    List.not_mem_nil, or_false, not_or] at h
  tauto

theorem params_chunk_pos (p : Params) (h : p.wf = true) : 1 ≤ p.chunkBytes := by
  simp only [Params.wf, Bool.and_eq_true, decide_eq_true_eq] at h
  exact h.2

theorem framesPerBit_pos (p : Params) : 3 ≤ p.framesPerBit := by
  unfold Params.framesPerBit
  split <;> omega

@[simp] theorem bitCell_length (p : Params) (pins : Byte) (v : Bool) : (bitCell p pins v).length = p.framesPerBit := by
  unfold bitCell Params.framesPerBit
  split <;> rfl

theorem bitFrames_length (p : Params) (pins : Byte) (bits : List Bool) :
    (bitFrames p pins bits).length = bits.length * p.framesPerBit := by
  induction bits generalizing pins with
  | nil => simp [bitFrames]
  | cons v vs ih => simp [bitFrames, ih, Nat.add_mul]; omega

/-- A line that is neither the clock nor `MOSI` keeps its level through a bit cell (R240). -/
theorem cellLow_other (p : Params) (pins : Byte) (v : Bool) (a : Fin 8) (h1 : a ≠ p.pinSck) (h2 : a ≠ p.pinMosi) :
    pinLevel (cellLow p pins v) a = pinLevel pins a := by
  simp [cellLow, cellHigh, cellSetup, pinLevel_setPin, h1, h2]

/-- The clock is low after a bit cell (R240). -/
@[simp] theorem cellLow_sck (p : Params) (pins : Byte) (v : Bool) : pinLevel (cellLow p pins v) p.pinSck = false := by
  simp [cellLow]

@[simp] theorem driveFrames_nil (p : Params) (r : List Bool) (l : Lines) : driveFrames p r l [] = l := rfl

@[simp] theorem driveFrames_cons (p : Params) (r : List Bool) (l : Lines) (f : Byte) (fs : List Byte) :
    driveFrames p r l (f :: fs) = driveFrames p r (driveFrame p r l f) fs := rfl

theorem driveFrames_append (p : Params) (r : List Bool) (l : Lines) (fs gs : List Byte) :
    driveFrames p r l (fs ++ gs) = driveFrames p r (driveFrames p r l fs) gs := by
  simp [driveFrames]

/-- Every frame written gives one sample (R248). -/
theorem driveFrames_fifo_length (p : Params) (r : List Bool) (l : Lines) (fs : List Byte) :
    (driveFrames p r l fs).fifo.length = l.fifo.length + fs.length := by
  induction fs generalizing l with
  | nil => simp
  | cons f fs ih => simp [ih, driveFrame]; omega

/-- The levels after a write phase are the last frame's. -/
theorem driveFrames_levels (p : Params) (r : List Bool) (l : Lines) (fs : List Byte) :
    (driveFrames p r l fs).levels = fs.getLastD l.levels := by
  induction fs generalizing l with
  | nil => rfl
  | cons f fs ih =>
    have h : (driveFrame p r l f).levels = f := by
      simp only [driveFrame, targetReact]
      split
      · rfl
      · split
        · rfl
        · split
          · rfl
          · split <;> rfl
    rw [driveFrames_cons, ih, h]
    cases fs <;> simp [List.getLastD_eq_getLast?, List.getLast?_eq_some_getLast]

/-- With the chip selected and the clock where it was, a frame only sets the levels. -/
theorem targetReact_still (p : Params) (l : Lines) (f : Byte) (h1 : pinLevel f p.pinCsn = false)
    (h2 : pinLevel l.levels p.pinCsn = false) (h3 : pinLevel f p.pinSck = pinLevel l.levels p.pinSck) :
    targetReact p l f = { l with levels := f } := by
  unfold targetReact
  cases h : pinLevel l.levels p.pinSck <;> simp [h1, h2, h3, h]

/-- With the chip selected, a rising clock shifts `MOSI` in. -/
theorem targetReact_rise (p : Params) (l : Lines) (f : Byte) (h1 : pinLevel f p.pinCsn = false)
    (h2 : pinLevel l.levels p.pinCsn = false) (h3 : pinLevel l.levels p.pinSck = false)
    (h4 : pinLevel f p.pinSck = true) :
    targetReact p l f = { l with levels := f, bits := l.bits ++ [pinLevel f p.pinMosi] } := by
  simp [targetReact, h1, h2, h3, h4]

/-- With the chip selected, a falling clock moves on to the next response bit. -/
theorem targetReact_fall (p : Params) (l : Lines) (f : Byte) (h1 : pinLevel f p.pinCsn = false)
    (h2 : pinLevel l.levels p.pinCsn = false) (h3 : pinLevel l.levels p.pinSck = true)
    (h4 : pinLevel f p.pinSck = false) :
    targetReact p l f = { l with levels := f, pos := l.pos + 1 } := by
  simp [targetReact, h1, h2, h3, h4]

/-- One bit cell, with the chip selected and the clock low: the target shifts the bit in and moves on by one response bit,
and the sample that shows the pins after frame `B` holds the response bit of before (R240, R241, R248). -/
theorem drive_bitCell (p : Params) (hp : p.wf = true) (r : List Bool) (l : Lines) (v : Bool)
    (hsck : pinLevel l.levels p.pinSck = false) (hcsn : pinLevel l.levels p.pinCsn = false) :
    ∃ samples, driveFrames p r l (bitCell p l.levels v) =
        { levels := cellLow p l.levels v, fifo := l.fifo ++ samples, bits := l.bits ++ [v], pos := l.pos + 1 } ∧
      samples.length = p.framesPerBit ∧
      pinLevel (samples.getD (1 + (if p.sampleLag then 1 else 0)) 0#8) p.pinMiso = r.getD l.pos false := by
  obtain ⟨h1, h2, h3, h4, h5, h6, -⟩ := params_distinct p hp
  have a1 : pinLevel (cellSetup p l.levels v) p.pinCsn = false := by
    simp [cellSetup, pinLevel_setPin, h5.symm, hcsn]
  have a2 : pinLevel (cellSetup p l.levels v) p.pinSck = false := by
    simp [cellSetup, pinLevel_setPin, h1, hsck]
  have b1 : pinLevel (cellHigh p l.levels v) p.pinCsn = false := by
    simp [cellHigh, pinLevel_setPin, h3.symm, a1]
  have b2 : pinLevel (cellHigh p l.levels v) p.pinSck = true := by simp [cellHigh]
  have b3 : pinLevel (cellHigh p l.levels v) p.pinMosi = v := by
    simp [cellHigh, cellSetup, pinLevel_setPin, h1.symm]
  have c1 : pinLevel (cellLow p l.levels v) p.pinCsn = false := by
    simp [cellLow, pinLevel_setPin, h3.symm, b1]
  have c2 : pinLevel (cellLow p l.levels v) p.pinSck = false := by simp
  have dA : driveFrame p r l (cellSetup p l.levels v) =
      { l with levels := cellSetup p l.levels v, fifo := l.fifo ++ [sampleOf p r
        (if p.sampleLag then l else { l with levels := cellSetup p l.levels v })] } := by
    rw [driveFrame, targetReact_still p l _ a1 hcsn (by rw [a2, hsck])]
  have dB : ∀ f, driveFrame p r { l with levels := cellSetup p l.levels v, fifo := f } (cellHigh p l.levels v) =
      { levels := cellHigh p l.levels v, bits := l.bits ++ [v], pos := l.pos, fifo := f ++ [sampleOf p r
        (if p.sampleLag then { l with levels := cellSetup p l.levels v, fifo := f }
          else { levels := cellHigh p l.levels v, bits := l.bits ++ [v], pos := l.pos, fifo := f })] } := by
    intro f
    rw [driveFrame, targetReact_rise p _ _ b1 a1 a2 b2, b3]
  have dH : ∀ f, driveFrame p r { levels := cellHigh p l.levels v, bits := l.bits ++ [v], pos := l.pos, fifo := f }
        (cellHigh p l.levels v) =
      { levels := cellHigh p l.levels v, bits := l.bits ++ [v], pos := l.pos, fifo := f ++ [sampleOf p r
        { levels := cellHigh p l.levels v, bits := l.bits ++ [v], pos := l.pos, fifo := f }] } := by
    intro f
    rw [driveFrame, targetReact_still p _ _ b1 b1 rfl]
    simp
  have dC : ∀ f, driveFrame p r { levels := cellHigh p l.levels v, bits := l.bits ++ [v], pos := l.pos, fifo := f }
        (cellLow p l.levels v) =
      { levels := cellLow p l.levels v, bits := l.bits ++ [v], pos := l.pos + 1, fifo := f ++ [sampleOf p r
        (if p.sampleLag then { levels := cellHigh p l.levels v, bits := l.bits ++ [v], pos := l.pos, fifo := f }
          else { levels := cellLow p l.levels v, bits := l.bits ++ [v], pos := l.pos + 1, fifo := f })] } := by
    intro f
    rw [driveFrame, targetReact_fall p _ _ c1 b1 b2 c2]
  cases hh : p.hold <;> cases hl : p.sampleLag
  all_goals
    simp only [bitCell, hh, Bool.false_eq_true, if_false, if_true, driveFrames_cons, driveFrames_nil, dA, dB, dH, dC, hl,
      List.append_assoc, List.cons_append, List.nil_append]
    exact ⟨_, rfl, by simp [Params.framesPerBit, hh], by simp [sampleOf]⟩

end Sys2Proof.Machine
end

