-- ==== Sys2Proof/Laws/Memory.lean ====
section
/-! SUPPORT. The laws of a flash region's memory: read after write, the byte each range operation leaves, and that every
operation keeps the canonical form. -/

namespace Sys2Proof.Machine

/-- Strictly rising addresses, all at or above `lo`. -/
theorem Memory.wf_iff (size : Nat) (m : Memory) :
    Memory.wf size m = true ↔
      m.Pairwise (fun c d => c.1 < d.1) ∧ ∀ c ∈ m, c.1 < size ∧ c.2 ≠ Memory.blank := by
  simp [Memory.wf]

@[simp] theorem Memory.wf_nil (size : Nat) : Memory.wf size [] = true := by
  simp [Memory.wf_iff]

theorem Memory.wf_cons (size : Nat) (c : Host.Cell) (m : Memory) :
    Memory.wf size (c :: m) = true ↔
      (∀ d ∈ m, c.1 < d.1) ∧ c.1 < size ∧ c.2 ≠ Memory.blank ∧ Memory.wf size m = true := by
  simp only [Memory.wf_iff, List.pairwise_cons, List.mem_cons, forall_eq_or_imp]
  tauto

/-- An address below every listed one reads as the unlisted byte. -/
theorem Memory.read_below (m : Memory) (a : Nat) (h : ∀ d ∈ m, a < d.1) : Memory.read m a = Memory.blank := by
  induction m with
  | nil => rfl
  | cons c m ih =>
    have hc : a < c.1 := h c (by simp)
    have hm := ih (fun d hd => h d (by simp [hd]))
    obtain ⟨k, v⟩ := c
    simp only [Memory.read]
    rw [if_neg (by simp at hc; omega), hm]

/-- Where a write's entries come from: the old ones and the written one. -/
theorem Memory.mem_write (m : Memory) (a : Nat) (v : Byte) (c : Host.Cell) (h : c ∈ Memory.write m a v) :
    c ∈ m ∨ (c = (a, v) ∧ v ≠ Memory.blank) := by
  induction m with
  | nil =>
    simp only [Memory.write] at h
    split at h
    · simp at h
    · exact .inr ⟨by simpa using h, by assumption⟩
  | cons d m ih =>
    obtain ⟨k, w⟩ := d
    simp only [Memory.write] at h
    split at h
    · split at h
      · exact .inl h
      · rcases List.mem_cons.mp h with h | h
        · exact .inr ⟨h, by assumption⟩
        · exact .inl h
    · split at h
      · split at h
        · exact .inl (List.mem_cons_of_mem _ h)
        · rcases List.mem_cons.mp h with h | h
          · exact .inr ⟨h, by assumption⟩
          · exact .inl (List.mem_cons_of_mem _ h)
      · rcases List.mem_cons.mp h with h | h
        · exact .inl (by simp [h])
        · rcases ih h with h | h
          · exact .inl (List.mem_cons_of_mem _ h)
          · exact .inr h

/-- A write keeps the canonical form. -/
theorem Memory.write_wf (size : Nat) (m : Memory) (a : Nat) (v : Byte) (ha : a < size)
    (h : Memory.wf size m = true) : Memory.wf size (Memory.write m a v) = true := by
  induction m with
  | nil =>
    simp only [Memory.write]
    split
    · simp
    · simp [Memory.wf_cons, *]
  | cons d m ih =>
    obtain ⟨k, w⟩ := d
    obtain ⟨hlt, hk, hw, hm⟩ := (Memory.wf_cons size (k, w) m).mp h
    simp only [Memory.write]
    split
    · split
      · exact h
      · refine (Memory.wf_cons _ _ _).mpr ⟨?_, ha, by assumption, h⟩
        intro d hd
        rcases List.mem_cons.mp hd with rfl | hd
        · assumption
        · have := hlt d hd
          simp at this ⊢
          omega
    · split
      · rename_i hak
        subst hak
        split
        · exact hm
        · exact (Memory.wf_cons _ _ _).mpr ⟨hlt, ha, by assumption, hm⟩
      · refine (Memory.wf_cons _ _ _).mpr ⟨?_, hk, hw, ih hm⟩
        intro d hd
        rcases Memory.mem_write m a v d hd with hd | ⟨rfl, _⟩
        · exact hlt d hd
        · simp
          omega

/-- Read after write, in canonical memory. -/
theorem Memory.read_write (size : Nat) (m : Memory) (a b : Nat) (v : Byte) (h : Memory.wf size m = true) :
    Memory.read (Memory.write m a v) b = if b = a then v else Memory.read m b := by
  induction m with
  | nil =>
    simp only [Memory.write]
    split
    · split <;> simp_all [Memory.read]
    · simp only [Memory.read]
      split <;> split <;> simp_all
  | cons d m ih =>
    obtain ⟨k, w⟩ := d
    obtain ⟨hlt, hk, hw, hm⟩ := (Memory.wf_cons size (k, w) m).mp h
    have below : ∀ x, x ≤ k → x ≠ k → Memory.read ((k, w) :: m) x = Memory.blank := fun x hx hne =>
      Memory.read_below _ _ (by
        intro d hd
        rcases List.mem_cons.mp hd with rfl | hd
        · simp; omega
        · have := hlt d hd
          simp at this
          omega)
    simp only [Memory.write]
    split
    · rename_i hak
      split
      · split
        · rename_i hv hb
          rw [hb, below a (by omega) (by omega), hv]
        · rfl
      · simp only [Memory.read]
        by_cases hb : b = a
        · simp [hb]
        · rw [if_neg (fun e => hb e.symm), if_neg hb]
    · split
      · rename_i hak
        subst hak
        split
        · rename_i hv
          by_cases hb : b = a
          · subst hb
            rw [if_pos rfl, Memory.read_below m b (fun d hd => hlt d hd), hv]
          · simp only [Memory.read]
            rw [if_neg hb, if_neg (fun e => hb e.symm)]
        · simp only [Memory.read]
          by_cases hb : b = a
          · simp [hb]
          · rw [if_neg (fun e => hb e.symm), if_neg hb, if_neg (fun e => hb e.symm)]
      · rename_i h1 h2
        simp only [Memory.read]
        by_cases hkb : k = b
        · subst hkb
          rw [if_pos rfl, if_neg (fun e => h2 e.symm)]
          simp
        · rw [if_neg hkb, if_neg hkb, ih hm]

/-- The picked addresses read as 0xFF, everything else as before. -/
theorem Memory.read_eraseWhere (m : Memory) (which : Nat → Bool) (a : Nat) :
    Memory.read (m.eraseWhere which) a = if which a then Memory.blank else Memory.read m a := by
  unfold Memory.eraseWhere
  induction m with
  | nil => simp [Memory.read]
  | cons c m ih =>
    obtain ⟨k, v⟩ := c
    cases hk : which k with
    | true =>
      rw [List.filter_cons_of_neg (by simp [hk]), ih]
      by_cases ha : k = a
      · subst ha
        simp [hk]
      · simp [Memory.read, ha]
    | false =>
      rw [List.filter_cons_of_pos (by simp [hk])]
      simp only [Memory.read, ih]
      by_cases ha : k = a
      · subst ha
        simp [hk]
      · simp [ha]

/-- Erasing keeps the canonical form. -/
theorem Memory.eraseWhere_wf (size : Nat) (m : Memory) (which : Nat → Bool) (h : Memory.wf size m = true) :
    Memory.wf size (m.eraseWhere which) = true := by
  rw [Memory.wf_iff] at h ⊢
  exact ⟨h.1.filter _, fun c hc => h.2 c (List.mem_filter.mp hc).1⟩

theorem inRange_iff (base n a : Nat) : inRange base n a = true ↔ base ≤ a ∧ a < base + n := by
  simp [inRange]

/-- An erased range reads as 0xFF, everything else as before. -/
theorem Memory.read_eraseRange (m : Memory) (base n a : Nat) :
    Memory.read (Memory.eraseRange m base n) a =
      if base ≤ a ∧ a < base + n then Memory.blank else Memory.read m a := by
  simp only [Memory.eraseRange, Memory.read_eraseWhere, inRange_iff]

theorem Memory.eraseRange_wf (size : Nat) (m : Memory) (base n : Nat) (h : Memory.wf size m = true) :
    Memory.wf size (Memory.eraseRange m base n) = true := Memory.eraseWhere_wf _ _ _ h

/-- Programming keeps the canonical form. -/
theorem Memory.andRange_wf (size : Nat) (m : Memory) (base : Nat) (data : List Byte)
    (hb : base + data.length ≤ size) (h : Memory.wf size m = true) :
    Memory.wf size (Memory.andRange m base data) = true := by
  induction data generalizing m base with
  | nil => exact h
  | cons d ds ih =>
    simp only [List.length_cons] at hb
    exact ih _ _ (by omega) (Memory.write_wf _ _ _ _ (by omega) h)

/-- A programmed byte is the old one ANDed with its data byte; every other byte reads as before. -/
theorem Memory.read_andRange (size : Nat) (m : Memory) (base : Nat) (data : List Byte) (a : Nat)
    (hb : base + data.length ≤ size) (h : Memory.wf size m = true) :
    Memory.read (Memory.andRange m base data) a =
      if base ≤ a ∧ a < base + data.length then Memory.read m a &&& data.getD (a - base) 0xFF#8
      else Memory.read m a := by
  induction data generalizing m base with
  | nil =>
    rw [if_neg (by simp)]
    rfl
  | cons d ds ih =>
    simp only [List.length_cons] at hb ⊢
    simp only [Memory.andRange]
    rw [ih _ _ (by omega) (Memory.write_wf _ _ _ _ (by omega) h), Memory.read_write size _ _ _ _ h]
    by_cases ha : a = base
    · subst ha
      rw [if_neg (by omega), if_pos rfl, if_pos (by omega)]
      simp
    · by_cases hin : base + 1 ≤ a ∧ a < base + 1 + ds.length
      · rw [if_pos hin, if_neg ha, if_pos (by omega)]
        obtain ⟨k, hk⟩ : ∃ k, a - base = k + 1 := ⟨a - base - 1, by omega⟩
        rw [hk, show a - (base + 1) = k by omega]
        rfl
      · rw [if_neg hin, if_neg ha, if_neg (by omega)]

theorem Memory.eraseSome_wf (size : Nat) (m : Memory) (base n seed : Nat) (h : Memory.wf size m = true) :
    Memory.wf size (Memory.eraseSome m base n seed) = true := Memory.eraseWhere_wf _ _ _ h

/-- After an erase that was cut short a byte of the range is erased or as before; every other byte is as before. -/
theorem Memory.read_eraseSome (m : Memory) (base n seed a : Nat) :
    Memory.read (Memory.eraseSome m base n seed) a = Memory.read m a ∨
      (base ≤ a ∧ a < base + n ∧ Memory.read (Memory.eraseSome m base n seed) a = Memory.blank) := by
  rw [Memory.eraseSome, Memory.read_eraseWhere]
  split
  · rename_i h
    have hr := (inRange_iff _ _ _).mp (Bool.and_eq_true_iff.mp h).1
    exact .inr ⟨hr.1, hr.2, rfl⟩
  · exact .inl rfl

theorem Memory.scrambled_wf (size : Nat) (m : Memory) (data : List Byte) (seed : Nat) (hd : data.length ≤ size)
    (h : Memory.wf size m = true) : Memory.wf size (Memory.scrambled m size data seed) = true := by
  rw [Memory.scrambled]
  exact Memory.eraseSome_wf _ _ _ _ _ (Memory.andRange_wf _ _ _ _ (by omega) h)

/-- A scrambled byte is 0xFF or has no bit set that was clear before (R61). -/
theorem Memory.read_scrambled (size : Nat) (m : Memory) (data : List Byte) (seed a : Nat) (hd : data.length ≤ size)
    (h : Memory.wf size m = true) :
    Memory.read (Memory.scrambled m size data seed) a = Memory.blank ∨
      Memory.read (Memory.scrambled m size data seed) a &&& ~~~(Memory.read m a) = 0#8 := by
  rw [Memory.scrambled]
  rcases Memory.read_eraseSome (Memory.andRange m 0 data) 0 size seed a with he | ⟨_, _, he⟩
  · refine .inr ?_
    rw [he, Memory.read_andRange size m 0 data a (by omega) h]
    split
    · ext j hj
      simp
      tauto
    · simp
  · exact .inl he

@[simp] theorem Memory.readRange_length (m : Memory) (base n : Nat) : (Memory.readRange m base n).length = n := by
  simp [Memory.readRange]

/-- Byte `i` of a range read. -/
theorem Memory.readRange_getD (m : Memory) (base n i : Nat) (x : Byte) (h : i < n) :
    (Memory.readRange m base n).getD i x = Memory.read m (base + i) := by
  simp [Memory.readRange, h]

end Sys2Proof.Machine
end

