-- ==== Sys2Proof/Laws/State.lean ====
section
/-! SUPPORT. One lemma per field per update of State, true by rfl: no later proof unfolds a record update. The updates whose
effect depends on the state (`setRegion`, `readyStep`, `answering`, `mutatePlan`, `cutCommand`) have theirs at the end. -/

namespace Sys2Proof.Machine

/-! ### `State.spend`: free values are spent -/

@[simp] theorem State.spend_params (s : State) (n : Nat) : (s.spend n).params = s.params := rfl
@[simp] theorem State.spend_pins (s : State) (n : Nat) : (s.spend n).pins = s.pins := rfl
@[simp] theorem State.spend_frames (s : State) (n : Nat) : (s.spend n).frames = s.frames := rfl
@[simp] theorem State.spend_linkOpen (s : State) (n : Nat) : (s.spend n).linkOpen = s.linkOpen := rfl
@[simp] theorem State.spend_fifo (s : State) (n : Nat) : (s.spend n).fifo = s.fifo := rfl
@[simp] theorem State.spend_lost (s : State) (n : Nat) : (s.spend n).lost = s.lost := rfl
@[simp] theorem State.spend_fsr (s : State) (n : Nat) : (s.spend n).fsr = s.fsr := rfl
@[simp] theorem State.spend_fpcr (s : State) (n : Nat) : (s.spend n).fpcr = s.fpcr := rfl
@[simp] theorem State.spend_main (s : State) (n : Nat) : (s.spend n).main = s.main := rfl
@[simp] theorem State.spend_info (s : State) (n : Nat) : (s.spend n).info = s.info := rfl
@[simp] theorem State.spend_progmode (s : State) (n : Nat) : (s.spend n).progmode = s.progmode := rfl
@[simp] theorem State.spend_shiftIn (s : State) (n : Nat) : (s.spend n).shiftIn = s.shiftIn := rfl
@[simp] theorem State.spend_shiftPos (s : State) (n : Nat) : (s.spend n).shiftPos = s.shiftPos := rfl
@[simp] theorem State.spend_resp (s : State) (n : Nat) : (s.spend n).resp = s.resp := rfl
@[simp] theorem State.spend_received (s : State) (n : Nat) : (s.spend n).received = s.received := rfl
@[simp] theorem State.spend_requests (s : State) (n : Nat) : (s.spend n).requests = s.requests := rfl
@[simp] theorem State.spend_tasks (s : State) (n : Nat) : (s.spend n).tasks = s.tasks := rfl
@[simp] theorem State.spend_buffer (s : State) (n : Nat) : (s.spend n).buffer = s.buffer := rfl
@[simp] theorem State.spend_dest (s : State) (n : Nat) : (s.spend n).dest = s.dest := rfl
@[simp] theorem State.spend_clamp (s : State) (n : Nat) : (s.spend n).clamp = s.clamp := rfl
@[simp] theorem State.spend_cursor (s : State) (n : Nat) : (s.spend n).cursor = s.cursor := rfl
@[simp] theorem State.spend_outcome (s : State) (n : Nat) : (s.spend n).outcome = s.outcome := rfl
@[simp] theorem State.spend_plans (s : State) (n : Nat) : (s.spend n).plans = s.plans := rfl
@[simp] theorem State.spend_image (s : State) (n : Nat) : (s.spend n).image = s.image := rfl
@[simp] theorem State.spend_backups (s : State) (n : Nat) : (s.spend n).backups = s.backups := rfl
@[simp] theorem State.spend_env (s : State) (n : Nat) : (s.spend n).env = s.env := rfl
@[simp] theorem State.spend_draws (s : State) (n : Nat) : (s.spend n).draws = s.draws + n := rfl

/-! ### `State.reply`: the target answers -/

@[simp] theorem State.reply_params (s : State) (r : List Byte) (n : Nat) : (s.reply r n).params = s.params := rfl
@[simp] theorem State.reply_pins (s : State) (r : List Byte) (n : Nat) : (s.reply r n).pins = s.pins := rfl
@[simp] theorem State.reply_frames (s : State) (r : List Byte) (n : Nat) : (s.reply r n).frames = s.frames := rfl
@[simp] theorem State.reply_linkOpen (s : State) (r : List Byte) (n : Nat) : (s.reply r n).linkOpen = s.linkOpen := rfl
@[simp] theorem State.reply_fifo (s : State) (r : List Byte) (n : Nat) : (s.reply r n).fifo = s.fifo := rfl
@[simp] theorem State.reply_lost (s : State) (r : List Byte) (n : Nat) : (s.reply r n).lost = s.lost := rfl
@[simp] theorem State.reply_fsr (s : State) (r : List Byte) (n : Nat) : (s.reply r n).fsr = s.fsr := rfl
@[simp] theorem State.reply_fpcr (s : State) (r : List Byte) (n : Nat) : (s.reply r n).fpcr = s.fpcr := rfl
@[simp] theorem State.reply_main (s : State) (r : List Byte) (n : Nat) : (s.reply r n).main = s.main := rfl
@[simp] theorem State.reply_info (s : State) (r : List Byte) (n : Nat) : (s.reply r n).info = s.info := rfl
@[simp] theorem State.reply_progmode (s : State) (r : List Byte) (n : Nat) : (s.reply r n).progmode = s.progmode := rfl
@[simp] theorem State.reply_shiftIn (s : State) (r : List Byte) (n : Nat) : (s.reply r n).shiftIn = s.shiftIn := rfl
@[simp] theorem State.reply_shiftPos (s : State) (r : List Byte) (n : Nat) : (s.reply r n).shiftPos = s.shiftPos := rfl
@[simp] theorem State.reply_resp (s : State) (r : List Byte) (n : Nat) : (s.reply r n).resp = r := rfl
@[simp] theorem State.reply_received (s : State) (r : List Byte) (n : Nat) : (s.reply r n).received = s.received := rfl
@[simp] theorem State.reply_requests (s : State) (r : List Byte) (n : Nat) : (s.reply r n).requests = s.requests := rfl
@[simp] theorem State.reply_tasks (s : State) (r : List Byte) (n : Nat) : (s.reply r n).tasks = s.tasks := rfl
@[simp] theorem State.reply_buffer (s : State) (r : List Byte) (n : Nat) : (s.reply r n).buffer = s.buffer := rfl
@[simp] theorem State.reply_dest (s : State) (r : List Byte) (n : Nat) : (s.reply r n).dest = s.dest := rfl
@[simp] theorem State.reply_clamp (s : State) (r : List Byte) (n : Nat) : (s.reply r n).clamp = s.clamp := rfl
@[simp] theorem State.reply_cursor (s : State) (r : List Byte) (n : Nat) : (s.reply r n).cursor = s.cursor := rfl
@[simp] theorem State.reply_outcome (s : State) (r : List Byte) (n : Nat) : (s.reply r n).outcome = s.outcome := rfl
@[simp] theorem State.reply_plans (s : State) (r : List Byte) (n : Nat) : (s.reply r n).plans = s.plans := rfl
@[simp] theorem State.reply_image (s : State) (r : List Byte) (n : Nat) : (s.reply r n).image = s.image := rfl
@[simp] theorem State.reply_backups (s : State) (r : List Byte) (n : Nat) : (s.reply r n).backups = s.backups := rfl
@[simp] theorem State.reply_env (s : State) (r : List Byte) (n : Nat) : (s.reply r n).env = s.env := rfl
@[simp] theorem State.reply_draws (s : State) (r : List Byte) (n : Nat) : (s.reply r n).draws = s.draws + n := rfl

/-! ### `State.setFsr`: the FSR takes a value -/

@[simp] theorem State.setFsr_params (s : State) (f : Byte) : (s.setFsr f).params = s.params := rfl
@[simp] theorem State.setFsr_pins (s : State) (f : Byte) : (s.setFsr f).pins = s.pins := rfl
@[simp] theorem State.setFsr_frames (s : State) (f : Byte) : (s.setFsr f).frames = s.frames := rfl
@[simp] theorem State.setFsr_linkOpen (s : State) (f : Byte) : (s.setFsr f).linkOpen = s.linkOpen := rfl
@[simp] theorem State.setFsr_fifo (s : State) (f : Byte) : (s.setFsr f).fifo = s.fifo := rfl
@[simp] theorem State.setFsr_lost (s : State) (f : Byte) : (s.setFsr f).lost = s.lost := rfl
@[simp] theorem State.setFsr_fsr (s : State) (f : Byte) : (s.setFsr f).fsr = f := rfl
@[simp] theorem State.setFsr_fpcr (s : State) (f : Byte) : (s.setFsr f).fpcr = s.fpcr := rfl
@[simp] theorem State.setFsr_main (s : State) (f : Byte) : (s.setFsr f).main = s.main := rfl
@[simp] theorem State.setFsr_info (s : State) (f : Byte) : (s.setFsr f).info = s.info := rfl
@[simp] theorem State.setFsr_progmode (s : State) (f : Byte) : (s.setFsr f).progmode = s.progmode := rfl
@[simp] theorem State.setFsr_shiftIn (s : State) (f : Byte) : (s.setFsr f).shiftIn = s.shiftIn := rfl
@[simp] theorem State.setFsr_shiftPos (s : State) (f : Byte) : (s.setFsr f).shiftPos = s.shiftPos := rfl
@[simp] theorem State.setFsr_resp (s : State) (f : Byte) : (s.setFsr f).resp = s.resp := rfl
@[simp] theorem State.setFsr_received (s : State) (f : Byte) : (s.setFsr f).received = s.received := rfl
@[simp] theorem State.setFsr_requests (s : State) (f : Byte) : (s.setFsr f).requests = s.requests := rfl
@[simp] theorem State.setFsr_tasks (s : State) (f : Byte) : (s.setFsr f).tasks = s.tasks := rfl
@[simp] theorem State.setFsr_buffer (s : State) (f : Byte) : (s.setFsr f).buffer = s.buffer := rfl
@[simp] theorem State.setFsr_dest (s : State) (f : Byte) : (s.setFsr f).dest = s.dest := rfl
@[simp] theorem State.setFsr_clamp (s : State) (f : Byte) : (s.setFsr f).clamp = s.clamp := rfl
@[simp] theorem State.setFsr_cursor (s : State) (f : Byte) : (s.setFsr f).cursor = s.cursor := rfl
@[simp] theorem State.setFsr_outcome (s : State) (f : Byte) : (s.setFsr f).outcome = s.outcome := rfl
@[simp] theorem State.setFsr_plans (s : State) (f : Byte) : (s.setFsr f).plans = s.plans := rfl
@[simp] theorem State.setFsr_image (s : State) (f : Byte) : (s.setFsr f).image = s.image := rfl
@[simp] theorem State.setFsr_backups (s : State) (f : Byte) : (s.setFsr f).backups = s.backups := rfl
@[simp] theorem State.setFsr_env (s : State) (f : Byte) : (s.setFsr f).env = s.env := rfl
@[simp] theorem State.setFsr_draws (s : State) (f : Byte) : (s.setFsr f).draws = s.draws := rfl

/-! ### `State.mutated`: a mutating command was honoured -/

@[simp] theorem State.mutated_params (s : State) : (s.mutated).params = s.params := rfl
@[simp] theorem State.mutated_pins (s : State) : (s.mutated).pins = s.pins := rfl
@[simp] theorem State.mutated_frames (s : State) : (s.mutated).frames = s.frames := rfl
@[simp] theorem State.mutated_linkOpen (s : State) : (s.mutated).linkOpen = s.linkOpen := rfl
@[simp] theorem State.mutated_fifo (s : State) : (s.mutated).fifo = s.fifo := rfl
@[simp] theorem State.mutated_lost (s : State) : (s.mutated).lost = s.lost := rfl
@[simp] theorem State.mutated_fsr (s : State) : (s.mutated).fsr = statusMutated s.fsr (s.freeBit 0) (s.freeBit 1) := rfl
@[simp] theorem State.mutated_fpcr (s : State) : (s.mutated).fpcr = s.fpcr := rfl
@[simp] theorem State.mutated_main (s : State) : (s.mutated).main = s.main := rfl
@[simp] theorem State.mutated_info (s : State) : (s.mutated).info = s.info := rfl
@[simp] theorem State.mutated_progmode (s : State) : (s.mutated).progmode = s.progmode := rfl
@[simp] theorem State.mutated_shiftIn (s : State) : (s.mutated).shiftIn = s.shiftIn := rfl
@[simp] theorem State.mutated_shiftPos (s : State) : (s.mutated).shiftPos = s.shiftPos := rfl
@[simp] theorem State.mutated_resp (s : State) : (s.mutated).resp = s.resp := rfl
@[simp] theorem State.mutated_received (s : State) : (s.mutated).received = s.received := rfl
@[simp] theorem State.mutated_requests (s : State) : (s.mutated).requests = s.requests := rfl
@[simp] theorem State.mutated_tasks (s : State) : (s.mutated).tasks = s.tasks := rfl
@[simp] theorem State.mutated_buffer (s : State) : (s.mutated).buffer = s.buffer := rfl
@[simp] theorem State.mutated_dest (s : State) : (s.mutated).dest = s.dest := rfl
@[simp] theorem State.mutated_clamp (s : State) : (s.mutated).clamp = s.clamp := rfl
@[simp] theorem State.mutated_cursor (s : State) : (s.mutated).cursor = s.cursor := rfl
@[simp] theorem State.mutated_outcome (s : State) : (s.mutated).outcome = s.outcome := rfl
@[simp] theorem State.mutated_plans (s : State) : (s.mutated).plans = s.plans := rfl
@[simp] theorem State.mutated_image (s : State) : (s.mutated).image = s.image := rfl
@[simp] theorem State.mutated_backups (s : State) : (s.mutated).backups = s.backups := rfl
@[simp] theorem State.mutated_env (s : State) : (s.mutated).env = s.env := rfl
@[simp] theorem State.mutated_draws (s : State) : (s.mutated).draws = s.draws + 2 := rfl

/-! ### `State.targetReset`: the target is reset -/

@[simp] theorem State.targetReset_params (s : State) : (s.targetReset).params = s.params := rfl
@[simp] theorem State.targetReset_pins (s : State) : (s.targetReset).pins = s.pins := rfl
@[simp] theorem State.targetReset_frames (s : State) : (s.targetReset).frames = s.frames := rfl
@[simp] theorem State.targetReset_linkOpen (s : State) : (s.targetReset).linkOpen = s.linkOpen := rfl
@[simp] theorem State.targetReset_fifo (s : State) : (s.targetReset).fifo = s.fifo := rfl
@[simp] theorem State.targetReset_lost (s : State) : (s.targetReset).lost = s.lost := rfl
@[simp] theorem State.targetReset_fsr (s : State) : (s.targetReset).fsr = s.freeByte 0 := rfl
@[simp] theorem State.targetReset_fpcr (s : State) : (s.targetReset).fpcr = s.freeByte 1 := rfl
@[simp] theorem State.targetReset_main (s : State) : (s.targetReset).main = s.main := rfl
@[simp] theorem State.targetReset_info (s : State) : (s.targetReset).info = s.info := rfl
@[simp] theorem State.targetReset_progmode (s : State) : (s.targetReset).progmode = s.progmode := rfl
@[simp] theorem State.targetReset_shiftIn (s : State) : (s.targetReset).shiftIn = [] := rfl
@[simp] theorem State.targetReset_shiftPos (s : State) : (s.targetReset).shiftPos = 0 := rfl
@[simp] theorem State.targetReset_resp (s : State) : (s.targetReset).resp = [] := rfl
@[simp] theorem State.targetReset_received (s : State) : (s.targetReset).received = s.received := rfl
@[simp] theorem State.targetReset_requests (s : State) : (s.targetReset).requests = s.requests := rfl
@[simp] theorem State.targetReset_tasks (s : State) : (s.targetReset).tasks = s.tasks := rfl
@[simp] theorem State.targetReset_buffer (s : State) : (s.targetReset).buffer = s.buffer := rfl
@[simp] theorem State.targetReset_dest (s : State) : (s.targetReset).dest = s.dest := rfl
@[simp] theorem State.targetReset_clamp (s : State) : (s.targetReset).clamp = s.clamp := rfl
@[simp] theorem State.targetReset_cursor (s : State) : (s.targetReset).cursor = s.cursor := rfl
@[simp] theorem State.targetReset_outcome (s : State) : (s.targetReset).outcome = s.outcome := rfl
@[simp] theorem State.targetReset_plans (s : State) : (s.targetReset).plans = s.plans := rfl
@[simp] theorem State.targetReset_image (s : State) : (s.targetReset).image = s.image := rfl
@[simp] theorem State.targetReset_backups (s : State) : (s.targetReset).backups = s.backups := rfl
@[simp] theorem State.targetReset_env (s : State) : (s.targetReset).env = s.env := rfl
@[simp] theorem State.targetReset_draws (s : State) : (s.targetReset).draws = s.draws + 2 := rfl

/-! ### `State.raise`: an operation fails -/

@[simp] theorem State.raise_params (s : State) (e : OpError) : (s.raise e).params = s.params := rfl
@[simp] theorem State.raise_pins (s : State) (e : OpError) : (s.raise e).pins = s.pins := rfl
@[simp] theorem State.raise_frames (s : State) (e : OpError) : (s.raise e).frames = s.frames := rfl
@[simp] theorem State.raise_linkOpen (s : State) (e : OpError) : (s.raise e).linkOpen = s.linkOpen := rfl
@[simp] theorem State.raise_fifo (s : State) (e : OpError) : (s.raise e).fifo = s.fifo := rfl
@[simp] theorem State.raise_lost (s : State) (e : OpError) : (s.raise e).lost = s.lost := rfl
@[simp] theorem State.raise_fsr (s : State) (e : OpError) : (s.raise e).fsr = s.fsr := rfl
@[simp] theorem State.raise_fpcr (s : State) (e : OpError) : (s.raise e).fpcr = s.fpcr := rfl
@[simp] theorem State.raise_main (s : State) (e : OpError) : (s.raise e).main = s.main := rfl
@[simp] theorem State.raise_info (s : State) (e : OpError) : (s.raise e).info = s.info := rfl
@[simp] theorem State.raise_progmode (s : State) (e : OpError) : (s.raise e).progmode = s.progmode := rfl
@[simp] theorem State.raise_shiftIn (s : State) (e : OpError) : (s.raise e).shiftIn = s.shiftIn := rfl
@[simp] theorem State.raise_shiftPos (s : State) (e : OpError) : (s.raise e).shiftPos = s.shiftPos := rfl
@[simp] theorem State.raise_resp (s : State) (e : OpError) : (s.raise e).resp = s.resp := rfl
@[simp] theorem State.raise_received (s : State) (e : OpError) : (s.raise e).received = s.received := rfl
@[simp] theorem State.raise_requests (s : State) (e : OpError) : (s.raise e).requests = s.requests := rfl
@[simp] theorem State.raise_tasks (s : State) (e : OpError) : (s.raise e).tasks = [] := rfl
@[simp] theorem State.raise_buffer (s : State) (e : OpError) : (s.raise e).buffer = s.buffer := rfl
@[simp] theorem State.raise_dest (s : State) (e : OpError) : (s.raise e).dest = s.dest := rfl
@[simp] theorem State.raise_clamp (s : State) (e : OpError) : (s.raise e).clamp = s.clamp := rfl
@[simp] theorem State.raise_cursor (s : State) (e : OpError) : (s.raise e).cursor = s.cursor := rfl
@[simp] theorem State.raise_outcome (s : State) (e : OpError) : (s.raise e).outcome = some (.error e) := rfl
@[simp] theorem State.raise_plans (s : State) (e : OpError) : (s.raise e).plans = s.plans := rfl
@[simp] theorem State.raise_image (s : State) (e : OpError) : (s.raise e).image = s.image := rfl
@[simp] theorem State.raise_backups (s : State) (e : OpError) : (s.raise e).backups = s.backups := rfl
@[simp] theorem State.raise_env (s : State) (e : OpError) : (s.raise e).env = s.env := rfl
@[simp] theorem State.raise_draws (s : State) (e : OpError) : (s.raise e).draws = s.draws := rfl

/-! ### `State.finish`: an operation returns -/

@[simp] theorem State.finish_params (s : State) (v : Value) : (s.finish v).params = s.params := rfl
@[simp] theorem State.finish_pins (s : State) (v : Value) : (s.finish v).pins = s.pins := rfl
@[simp] theorem State.finish_frames (s : State) (v : Value) : (s.finish v).frames = s.frames := rfl
@[simp] theorem State.finish_linkOpen (s : State) (v : Value) : (s.finish v).linkOpen = s.linkOpen := rfl
@[simp] theorem State.finish_fifo (s : State) (v : Value) : (s.finish v).fifo = s.fifo := rfl
@[simp] theorem State.finish_lost (s : State) (v : Value) : (s.finish v).lost = s.lost := rfl
@[simp] theorem State.finish_fsr (s : State) (v : Value) : (s.finish v).fsr = s.fsr := rfl
@[simp] theorem State.finish_fpcr (s : State) (v : Value) : (s.finish v).fpcr = s.fpcr := rfl
@[simp] theorem State.finish_main (s : State) (v : Value) : (s.finish v).main = s.main := rfl
@[simp] theorem State.finish_info (s : State) (v : Value) : (s.finish v).info = s.info := rfl
@[simp] theorem State.finish_progmode (s : State) (v : Value) : (s.finish v).progmode = s.progmode := rfl
@[simp] theorem State.finish_shiftIn (s : State) (v : Value) : (s.finish v).shiftIn = s.shiftIn := rfl
@[simp] theorem State.finish_shiftPos (s : State) (v : Value) : (s.finish v).shiftPos = s.shiftPos := rfl
@[simp] theorem State.finish_resp (s : State) (v : Value) : (s.finish v).resp = s.resp := rfl
@[simp] theorem State.finish_received (s : State) (v : Value) : (s.finish v).received = s.received := rfl
@[simp] theorem State.finish_requests (s : State) (v : Value) : (s.finish v).requests = s.requests := rfl
@[simp] theorem State.finish_tasks (s : State) (v : Value) : (s.finish v).tasks = s.tasks := rfl
@[simp] theorem State.finish_buffer (s : State) (v : Value) : (s.finish v).buffer = s.buffer := rfl
@[simp] theorem State.finish_dest (s : State) (v : Value) : (s.finish v).dest = s.dest := rfl
@[simp] theorem State.finish_clamp (s : State) (v : Value) : (s.finish v).clamp = s.clamp := rfl
@[simp] theorem State.finish_cursor (s : State) (v : Value) : (s.finish v).cursor = s.cursor := rfl
@[simp] theorem State.finish_outcome (s : State) (v : Value) : (s.finish v).outcome = some (.ok v) := rfl
@[simp] theorem State.finish_plans (s : State) (v : Value) : (s.finish v).plans = s.plans := rfl
@[simp] theorem State.finish_image (s : State) (v : Value) : (s.finish v).image = s.image := rfl
@[simp] theorem State.finish_backups (s : State) (v : Value) : (s.finish v).backups = s.backups := rfl
@[simp] theorem State.finish_env (s : State) (v : Value) : (s.finish v).env = s.env := rfl
@[simp] theorem State.finish_draws (s : State) (v : Value) : (s.finish v).draws = s.draws := rfl

/-! ### `State.massErased`: a mass erase -/

@[simp] theorem State.massErased_params (s : State) : (s.massErased).params = s.params := rfl
@[simp] theorem State.massErased_pins (s : State) : (s.massErased).pins = s.pins := rfl
@[simp] theorem State.massErased_frames (s : State) : (s.massErased).frames = s.frames := rfl
@[simp] theorem State.massErased_linkOpen (s : State) : (s.massErased).linkOpen = s.linkOpen := rfl
@[simp] theorem State.massErased_fifo (s : State) : (s.massErased).fifo = s.fifo := rfl
@[simp] theorem State.massErased_lost (s : State) : (s.massErased).lost = s.lost := rfl
@[simp] theorem State.massErased_fsr (s : State) : (s.massErased).fsr = s.fsr := rfl
@[simp] theorem State.massErased_fpcr (s : State) : (s.massErased).fpcr = s.fpcr := rfl
@[simp] theorem State.massErased_main (s : State) : (s.massErased).main = Memory.eraseRange s.main 0 Config.flashSize := rfl
@[simp] theorem State.massErased_info (s : State) : (s.massErased).info = if fsrInfen s.fsr && s.params.eraseAllHitsInfo then Memory.eraseRange s.info 0 Config.infoSize else s.info := rfl
@[simp] theorem State.massErased_progmode (s : State) : (s.massErased).progmode = s.progmode := rfl
@[simp] theorem State.massErased_shiftIn (s : State) : (s.massErased).shiftIn = s.shiftIn := rfl
@[simp] theorem State.massErased_shiftPos (s : State) : (s.massErased).shiftPos = s.shiftPos := rfl
@[simp] theorem State.massErased_resp (s : State) : (s.massErased).resp = s.resp := rfl
@[simp] theorem State.massErased_received (s : State) : (s.massErased).received = s.received := rfl
@[simp] theorem State.massErased_requests (s : State) : (s.massErased).requests = s.requests := rfl
@[simp] theorem State.massErased_tasks (s : State) : (s.massErased).tasks = s.tasks := rfl
@[simp] theorem State.massErased_buffer (s : State) : (s.massErased).buffer = s.buffer := rfl
@[simp] theorem State.massErased_dest (s : State) : (s.massErased).dest = s.dest := rfl
@[simp] theorem State.massErased_clamp (s : State) : (s.massErased).clamp = s.clamp := rfl
@[simp] theorem State.massErased_cursor (s : State) : (s.massErased).cursor = s.cursor := rfl
@[simp] theorem State.massErased_outcome (s : State) : (s.massErased).outcome = s.outcome := rfl
@[simp] theorem State.massErased_plans (s : State) : (s.massErased).plans = s.plans := rfl
@[simp] theorem State.massErased_image (s : State) : (s.massErased).image = s.image := rfl
@[simp] theorem State.massErased_backups (s : State) : (s.massErased).backups = s.backups := rfl
@[simp] theorem State.massErased_env (s : State) : (s.massErased).env = s.env := rfl
@[simp] theorem State.massErased_draws (s : State) : (s.massErased).draws = s.draws := rfl

/-! ### `State.massCut`: a mass erase was in flight -/

@[simp] theorem State.massCut_params (s : State) : (s.massCut).params = s.params := rfl
@[simp] theorem State.massCut_pins (s : State) : (s.massCut).pins = s.pins := rfl
@[simp] theorem State.massCut_frames (s : State) : (s.massCut).frames = s.frames := rfl
@[simp] theorem State.massCut_linkOpen (s : State) : (s.massCut).linkOpen = s.linkOpen := rfl
@[simp] theorem State.massCut_fifo (s : State) : (s.massCut).fifo = s.fifo := rfl
@[simp] theorem State.massCut_lost (s : State) : (s.massCut).lost = s.lost := rfl
@[simp] theorem State.massCut_fsr (s : State) : (s.massCut).fsr = s.fsr := rfl
@[simp] theorem State.massCut_fpcr (s : State) : (s.massCut).fpcr = s.fpcr := rfl
@[simp] theorem State.massCut_main (s : State) : (s.massCut).main = Memory.eraseSome s.main 0 Config.flashSize s.draws := rfl
@[simp] theorem State.massCut_info (s : State) : (s.massCut).info = if fsrInfen s.fsr && s.params.eraseAllHitsInfo then Memory.eraseSome s.info 0 Config.infoSize (s.draws + Config.flashSize) else s.info := rfl
@[simp] theorem State.massCut_progmode (s : State) : (s.massCut).progmode = s.progmode := rfl
@[simp] theorem State.massCut_shiftIn (s : State) : (s.massCut).shiftIn = s.shiftIn := rfl
@[simp] theorem State.massCut_shiftPos (s : State) : (s.massCut).shiftPos = s.shiftPos := rfl
@[simp] theorem State.massCut_resp (s : State) : (s.massCut).resp = s.resp := rfl
@[simp] theorem State.massCut_received (s : State) : (s.massCut).received = s.received := rfl
@[simp] theorem State.massCut_requests (s : State) : (s.massCut).requests = s.requests := rfl
@[simp] theorem State.massCut_tasks (s : State) : (s.massCut).tasks = s.tasks := rfl
@[simp] theorem State.massCut_buffer (s : State) : (s.massCut).buffer = s.buffer := rfl
@[simp] theorem State.massCut_dest (s : State) : (s.massCut).dest = s.dest := rfl
@[simp] theorem State.massCut_clamp (s : State) : (s.massCut).clamp = s.clamp := rfl
@[simp] theorem State.massCut_cursor (s : State) : (s.massCut).cursor = s.cursor := rfl
@[simp] theorem State.massCut_outcome (s : State) : (s.massCut).outcome = s.outcome := rfl
@[simp] theorem State.massCut_plans (s : State) : (s.massCut).plans = s.plans := rfl
@[simp] theorem State.massCut_image (s : State) : (s.massCut).image = s.image := rfl
@[simp] theorem State.massCut_backups (s : State) : (s.massCut).backups = s.backups := rfl
@[simp] theorem State.massCut_env (s : State) : (s.massCut).env = s.env := rfl
@[simp] theorem State.massCut_draws (s : State) : (s.massCut).draws = s.draws := rfl

/-! ### `State.arrive`: a command arrives -/

@[simp] theorem State.arrive_params (s : State) (op : Byte) : (s.arrive op).params = s.params := rfl
@[simp] theorem State.arrive_pins (s : State) (op : Byte) : (s.arrive op).pins = s.pins := rfl
@[simp] theorem State.arrive_frames (s : State) (op : Byte) : (s.arrive op).frames = s.frames := rfl
@[simp] theorem State.arrive_linkOpen (s : State) (op : Byte) : (s.arrive op).linkOpen = s.linkOpen := rfl
@[simp] theorem State.arrive_fifo (s : State) (op : Byte) : (s.arrive op).fifo = s.fifo := rfl
@[simp] theorem State.arrive_lost (s : State) (op : Byte) : (s.arrive op).lost = s.lost := rfl
@[simp] theorem State.arrive_fsr (s : State) (op : Byte) : (s.arrive op).fsr = s.fsr := rfl
@[simp] theorem State.arrive_fpcr (s : State) (op : Byte) : (s.arrive op).fpcr = s.fpcr := rfl
@[simp] theorem State.arrive_main (s : State) (op : Byte) : (s.arrive op).main = s.main := rfl
@[simp] theorem State.arrive_info (s : State) (op : Byte) : (s.arrive op).info = s.info := rfl
@[simp] theorem State.arrive_progmode (s : State) (op : Byte) : (s.arrive op).progmode = s.progmode := rfl
@[simp] theorem State.arrive_shiftIn (s : State) (op : Byte) : (s.arrive op).shiftIn = s.shiftIn := rfl
@[simp] theorem State.arrive_shiftPos (s : State) (op : Byte) : (s.arrive op).shiftPos = s.shiftPos := rfl
@[simp] theorem State.arrive_resp (s : State) (op : Byte) : (s.arrive op).resp = s.resp := rfl
@[simp] theorem State.arrive_received (s : State) (op : Byte) : (s.arrive op).received = op :: s.received := rfl
@[simp] theorem State.arrive_requests (s : State) (op : Byte) : (s.arrive op).requests = s.requests := rfl
@[simp] theorem State.arrive_tasks (s : State) (op : Byte) : (s.arrive op).tasks = s.tasks := rfl
@[simp] theorem State.arrive_buffer (s : State) (op : Byte) : (s.arrive op).buffer = s.buffer := rfl
@[simp] theorem State.arrive_dest (s : State) (op : Byte) : (s.arrive op).dest = s.dest := rfl
@[simp] theorem State.arrive_clamp (s : State) (op : Byte) : (s.arrive op).clamp = s.clamp := rfl
@[simp] theorem State.arrive_cursor (s : State) (op : Byte) : (s.arrive op).cursor = s.cursor := rfl
@[simp] theorem State.arrive_outcome (s : State) (op : Byte) : (s.arrive op).outcome = s.outcome := rfl
@[simp] theorem State.arrive_plans (s : State) (op : Byte) : (s.arrive op).plans = s.plans := rfl
@[simp] theorem State.arrive_image (s : State) (op : Byte) : (s.arrive op).image = s.image := rfl
@[simp] theorem State.arrive_backups (s : State) (op : Byte) : (s.arrive op).backups = s.backups := rfl
@[simp] theorem State.arrive_env (s : State) (op : Byte) : (s.arrive op).env = s.env := rfl
@[simp] theorem State.arrive_draws (s : State) (op : Byte) : (s.arrive op).draws = s.draws := rfl

/-! ### `State.spendEnv`: an environment choice is spent -/

@[simp] theorem State.spendEnv_params (s : State) : (s.spendEnv).params = s.params := rfl
@[simp] theorem State.spendEnv_pins (s : State) : (s.spendEnv).pins = s.pins := rfl
@[simp] theorem State.spendEnv_frames (s : State) : (s.spendEnv).frames = s.frames := rfl
@[simp] theorem State.spendEnv_linkOpen (s : State) : (s.spendEnv).linkOpen = s.linkOpen := rfl
@[simp] theorem State.spendEnv_fifo (s : State) : (s.spendEnv).fifo = s.fifo := rfl
@[simp] theorem State.spendEnv_lost (s : State) : (s.spendEnv).lost = s.lost := rfl
@[simp] theorem State.spendEnv_fsr (s : State) : (s.spendEnv).fsr = s.fsr := rfl
@[simp] theorem State.spendEnv_fpcr (s : State) : (s.spendEnv).fpcr = s.fpcr := rfl
@[simp] theorem State.spendEnv_main (s : State) : (s.spendEnv).main = s.main := rfl
@[simp] theorem State.spendEnv_info (s : State) : (s.spendEnv).info = s.info := rfl
@[simp] theorem State.spendEnv_progmode (s : State) : (s.spendEnv).progmode = s.progmode := rfl
@[simp] theorem State.spendEnv_shiftIn (s : State) : (s.spendEnv).shiftIn = s.shiftIn := rfl
@[simp] theorem State.spendEnv_shiftPos (s : State) : (s.spendEnv).shiftPos = s.shiftPos := rfl
@[simp] theorem State.spendEnv_resp (s : State) : (s.spendEnv).resp = s.resp := rfl
@[simp] theorem State.spendEnv_received (s : State) : (s.spendEnv).received = s.received := rfl
@[simp] theorem State.spendEnv_requests (s : State) : (s.spendEnv).requests = s.requests := rfl
@[simp] theorem State.spendEnv_tasks (s : State) : (s.spendEnv).tasks = s.tasks := rfl
@[simp] theorem State.spendEnv_buffer (s : State) : (s.spendEnv).buffer = s.buffer := rfl
@[simp] theorem State.spendEnv_dest (s : State) : (s.spendEnv).dest = s.dest := rfl
@[simp] theorem State.spendEnv_clamp (s : State) : (s.spendEnv).clamp = s.clamp := rfl
@[simp] theorem State.spendEnv_cursor (s : State) : (s.spendEnv).cursor = s.cursor := rfl
@[simp] theorem State.spendEnv_outcome (s : State) : (s.spendEnv).outcome = s.outcome := rfl
@[simp] theorem State.spendEnv_plans (s : State) : (s.spendEnv).plans = s.plans := rfl
@[simp] theorem State.spendEnv_image (s : State) : (s.spendEnv).image = s.image := rfl
@[simp] theorem State.spendEnv_backups (s : State) : (s.spendEnv).backups = s.backups := rfl
@[simp] theorem State.spendEnv_env (s : State) : (s.spendEnv).env = s.env.tail := rfl
@[simp] theorem State.spendEnv_draws (s : State) : (s.spendEnv).draws = s.draws := rfl

/-! ### `State.setLines`: the frame level writes back -/

@[simp] theorem State.setLines_params (s : State) (l : Lines) : (s.setLines l).params = s.params := rfl
@[simp] theorem State.setLines_pins (s : State) (l : Lines) : (s.setLines l).pins = l.levels := rfl
@[simp] theorem State.setLines_frames (s : State) (l : Lines) : (s.setLines l).frames = s.frames := rfl
@[simp] theorem State.setLines_linkOpen (s : State) (l : Lines) : (s.setLines l).linkOpen = s.linkOpen := rfl
@[simp] theorem State.setLines_fifo (s : State) (l : Lines) : (s.setLines l).fifo = l.fifo := rfl
@[simp] theorem State.setLines_lost (s : State) (l : Lines) : (s.setLines l).lost = s.lost := rfl
@[simp] theorem State.setLines_fsr (s : State) (l : Lines) : (s.setLines l).fsr = s.fsr := rfl
@[simp] theorem State.setLines_fpcr (s : State) (l : Lines) : (s.setLines l).fpcr = s.fpcr := rfl
@[simp] theorem State.setLines_main (s : State) (l : Lines) : (s.setLines l).main = s.main := rfl
@[simp] theorem State.setLines_info (s : State) (l : Lines) : (s.setLines l).info = s.info := rfl
@[simp] theorem State.setLines_progmode (s : State) (l : Lines) : (s.setLines l).progmode = s.progmode := rfl
@[simp] theorem State.setLines_shiftIn (s : State) (l : Lines) : (s.setLines l).shiftIn = l.bits := rfl
@[simp] theorem State.setLines_shiftPos (s : State) (l : Lines) : (s.setLines l).shiftPos = l.pos := rfl
@[simp] theorem State.setLines_resp (s : State) (l : Lines) : (s.setLines l).resp = s.resp := rfl
@[simp] theorem State.setLines_received (s : State) (l : Lines) : (s.setLines l).received = s.received := rfl
@[simp] theorem State.setLines_requests (s : State) (l : Lines) : (s.setLines l).requests = s.requests := rfl
@[simp] theorem State.setLines_tasks (s : State) (l : Lines) : (s.setLines l).tasks = s.tasks := rfl
@[simp] theorem State.setLines_buffer (s : State) (l : Lines) : (s.setLines l).buffer = s.buffer := rfl
@[simp] theorem State.setLines_dest (s : State) (l : Lines) : (s.setLines l).dest = s.dest := rfl
@[simp] theorem State.setLines_clamp (s : State) (l : Lines) : (s.setLines l).clamp = s.clamp := rfl
@[simp] theorem State.setLines_cursor (s : State) (l : Lines) : (s.setLines l).cursor = s.cursor := rfl
@[simp] theorem State.setLines_outcome (s : State) (l : Lines) : (s.setLines l).outcome = s.outcome := rfl
@[simp] theorem State.setLines_plans (s : State) (l : Lines) : (s.setLines l).plans = s.plans := rfl
@[simp] theorem State.setLines_image (s : State) (l : Lines) : (s.setLines l).image = s.image := rfl
@[simp] theorem State.setLines_backups (s : State) (l : Lines) : (s.setLines l).backups = s.backups := rfl
@[simp] theorem State.setLines_env (s : State) (l : Lines) : (s.setLines l).env = s.env := rfl
@[simp] theorem State.setLines_draws (s : State) (l : Lines) : (s.setLines l).draws = s.draws := rfl

/-! ### `State.transferred`: a transfer completes -/

@[simp] theorem State.transferred_params (s : State) (fs : List Byte) (r : Lines × List Byte) : (s.transferred fs r).params = s.params := rfl
@[simp] theorem State.transferred_pins (s : State) (fs : List Byte) (r : Lines × List Byte) : (s.transferred fs r).pins = r.1.levels := rfl
@[simp] theorem State.transferred_frames (s : State) (fs : List Byte) (r : Lines × List Byte) : (s.transferred fs r).frames = fs := rfl
@[simp] theorem State.transferred_linkOpen (s : State) (fs : List Byte) (r : Lines × List Byte) : (s.transferred fs r).linkOpen = s.linkOpen := rfl
@[simp] theorem State.transferred_fifo (s : State) (fs : List Byte) (r : Lines × List Byte) : (s.transferred fs r).fifo = r.1.fifo := rfl
@[simp] theorem State.transferred_lost (s : State) (fs : List Byte) (r : Lines × List Byte) : (s.transferred fs r).lost = s.lost := rfl
@[simp] theorem State.transferred_fsr (s : State) (fs : List Byte) (r : Lines × List Byte) : (s.transferred fs r).fsr = s.fsr := rfl
@[simp] theorem State.transferred_fpcr (s : State) (fs : List Byte) (r : Lines × List Byte) : (s.transferred fs r).fpcr = s.fpcr := rfl
@[simp] theorem State.transferred_main (s : State) (fs : List Byte) (r : Lines × List Byte) : (s.transferred fs r).main = s.main := rfl
@[simp] theorem State.transferred_info (s : State) (fs : List Byte) (r : Lines × List Byte) : (s.transferred fs r).info = s.info := rfl
@[simp] theorem State.transferred_progmode (s : State) (fs : List Byte) (r : Lines × List Byte) : (s.transferred fs r).progmode = s.progmode := rfl
@[simp] theorem State.transferred_shiftIn (s : State) (fs : List Byte) (r : Lines × List Byte) : (s.transferred fs r).shiftIn = r.1.bits := rfl
@[simp] theorem State.transferred_shiftPos (s : State) (fs : List Byte) (r : Lines × List Byte) : (s.transferred fs r).shiftPos = r.1.pos := rfl
@[simp] theorem State.transferred_resp (s : State) (fs : List Byte) (r : Lines × List Byte) : (s.transferred fs r).resp = s.resp := rfl
@[simp] theorem State.transferred_received (s : State) (fs : List Byte) (r : Lines × List Byte) : (s.transferred fs r).received = s.received := rfl
@[simp] theorem State.transferred_requests (s : State) (fs : List Byte) (r : Lines × List Byte) : (s.transferred fs r).requests = s.requests := rfl
@[simp] theorem State.transferred_tasks (s : State) (fs : List Byte) (r : Lines × List Byte) : (s.transferred fs r).tasks = s.tasks := rfl
@[simp] theorem State.transferred_buffer (s : State) (fs : List Byte) (r : Lines × List Byte) : (s.transferred fs r).buffer = r.2 := rfl
@[simp] theorem State.transferred_dest (s : State) (fs : List Byte) (r : Lines × List Byte) : (s.transferred fs r).dest = s.dest := rfl
@[simp] theorem State.transferred_clamp (s : State) (fs : List Byte) (r : Lines × List Byte) : (s.transferred fs r).clamp = s.clamp := rfl
@[simp] theorem State.transferred_cursor (s : State) (fs : List Byte) (r : Lines × List Byte) : (s.transferred fs r).cursor = s.cursor := rfl
@[simp] theorem State.transferred_outcome (s : State) (fs : List Byte) (r : Lines × List Byte) : (s.transferred fs r).outcome = s.outcome := rfl
@[simp] theorem State.transferred_plans (s : State) (fs : List Byte) (r : Lines × List Byte) : (s.transferred fs r).plans = s.plans := rfl
@[simp] theorem State.transferred_image (s : State) (fs : List Byte) (r : Lines × List Byte) : (s.transferred fs r).image = s.image := rfl
@[simp] theorem State.transferred_backups (s : State) (fs : List Byte) (r : Lines × List Byte) : (s.transferred fs r).backups = s.backups := rfl
@[simp] theorem State.transferred_env (s : State) (fs : List Byte) (r : Lines × List Byte) : (s.transferred fs r).env = s.env.tail := rfl
@[simp] theorem State.transferred_draws (s : State) (fs : List Byte) (r : Lines × List Byte) : (s.transferred fs r).draws = s.draws := rfl

/-! ### `State.transportUnknown`: the transport's state becomes unknown -/

@[simp] theorem State.transportUnknown_params (s : State) : (s.transportUnknown).params = s.params := rfl
@[simp] theorem State.transportUnknown_pins (s : State) : (s.transportUnknown).pins = s.pins := rfl
@[simp] theorem State.transportUnknown_frames (s : State) : (s.transportUnknown).frames = s.frames := rfl
@[simp] theorem State.transportUnknown_linkOpen (s : State) : (s.transportUnknown).linkOpen = s.linkOpen := rfl
@[simp] theorem State.transportUnknown_fifo (s : State) : (s.transportUnknown).fifo = (Config.freeSamples s.draws).take s.params.fifoCap := rfl
@[simp] theorem State.transportUnknown_lost (s : State) : (s.transportUnknown).lost = true := rfl
@[simp] theorem State.transportUnknown_fsr (s : State) : (s.transportUnknown).fsr = s.fsr := rfl
@[simp] theorem State.transportUnknown_fpcr (s : State) : (s.transportUnknown).fpcr = s.fpcr := rfl
@[simp] theorem State.transportUnknown_main (s : State) : (s.transportUnknown).main = s.main := rfl
@[simp] theorem State.transportUnknown_info (s : State) : (s.transportUnknown).info = s.info := rfl
@[simp] theorem State.transportUnknown_progmode (s : State) : (s.transportUnknown).progmode = s.progmode := rfl
@[simp] theorem State.transportUnknown_shiftIn (s : State) : (s.transportUnknown).shiftIn = Config.freeShift s.draws := rfl
@[simp] theorem State.transportUnknown_shiftPos (s : State) : (s.transportUnknown).shiftPos = Config.freeCount s.draws := rfl
@[simp] theorem State.transportUnknown_resp (s : State) : (s.transportUnknown).resp = s.resp := rfl
@[simp] theorem State.transportUnknown_received (s : State) : (s.transportUnknown).received = s.received := rfl
@[simp] theorem State.transportUnknown_requests (s : State) : (s.transportUnknown).requests = s.requests := rfl
@[simp] theorem State.transportUnknown_tasks (s : State) : (s.transportUnknown).tasks = s.tasks := rfl
@[simp] theorem State.transportUnknown_buffer (s : State) : (s.transportUnknown).buffer = s.buffer := rfl
@[simp] theorem State.transportUnknown_dest (s : State) : (s.transportUnknown).dest = s.dest := rfl
@[simp] theorem State.transportUnknown_clamp (s : State) : (s.transportUnknown).clamp = s.clamp := rfl
@[simp] theorem State.transportUnknown_cursor (s : State) : (s.transportUnknown).cursor = s.cursor := rfl
@[simp] theorem State.transportUnknown_outcome (s : State) : (s.transportUnknown).outcome = s.outcome := rfl
@[simp] theorem State.transportUnknown_plans (s : State) : (s.transportUnknown).plans = s.plans := rfl
@[simp] theorem State.transportUnknown_image (s : State) : (s.transportUnknown).image = s.image := rfl
@[simp] theorem State.transportUnknown_backups (s : State) : (s.transportUnknown).backups = s.backups := rfl
@[simp] theorem State.transportUnknown_env (s : State) : (s.transportUnknown).env = s.env := rfl
@[simp] theorem State.transportUnknown_draws (s : State) : (s.transportUnknown).draws = s.draws + 1 := rfl

/-! ### `State.transferFailed`: a transfer fails -/

@[simp] theorem State.transferFailed_params (s : State) (fs bs : List Byte) (f : Byte) (m : List Byte) : (s.transferFailed fs bs f m).params = s.params := rfl
@[simp] theorem State.transferFailed_pins (s : State) (fs bs : List Byte) (f : Byte) (m : List Byte) : (s.transferFailed fs bs f m).pins = f := rfl
@[simp] theorem State.transferFailed_frames (s : State) (fs bs : List Byte) (f : Byte) (m : List Byte) : (s.transferFailed fs bs f m).frames = fs := rfl
@[simp] theorem State.transferFailed_linkOpen (s : State) (fs bs : List Byte) (f : Byte) (m : List Byte) : (s.transferFailed fs bs f m).linkOpen = s.linkOpen := rfl
@[simp] theorem State.transferFailed_fifo (s : State) (fs bs : List Byte) (f : Byte) (m : List Byte) : (s.transferFailed fs bs f m).fifo = (Config.freeSamples s.draws).take s.params.fifoCap := rfl
@[simp] theorem State.transferFailed_lost (s : State) (fs bs : List Byte) (f : Byte) (m : List Byte) : (s.transferFailed fs bs f m).lost = true := rfl
@[simp] theorem State.transferFailed_fsr (s : State) (fs bs : List Byte) (f : Byte) (m : List Byte) : (s.transferFailed fs bs f m).fsr = s.fsr := rfl
@[simp] theorem State.transferFailed_fpcr (s : State) (fs bs : List Byte) (f : Byte) (m : List Byte) : (s.transferFailed fs bs f m).fpcr = s.fpcr := rfl
@[simp] theorem State.transferFailed_main (s : State) (fs bs : List Byte) (f : Byte) (m : List Byte) : (s.transferFailed fs bs f m).main = s.main := rfl
@[simp] theorem State.transferFailed_info (s : State) (fs bs : List Byte) (f : Byte) (m : List Byte) : (s.transferFailed fs bs f m).info = s.info := rfl
@[simp] theorem State.transferFailed_progmode (s : State) (fs bs : List Byte) (f : Byte) (m : List Byte) : (s.transferFailed fs bs f m).progmode = s.progmode := rfl
@[simp] theorem State.transferFailed_shiftIn (s : State) (fs bs : List Byte) (f : Byte) (m : List Byte) : (s.transferFailed fs bs f m).shiftIn = Config.freeShift s.draws := rfl
@[simp] theorem State.transferFailed_shiftPos (s : State) (fs bs : List Byte) (f : Byte) (m : List Byte) : (s.transferFailed fs bs f m).shiftPos = Config.freeCount s.draws := rfl
@[simp] theorem State.transferFailed_resp (s : State) (fs bs : List Byte) (f : Byte) (m : List Byte) : (s.transferFailed fs bs f m).resp = s.resp := rfl
@[simp] theorem State.transferFailed_received (s : State) (fs bs : List Byte) (f : Byte) (m : List Byte) : (s.transferFailed fs bs f m).received = s.received := rfl
@[simp] theorem State.transferFailed_requests (s : State) (fs bs : List Byte) (f : Byte) (m : List Byte) : (s.transferFailed fs bs f m).requests = s.requests := rfl
@[simp] theorem State.transferFailed_tasks (s : State) (fs bs : List Byte) (f : Byte) (m : List Byte) : (s.transferFailed fs bs f m).tasks = s.tasks := rfl
@[simp] theorem State.transferFailed_buffer (s : State) (fs bs : List Byte) (f : Byte) (m : List Byte) : (s.transferFailed fs bs f m).buffer = callersBuffer s.tasks (bs ++ m.drop bs.length) := rfl
@[simp] theorem State.transferFailed_dest (s : State) (fs bs : List Byte) (f : Byte) (m : List Byte) : (s.transferFailed fs bs f m).dest = s.dest := rfl
@[simp] theorem State.transferFailed_clamp (s : State) (fs bs : List Byte) (f : Byte) (m : List Byte) : (s.transferFailed fs bs f m).clamp = s.clamp := rfl
@[simp] theorem State.transferFailed_cursor (s : State) (fs bs : List Byte) (f : Byte) (m : List Byte) : (s.transferFailed fs bs f m).cursor = s.cursor := rfl
@[simp] theorem State.transferFailed_outcome (s : State) (fs bs : List Byte) (f : Byte) (m : List Byte) : (s.transferFailed fs bs f m).outcome = s.outcome := rfl
@[simp] theorem State.transferFailed_plans (s : State) (fs bs : List Byte) (f : Byte) (m : List Byte) : (s.transferFailed fs bs f m).plans = s.plans := rfl
@[simp] theorem State.transferFailed_image (s : State) (fs bs : List Byte) (f : Byte) (m : List Byte) : (s.transferFailed fs bs f m).image = s.image := rfl
@[simp] theorem State.transferFailed_backups (s : State) (fs bs : List Byte) (f : Byte) (m : List Byte) : (s.transferFailed fs bs f m).backups = s.backups := rfl
@[simp] theorem State.transferFailed_env (s : State) (fs bs : List Byte) (f : Byte) (m : List Byte) : (s.transferFailed fs bs f m).env = s.env.tail := rfl
@[simp] theorem State.transferFailed_draws (s : State) (fs bs : List Byte) (f : Byte) (m : List Byte) : (s.transferFailed fs bs f m).draws = s.draws + 1 := rfl

/-! ### `State.emulatorFailed`: a transfer over the emulator fails -/

@[simp] theorem State.emulatorFailed_params (s : State) (m : List Byte) : (s.emulatorFailed m).params = s.params := rfl
@[simp] theorem State.emulatorFailed_pins (s : State) (m : List Byte) : (s.emulatorFailed m).pins = s.pins := rfl
@[simp] theorem State.emulatorFailed_frames (s : State) (m : List Byte) : (s.emulatorFailed m).frames = [] := rfl
@[simp] theorem State.emulatorFailed_linkOpen (s : State) (m : List Byte) : (s.emulatorFailed m).linkOpen = s.linkOpen := rfl
@[simp] theorem State.emulatorFailed_fifo (s : State) (m : List Byte) : (s.emulatorFailed m).fifo = s.fifo := rfl
@[simp] theorem State.emulatorFailed_lost (s : State) (m : List Byte) : (s.emulatorFailed m).lost = true := rfl
@[simp] theorem State.emulatorFailed_fsr (s : State) (m : List Byte) : (s.emulatorFailed m).fsr = s.fsr := rfl
@[simp] theorem State.emulatorFailed_fpcr (s : State) (m : List Byte) : (s.emulatorFailed m).fpcr = s.fpcr := rfl
@[simp] theorem State.emulatorFailed_main (s : State) (m : List Byte) : (s.emulatorFailed m).main = s.main := rfl
@[simp] theorem State.emulatorFailed_info (s : State) (m : List Byte) : (s.emulatorFailed m).info = s.info := rfl
@[simp] theorem State.emulatorFailed_progmode (s : State) (m : List Byte) : (s.emulatorFailed m).progmode = s.progmode := rfl
@[simp] theorem State.emulatorFailed_shiftIn (s : State) (m : List Byte) : (s.emulatorFailed m).shiftIn = s.shiftIn := rfl
@[simp] theorem State.emulatorFailed_shiftPos (s : State) (m : List Byte) : (s.emulatorFailed m).shiftPos = s.shiftPos := rfl
@[simp] theorem State.emulatorFailed_resp (s : State) (m : List Byte) : (s.emulatorFailed m).resp = s.resp := rfl
@[simp] theorem State.emulatorFailed_received (s : State) (m : List Byte) : (s.emulatorFailed m).received = s.received := rfl
@[simp] theorem State.emulatorFailed_requests (s : State) (m : List Byte) : (s.emulatorFailed m).requests = s.requests := rfl
@[simp] theorem State.emulatorFailed_tasks (s : State) (m : List Byte) : (s.emulatorFailed m).tasks = s.tasks := rfl
@[simp] theorem State.emulatorFailed_buffer (s : State) (m : List Byte) : (s.emulatorFailed m).buffer = callersBuffer s.tasks m := rfl
@[simp] theorem State.emulatorFailed_dest (s : State) (m : List Byte) : (s.emulatorFailed m).dest = s.dest := rfl
@[simp] theorem State.emulatorFailed_clamp (s : State) (m : List Byte) : (s.emulatorFailed m).clamp = s.clamp := rfl
@[simp] theorem State.emulatorFailed_cursor (s : State) (m : List Byte) : (s.emulatorFailed m).cursor = s.cursor := rfl
@[simp] theorem State.emulatorFailed_outcome (s : State) (m : List Byte) : (s.emulatorFailed m).outcome = s.outcome := rfl
@[simp] theorem State.emulatorFailed_plans (s : State) (m : List Byte) : (s.emulatorFailed m).plans = s.plans := rfl
@[simp] theorem State.emulatorFailed_image (s : State) (m : List Byte) : (s.emulatorFailed m).image = s.image := rfl
@[simp] theorem State.emulatorFailed_backups (s : State) (m : List Byte) : (s.emulatorFailed m).backups = s.backups := rfl
@[simp] theorem State.emulatorFailed_env (s : State) (m : List Byte) : (s.emulatorFailed m).env = s.env.tail := rfl
@[simp] theorem State.emulatorFailed_draws (s : State) (m : List Byte) : (s.emulatorFailed m).draws = s.draws := rfl

/-! ### `State.maybeArrive`: a command in flight may count as received -/

@[simp] theorem State.maybeArrive_params (s : State) (m : List Byte) : (s.maybeArrive m).params = s.params := rfl
@[simp] theorem State.maybeArrive_pins (s : State) (m : List Byte) : (s.maybeArrive m).pins = s.pins := rfl
@[simp] theorem State.maybeArrive_frames (s : State) (m : List Byte) : (s.maybeArrive m).frames = s.frames := rfl
@[simp] theorem State.maybeArrive_linkOpen (s : State) (m : List Byte) : (s.maybeArrive m).linkOpen = s.linkOpen := rfl
@[simp] theorem State.maybeArrive_fifo (s : State) (m : List Byte) : (s.maybeArrive m).fifo = s.fifo := rfl
@[simp] theorem State.maybeArrive_lost (s : State) (m : List Byte) : (s.maybeArrive m).lost = s.lost := rfl
@[simp] theorem State.maybeArrive_fsr (s : State) (m : List Byte) : (s.maybeArrive m).fsr = s.fsr := rfl
@[simp] theorem State.maybeArrive_fpcr (s : State) (m : List Byte) : (s.maybeArrive m).fpcr = s.fpcr := rfl
@[simp] theorem State.maybeArrive_main (s : State) (m : List Byte) : (s.maybeArrive m).main = s.main := rfl
@[simp] theorem State.maybeArrive_info (s : State) (m : List Byte) : (s.maybeArrive m).info = s.info := rfl
@[simp] theorem State.maybeArrive_progmode (s : State) (m : List Byte) : (s.maybeArrive m).progmode = s.progmode := rfl
@[simp] theorem State.maybeArrive_shiftIn (s : State) (m : List Byte) : (s.maybeArrive m).shiftIn = s.shiftIn := rfl
@[simp] theorem State.maybeArrive_shiftPos (s : State) (m : List Byte) : (s.maybeArrive m).shiftPos = s.shiftPos := rfl
@[simp] theorem State.maybeArrive_resp (s : State) (m : List Byte) : (s.maybeArrive m).resp = s.resp := rfl
@[simp] theorem State.maybeArrive_received (s : State) (m : List Byte) : (s.maybeArrive m).received = (if s.freeBit 0 then m.take 1 else []) ++ s.received := rfl
@[simp] theorem State.maybeArrive_requests (s : State) (m : List Byte) : (s.maybeArrive m).requests = s.requests := rfl
@[simp] theorem State.maybeArrive_tasks (s : State) (m : List Byte) : (s.maybeArrive m).tasks = s.tasks := rfl
@[simp] theorem State.maybeArrive_buffer (s : State) (m : List Byte) : (s.maybeArrive m).buffer = s.buffer := rfl
@[simp] theorem State.maybeArrive_dest (s : State) (m : List Byte) : (s.maybeArrive m).dest = s.dest := rfl
@[simp] theorem State.maybeArrive_clamp (s : State) (m : List Byte) : (s.maybeArrive m).clamp = s.clamp := rfl
@[simp] theorem State.maybeArrive_cursor (s : State) (m : List Byte) : (s.maybeArrive m).cursor = s.cursor := rfl
@[simp] theorem State.maybeArrive_outcome (s : State) (m : List Byte) : (s.maybeArrive m).outcome = s.outcome := rfl
@[simp] theorem State.maybeArrive_plans (s : State) (m : List Byte) : (s.maybeArrive m).plans = s.plans := rfl
@[simp] theorem State.maybeArrive_image (s : State) (m : List Byte) : (s.maybeArrive m).image = s.image := rfl
@[simp] theorem State.maybeArrive_backups (s : State) (m : List Byte) : (s.maybeArrive m).backups = s.backups := rfl
@[simp] theorem State.maybeArrive_env (s : State) (m : List Byte) : (s.maybeArrive m).env = s.env := rfl
@[simp] theorem State.maybeArrive_draws (s : State) (m : List Byte) : (s.maybeArrive m).draws = s.draws + 1 := rfl

/-! ### `State.entered`: program mode is being entered -/

@[simp] theorem State.entered_params (s : State) (fs : List Byte) (x : Byte) : (s.entered fs x).params = s.params := rfl
@[simp] theorem State.entered_pins (s : State) (fs : List Byte) (x : Byte) : (s.entered fs x).pins = x := rfl
@[simp] theorem State.entered_frames (s : State) (fs : List Byte) (x : Byte) : (s.entered fs x).frames = fs := rfl
@[simp] theorem State.entered_linkOpen (s : State) (fs : List Byte) (x : Byte) : (s.entered fs x).linkOpen = true := rfl
@[simp] theorem State.entered_fifo (s : State) (fs : List Byte) (x : Byte) : (s.entered fs x).fifo = [] := rfl
@[simp] theorem State.entered_lost (s : State) (fs : List Byte) (x : Byte) : (s.entered fs x).lost = false := rfl
@[simp] theorem State.entered_fsr (s : State) (fs : List Byte) (x : Byte) : (s.entered fs x).fsr = s.freeByte 0 := rfl
@[simp] theorem State.entered_fpcr (s : State) (fs : List Byte) (x : Byte) : (s.entered fs x).fpcr = s.freeByte 1 := rfl
@[simp] theorem State.entered_main (s : State) (fs : List Byte) (x : Byte) : (s.entered fs x).main = s.main := rfl
@[simp] theorem State.entered_info (s : State) (fs : List Byte) (x : Byte) : (s.entered fs x).info = s.info := rfl
@[simp] theorem State.entered_progmode (s : State) (fs : List Byte) (x : Byte) : (s.entered fs x).progmode = s.progmode := rfl
@[simp] theorem State.entered_shiftIn (s : State) (fs : List Byte) (x : Byte) : (s.entered fs x).shiftIn = [] := rfl
@[simp] theorem State.entered_shiftPos (s : State) (fs : List Byte) (x : Byte) : (s.entered fs x).shiftPos = 0 := rfl
@[simp] theorem State.entered_resp (s : State) (fs : List Byte) (x : Byte) : (s.entered fs x).resp = [] := rfl
@[simp] theorem State.entered_received (s : State) (fs : List Byte) (x : Byte) : (s.entered fs x).received = s.received := rfl
@[simp] theorem State.entered_requests (s : State) (fs : List Byte) (x : Byte) : (s.entered fs x).requests = s.requests := rfl
@[simp] theorem State.entered_tasks (s : State) (fs : List Byte) (x : Byte) : (s.entered fs x).tasks = .settle :: s.tasks := rfl
@[simp] theorem State.entered_buffer (s : State) (fs : List Byte) (x : Byte) : (s.entered fs x).buffer = s.buffer := rfl
@[simp] theorem State.entered_dest (s : State) (fs : List Byte) (x : Byte) : (s.entered fs x).dest = s.dest := rfl
@[simp] theorem State.entered_clamp (s : State) (fs : List Byte) (x : Byte) : (s.entered fs x).clamp = s.clamp := rfl
@[simp] theorem State.entered_cursor (s : State) (fs : List Byte) (x : Byte) : (s.entered fs x).cursor = s.cursor := rfl
@[simp] theorem State.entered_outcome (s : State) (fs : List Byte) (x : Byte) : (s.entered fs x).outcome = s.outcome := rfl
@[simp] theorem State.entered_plans (s : State) (fs : List Byte) (x : Byte) : (s.entered fs x).plans = s.plans := rfl
@[simp] theorem State.entered_image (s : State) (fs : List Byte) (x : Byte) : (s.entered fs x).image = s.image := rfl
@[simp] theorem State.entered_backups (s : State) (fs : List Byte) (x : Byte) : (s.entered fs x).backups = s.backups := rfl
@[simp] theorem State.entered_env (s : State) (fs : List Byte) (x : Byte) : (s.entered fs x).env = s.env.tail := rfl
@[simp] theorem State.entered_draws (s : State) (fs : List Byte) (x : Byte) : (s.entered fs x).draws = s.draws + 2 := rfl

/-! ### `State.entryFailed`: program-mode entry fails -/

@[simp] theorem State.entryFailed_params (s : State) (fs : List Byte) (x : Byte) : (s.entryFailed fs x).params = s.params := rfl
@[simp] theorem State.entryFailed_pins (s : State) (fs : List Byte) (x : Byte) : (s.entryFailed fs x).pins = x := rfl
@[simp] theorem State.entryFailed_frames (s : State) (fs : List Byte) (x : Byte) : (s.entryFailed fs x).frames = fs := rfl
@[simp] theorem State.entryFailed_linkOpen (s : State) (fs : List Byte) (x : Byte) : (s.entryFailed fs x).linkOpen = true := rfl
@[simp] theorem State.entryFailed_fifo (s : State) (fs : List Byte) (x : Byte) : (s.entryFailed fs x).fifo = (Config.freeSamples (s.draws + 2)).take s.params.fifoCap := rfl
@[simp] theorem State.entryFailed_lost (s : State) (fs : List Byte) (x : Byte) : (s.entryFailed fs x).lost = true := rfl
@[simp] theorem State.entryFailed_fsr (s : State) (fs : List Byte) (x : Byte) : (s.entryFailed fs x).fsr = s.freeByte 0 := rfl
@[simp] theorem State.entryFailed_fpcr (s : State) (fs : List Byte) (x : Byte) : (s.entryFailed fs x).fpcr = s.freeByte 1 := rfl
@[simp] theorem State.entryFailed_main (s : State) (fs : List Byte) (x : Byte) : (s.entryFailed fs x).main = s.main := rfl
@[simp] theorem State.entryFailed_info (s : State) (fs : List Byte) (x : Byte) : (s.entryFailed fs x).info = s.info := rfl
@[simp] theorem State.entryFailed_progmode (s : State) (fs : List Byte) (x : Byte) : (s.entryFailed fs x).progmode = (s.progmode || s.freeBit 3) := rfl
@[simp] theorem State.entryFailed_shiftIn (s : State) (fs : List Byte) (x : Byte) : (s.entryFailed fs x).shiftIn = Config.freeShift (s.draws + 2) := rfl
@[simp] theorem State.entryFailed_shiftPos (s : State) (fs : List Byte) (x : Byte) : (s.entryFailed fs x).shiftPos = Config.freeCount (s.draws + 2) := rfl
@[simp] theorem State.entryFailed_resp (s : State) (fs : List Byte) (x : Byte) : (s.entryFailed fs x).resp = [] := rfl
@[simp] theorem State.entryFailed_received (s : State) (fs : List Byte) (x : Byte) : (s.entryFailed fs x).received = s.received := rfl
@[simp] theorem State.entryFailed_requests (s : State) (fs : List Byte) (x : Byte) : (s.entryFailed fs x).requests = s.requests := rfl
@[simp] theorem State.entryFailed_tasks (s : State) (fs : List Byte) (x : Byte) : (s.entryFailed fs x).tasks = s.tasks := rfl
@[simp] theorem State.entryFailed_buffer (s : State) (fs : List Byte) (x : Byte) : (s.entryFailed fs x).buffer = s.buffer := rfl
@[simp] theorem State.entryFailed_dest (s : State) (fs : List Byte) (x : Byte) : (s.entryFailed fs x).dest = s.dest := rfl
@[simp] theorem State.entryFailed_clamp (s : State) (fs : List Byte) (x : Byte) : (s.entryFailed fs x).clamp = s.clamp := rfl
@[simp] theorem State.entryFailed_cursor (s : State) (fs : List Byte) (x : Byte) : (s.entryFailed fs x).cursor = s.cursor := rfl
@[simp] theorem State.entryFailed_outcome (s : State) (fs : List Byte) (x : Byte) : (s.entryFailed fs x).outcome = s.outcome := rfl
@[simp] theorem State.entryFailed_plans (s : State) (fs : List Byte) (x : Byte) : (s.entryFailed fs x).plans = s.plans := rfl
@[simp] theorem State.entryFailed_image (s : State) (fs : List Byte) (x : Byte) : (s.entryFailed fs x).image = s.image := rfl
@[simp] theorem State.entryFailed_backups (s : State) (fs : List Byte) (x : Byte) : (s.entryFailed fs x).backups = s.backups := rfl
@[simp] theorem State.entryFailed_env (s : State) (fs : List Byte) (x : Byte) : (s.entryFailed fs x).env = s.env.tail := rfl
@[simp] theorem State.entryFailed_draws (s : State) (fs : List Byte) (x : Byte) : (s.entryFailed fs x).draws = s.draws + 4 := rfl

/-! ### `State.push`: steps are put in front -/

@[simp] theorem State.push_params (s : State) (ts : List Task) : (s.push ts).params = s.params := rfl
@[simp] theorem State.push_pins (s : State) (ts : List Task) : (s.push ts).pins = s.pins := rfl
@[simp] theorem State.push_frames (s : State) (ts : List Task) : (s.push ts).frames = s.frames := rfl
@[simp] theorem State.push_linkOpen (s : State) (ts : List Task) : (s.push ts).linkOpen = s.linkOpen := rfl
@[simp] theorem State.push_fifo (s : State) (ts : List Task) : (s.push ts).fifo = s.fifo := rfl
@[simp] theorem State.push_lost (s : State) (ts : List Task) : (s.push ts).lost = s.lost := rfl
@[simp] theorem State.push_fsr (s : State) (ts : List Task) : (s.push ts).fsr = s.fsr := rfl
@[simp] theorem State.push_fpcr (s : State) (ts : List Task) : (s.push ts).fpcr = s.fpcr := rfl
@[simp] theorem State.push_main (s : State) (ts : List Task) : (s.push ts).main = s.main := rfl
@[simp] theorem State.push_info (s : State) (ts : List Task) : (s.push ts).info = s.info := rfl
@[simp] theorem State.push_progmode (s : State) (ts : List Task) : (s.push ts).progmode = s.progmode := rfl
@[simp] theorem State.push_shiftIn (s : State) (ts : List Task) : (s.push ts).shiftIn = s.shiftIn := rfl
@[simp] theorem State.push_shiftPos (s : State) (ts : List Task) : (s.push ts).shiftPos = s.shiftPos := rfl
@[simp] theorem State.push_resp (s : State) (ts : List Task) : (s.push ts).resp = s.resp := rfl
@[simp] theorem State.push_received (s : State) (ts : List Task) : (s.push ts).received = s.received := rfl
@[simp] theorem State.push_requests (s : State) (ts : List Task) : (s.push ts).requests = s.requests := rfl
@[simp] theorem State.push_tasks (s : State) (ts : List Task) : (s.push ts).tasks = ts ++ s.tasks := rfl
@[simp] theorem State.push_buffer (s : State) (ts : List Task) : (s.push ts).buffer = s.buffer := rfl
@[simp] theorem State.push_dest (s : State) (ts : List Task) : (s.push ts).dest = s.dest := rfl
@[simp] theorem State.push_clamp (s : State) (ts : List Task) : (s.push ts).clamp = s.clamp := rfl
@[simp] theorem State.push_cursor (s : State) (ts : List Task) : (s.push ts).cursor = s.cursor := rfl
@[simp] theorem State.push_outcome (s : State) (ts : List Task) : (s.push ts).outcome = s.outcome := rfl
@[simp] theorem State.push_plans (s : State) (ts : List Task) : (s.push ts).plans = s.plans := rfl
@[simp] theorem State.push_image (s : State) (ts : List Task) : (s.push ts).image = s.image := rfl
@[simp] theorem State.push_backups (s : State) (ts : List Task) : (s.push ts).backups = s.backups := rfl
@[simp] theorem State.push_env (s : State) (ts : List Task) : (s.push ts).env = s.env := rfl
@[simp] theorem State.push_draws (s : State) (ts : List Task) : (s.push ts).draws = s.draws := rfl

/-! ### `State.setRegion`: the selected region is replaced -/

@[simp] theorem State.setRegion_params (s : State) (m : Memory) : (s.setRegion m).params = s.params := by
  unfold State.setRegion; split <;> rfl
@[simp] theorem State.setRegion_pins (s : State) (m : Memory) : (s.setRegion m).pins = s.pins := by
  unfold State.setRegion; split <;> rfl
@[simp] theorem State.setRegion_frames (s : State) (m : Memory) : (s.setRegion m).frames = s.frames := by
  unfold State.setRegion; split <;> rfl
@[simp] theorem State.setRegion_linkOpen (s : State) (m : Memory) : (s.setRegion m).linkOpen = s.linkOpen := by
  unfold State.setRegion; split <;> rfl
@[simp] theorem State.setRegion_fifo (s : State) (m : Memory) : (s.setRegion m).fifo = s.fifo := by
  unfold State.setRegion; split <;> rfl
@[simp] theorem State.setRegion_lost (s : State) (m : Memory) : (s.setRegion m).lost = s.lost := by
  unfold State.setRegion; split <;> rfl
@[simp] theorem State.setRegion_fsr (s : State) (m : Memory) : (s.setRegion m).fsr = s.fsr := by
  unfold State.setRegion; split <;> rfl
@[simp] theorem State.setRegion_fpcr (s : State) (m : Memory) : (s.setRegion m).fpcr = s.fpcr := by
  unfold State.setRegion; split <;> rfl
@[simp] theorem State.setRegion_progmode (s : State) (m : Memory) : (s.setRegion m).progmode = s.progmode := by
  unfold State.setRegion; split <;> rfl
@[simp] theorem State.setRegion_shiftIn (s : State) (m : Memory) : (s.setRegion m).shiftIn = s.shiftIn := by
  unfold State.setRegion; split <;> rfl
@[simp] theorem State.setRegion_shiftPos (s : State) (m : Memory) : (s.setRegion m).shiftPos = s.shiftPos := by
  unfold State.setRegion; split <;> rfl
@[simp] theorem State.setRegion_resp (s : State) (m : Memory) : (s.setRegion m).resp = s.resp := by
  unfold State.setRegion; split <;> rfl
@[simp] theorem State.setRegion_received (s : State) (m : Memory) : (s.setRegion m).received = s.received := by
  unfold State.setRegion; split <;> rfl
@[simp] theorem State.setRegion_requests (s : State) (m : Memory) : (s.setRegion m).requests = s.requests := by
  unfold State.setRegion; split <;> rfl
@[simp] theorem State.setRegion_tasks (s : State) (m : Memory) : (s.setRegion m).tasks = s.tasks := by
  unfold State.setRegion; split <;> rfl
@[simp] theorem State.setRegion_buffer (s : State) (m : Memory) : (s.setRegion m).buffer = s.buffer := by
  unfold State.setRegion; split <;> rfl
@[simp] theorem State.setRegion_dest (s : State) (m : Memory) : (s.setRegion m).dest = s.dest := by
  unfold State.setRegion; split <;> rfl
@[simp] theorem State.setRegion_clamp (s : State) (m : Memory) : (s.setRegion m).clamp = s.clamp := by
  unfold State.setRegion; split <;> rfl
@[simp] theorem State.setRegion_cursor (s : State) (m : Memory) : (s.setRegion m).cursor = s.cursor := by
  unfold State.setRegion; split <;> rfl
@[simp] theorem State.setRegion_outcome (s : State) (m : Memory) : (s.setRegion m).outcome = s.outcome := by
  unfold State.setRegion; split <;> rfl
@[simp] theorem State.setRegion_plans (s : State) (m : Memory) : (s.setRegion m).plans = s.plans := by
  unfold State.setRegion; split <;> rfl
@[simp] theorem State.setRegion_image (s : State) (m : Memory) : (s.setRegion m).image = s.image := by
  unfold State.setRegion; split <;> rfl
@[simp] theorem State.setRegion_backups (s : State) (m : Memory) : (s.setRegion m).backups = s.backups := by
  unfold State.setRegion; split <;> rfl
@[simp] theorem State.setRegion_env (s : State) (m : Memory) : (s.setRegion m).env = s.env := by
  unfold State.setRegion; split <;> rfl
@[simp] theorem State.setRegion_draws (s : State) (m : Memory) : (s.setRegion m).draws = s.draws := by
  unfold State.setRegion; split <;> rfl

@[simp] theorem State.setRegion_main (s : State) (m : Memory) :
    (s.setRegion m).main = if fsrInfen s.fsr then s.main else m := by
  unfold State.setRegion; split <;> rfl
@[simp] theorem State.setRegion_info (s : State) (m : Memory) :
    (s.setRegion m).info = if fsrInfen s.fsr then m else s.info := by
  unfold State.setRegion; split <;> rfl

/-! ### `State.readyStep`: the target becomes ready -/

@[simp] theorem State.readyStep_params (s : State) : s.readyStep.params = s.params := by
  unfold State.readyStep; split <;> rfl
@[simp] theorem State.readyStep_pins (s : State) : s.readyStep.pins = s.pins := by
  unfold State.readyStep; split <;> rfl
@[simp] theorem State.readyStep_frames (s : State) : s.readyStep.frames = s.frames := by
  unfold State.readyStep; split <;> rfl
@[simp] theorem State.readyStep_linkOpen (s : State) : s.readyStep.linkOpen = s.linkOpen := by
  unfold State.readyStep; split <;> rfl
@[simp] theorem State.readyStep_fifo (s : State) : s.readyStep.fifo = s.fifo := by
  unfold State.readyStep; split <;> rfl
@[simp] theorem State.readyStep_lost (s : State) : s.readyStep.lost = s.lost := by
  unfold State.readyStep; split <;> rfl
@[simp] theorem State.readyStep_fpcr (s : State) : s.readyStep.fpcr = s.fpcr := by
  unfold State.readyStep; split <;> rfl
@[simp] theorem State.readyStep_main (s : State) : s.readyStep.main = s.main := by
  unfold State.readyStep; split <;> rfl
@[simp] theorem State.readyStep_info (s : State) : s.readyStep.info = s.info := by
  unfold State.readyStep; split <;> rfl
@[simp] theorem State.readyStep_progmode (s : State) : s.readyStep.progmode = s.progmode := by
  unfold State.readyStep; split <;> rfl
@[simp] theorem State.readyStep_shiftIn (s : State) : s.readyStep.shiftIn = s.shiftIn := by
  unfold State.readyStep; split <;> rfl
@[simp] theorem State.readyStep_shiftPos (s : State) : s.readyStep.shiftPos = s.shiftPos := by
  unfold State.readyStep; split <;> rfl
@[simp] theorem State.readyStep_resp (s : State) : s.readyStep.resp = s.resp := by
  unfold State.readyStep; split <;> rfl
@[simp] theorem State.readyStep_received (s : State) : s.readyStep.received = s.received := by
  unfold State.readyStep; split <;> rfl
@[simp] theorem State.readyStep_requests (s : State) : s.readyStep.requests = s.requests := by
  unfold State.readyStep; split <;> rfl
@[simp] theorem State.readyStep_tasks (s : State) : s.readyStep.tasks = s.tasks := by
  unfold State.readyStep; split <;> rfl
@[simp] theorem State.readyStep_buffer (s : State) : s.readyStep.buffer = s.buffer := by
  unfold State.readyStep; split <;> rfl
@[simp] theorem State.readyStep_dest (s : State) : s.readyStep.dest = s.dest := by
  unfold State.readyStep; split <;> rfl
@[simp] theorem State.readyStep_clamp (s : State) : s.readyStep.clamp = s.clamp := by
  unfold State.readyStep; split <;> rfl
@[simp] theorem State.readyStep_cursor (s : State) : s.readyStep.cursor = s.cursor := by
  unfold State.readyStep; split <;> rfl
@[simp] theorem State.readyStep_outcome (s : State) : s.readyStep.outcome = s.outcome := by
  unfold State.readyStep; split <;> rfl
@[simp] theorem State.readyStep_plans (s : State) : s.readyStep.plans = s.plans := by
  unfold State.readyStep; split <;> rfl
@[simp] theorem State.readyStep_image (s : State) : s.readyStep.image = s.image := by
  unfold State.readyStep; split <;> rfl
@[simp] theorem State.readyStep_backups (s : State) : s.readyStep.backups = s.backups := by
  unfold State.readyStep; split <;> rfl
@[simp] theorem State.readyStep_env (s : State) : s.readyStep.env = s.env := by
  unfold State.readyStep; split <;> rfl

theorem State.readyStep_fsr (s : State) :
    s.readyStep.fsr = if fsrRdyn s.fsr then statusReady s.fsr (s.freeBit 0) else s.fsr := by
  unfold State.readyStep; split <;> rfl

/-! ### `State.answering`: the target drives its response, nothing else of the state moves -/

@[simp] theorem State.answering_params (s : State) (m : List Byte) : (s.answering m).params = s.params := by
  unfold State.answering; split <;> rfl
@[simp] theorem State.answering_pins (s : State) (m : List Byte) : (s.answering m).pins = s.pins := by
  unfold State.answering; split <;> rfl
@[simp] theorem State.answering_frames (s : State) (m : List Byte) : (s.answering m).frames = s.frames := by
  unfold State.answering; split <;> rfl
@[simp] theorem State.answering_linkOpen (s : State) (m : List Byte) : (s.answering m).linkOpen = s.linkOpen := by
  unfold State.answering; split <;> rfl
@[simp] theorem State.answering_fifo (s : State) (m : List Byte) : (s.answering m).fifo = s.fifo := by
  unfold State.answering; split <;> rfl
@[simp] theorem State.answering_lost (s : State) (m : List Byte) : (s.answering m).lost = s.lost := by
  unfold State.answering; split <;> rfl
@[simp] theorem State.answering_fsr (s : State) (m : List Byte) : (s.answering m).fsr = s.fsr := by
  unfold State.answering; split <;> rfl
@[simp] theorem State.answering_fpcr (s : State) (m : List Byte) : (s.answering m).fpcr = s.fpcr := by
  unfold State.answering; split <;> rfl
@[simp] theorem State.answering_main (s : State) (m : List Byte) : (s.answering m).main = s.main := by
  unfold State.answering; split <;> rfl
@[simp] theorem State.answering_info (s : State) (m : List Byte) : (s.answering m).info = s.info := by
  unfold State.answering; split <;> rfl
@[simp] theorem State.answering_progmode (s : State) (m : List Byte) : (s.answering m).progmode = s.progmode := by
  unfold State.answering; split <;> rfl
@[simp] theorem State.answering_shiftIn (s : State) (m : List Byte) : (s.answering m).shiftIn = s.shiftIn := by
  unfold State.answering; split <;> rfl
@[simp] theorem State.answering_shiftPos (s : State) (m : List Byte) : (s.answering m).shiftPos = s.shiftPos := by
  unfold State.answering; split <;> rfl
@[simp] theorem State.answering_received (s : State) (m : List Byte) : (s.answering m).received = s.received := by
  unfold State.answering; split <;> rfl
@[simp] theorem State.answering_requests (s : State) (m : List Byte) : (s.answering m).requests = s.requests := by
  unfold State.answering; split <;> rfl
@[simp] theorem State.answering_tasks (s : State) (m : List Byte) : (s.answering m).tasks = s.tasks := by
  unfold State.answering; split <;> rfl
@[simp] theorem State.answering_buffer (s : State) (m : List Byte) : (s.answering m).buffer = s.buffer := by
  unfold State.answering; split <;> rfl
@[simp] theorem State.answering_dest (s : State) (m : List Byte) : (s.answering m).dest = s.dest := by
  unfold State.answering; split <;> rfl
@[simp] theorem State.answering_clamp (s : State) (m : List Byte) : (s.answering m).clamp = s.clamp := by
  unfold State.answering; split <;> rfl
@[simp] theorem State.answering_cursor (s : State) (m : List Byte) : (s.answering m).cursor = s.cursor := by
  unfold State.answering; split <;> rfl
@[simp] theorem State.answering_outcome (s : State) (m : List Byte) : (s.answering m).outcome = s.outcome := by
  unfold State.answering; split <;> rfl
@[simp] theorem State.answering_plans (s : State) (m : List Byte) : (s.answering m).plans = s.plans := by
  unfold State.answering; split <;> rfl
@[simp] theorem State.answering_image (s : State) (m : List Byte) : (s.answering m).image = s.image := by
  unfold State.answering; split <;> rfl
@[simp] theorem State.answering_backups (s : State) (m : List Byte) : (s.answering m).backups = s.backups := by
  unfold State.answering; split <;> rfl
@[simp] theorem State.answering_env (s : State) (m : List Byte) : (s.answering m).env = s.env := by
  unfold State.answering; split <;> rfl

/-! ### `State.mutatePlan`: the writer mutates a page's plan -/

@[simp] theorem State.mutatePlan_params (s : State) (p : Nat) (b : Bool) (g h : PagePlan) : (s.mutatePlan p b g h).params = s.params := by
  unfold State.mutatePlan; split <;> rfl
@[simp] theorem State.mutatePlan_pins (s : State) (p : Nat) (b : Bool) (g h : PagePlan) : (s.mutatePlan p b g h).pins = s.pins := by
  unfold State.mutatePlan; split <;> rfl
@[simp] theorem State.mutatePlan_frames (s : State) (p : Nat) (b : Bool) (g h : PagePlan) : (s.mutatePlan p b g h).frames = s.frames := by
  unfold State.mutatePlan; split <;> rfl
@[simp] theorem State.mutatePlan_linkOpen (s : State) (p : Nat) (b : Bool) (g h : PagePlan) : (s.mutatePlan p b g h).linkOpen = s.linkOpen := by
  unfold State.mutatePlan; split <;> rfl
@[simp] theorem State.mutatePlan_fifo (s : State) (p : Nat) (b : Bool) (g h : PagePlan) : (s.mutatePlan p b g h).fifo = s.fifo := by
  unfold State.mutatePlan; split <;> rfl
@[simp] theorem State.mutatePlan_lost (s : State) (p : Nat) (b : Bool) (g h : PagePlan) : (s.mutatePlan p b g h).lost = s.lost := by
  unfold State.mutatePlan; split <;> rfl
@[simp] theorem State.mutatePlan_fsr (s : State) (p : Nat) (b : Bool) (g h : PagePlan) : (s.mutatePlan p b g h).fsr = s.fsr := by
  unfold State.mutatePlan; split <;> rfl
@[simp] theorem State.mutatePlan_fpcr (s : State) (p : Nat) (b : Bool) (g h : PagePlan) : (s.mutatePlan p b g h).fpcr = s.fpcr := by
  unfold State.mutatePlan; split <;> rfl
@[simp] theorem State.mutatePlan_main (s : State) (p : Nat) (b : Bool) (g h : PagePlan) : (s.mutatePlan p b g h).main = s.main := by
  unfold State.mutatePlan; split <;> rfl
@[simp] theorem State.mutatePlan_info (s : State) (p : Nat) (b : Bool) (g h : PagePlan) : (s.mutatePlan p b g h).info = s.info := by
  unfold State.mutatePlan; split <;> rfl
@[simp] theorem State.mutatePlan_progmode (s : State) (p : Nat) (b : Bool) (g h : PagePlan) : (s.mutatePlan p b g h).progmode = s.progmode := by
  unfold State.mutatePlan; split <;> rfl
@[simp] theorem State.mutatePlan_shiftIn (s : State) (p : Nat) (b : Bool) (g h : PagePlan) : (s.mutatePlan p b g h).shiftIn = s.shiftIn := by
  unfold State.mutatePlan; split <;> rfl
@[simp] theorem State.mutatePlan_shiftPos (s : State) (p : Nat) (b : Bool) (g h : PagePlan) : (s.mutatePlan p b g h).shiftPos = s.shiftPos := by
  unfold State.mutatePlan; split <;> rfl
@[simp] theorem State.mutatePlan_resp (s : State) (p : Nat) (b : Bool) (g h : PagePlan) : (s.mutatePlan p b g h).resp = s.resp := by
  unfold State.mutatePlan; split <;> rfl
@[simp] theorem State.mutatePlan_received (s : State) (p : Nat) (b : Bool) (g h : PagePlan) : (s.mutatePlan p b g h).received = s.received := by
  unfold State.mutatePlan; split <;> rfl
@[simp] theorem State.mutatePlan_requests (s : State) (p : Nat) (b : Bool) (g h : PagePlan) : (s.mutatePlan p b g h).requests = s.requests := by
  unfold State.mutatePlan; split <;> rfl
@[simp] theorem State.mutatePlan_tasks (s : State) (p : Nat) (b : Bool) (g h : PagePlan) : (s.mutatePlan p b g h).tasks = s.tasks := by
  unfold State.mutatePlan; split <;> rfl
@[simp] theorem State.mutatePlan_buffer (s : State) (p : Nat) (b : Bool) (g h : PagePlan) : (s.mutatePlan p b g h).buffer = s.buffer := by
  unfold State.mutatePlan; split <;> rfl
@[simp] theorem State.mutatePlan_dest (s : State) (p : Nat) (b : Bool) (g h : PagePlan) : (s.mutatePlan p b g h).dest = s.dest := by
  unfold State.mutatePlan; split <;> rfl
@[simp] theorem State.mutatePlan_clamp (s : State) (p : Nat) (b : Bool) (g h : PagePlan) : (s.mutatePlan p b g h).clamp = s.clamp := by
  unfold State.mutatePlan; split <;> rfl
@[simp] theorem State.mutatePlan_cursor (s : State) (p : Nat) (b : Bool) (g h : PagePlan) : (s.mutatePlan p b g h).cursor = s.cursor := by
  unfold State.mutatePlan; split <;> rfl
@[simp] theorem State.mutatePlan_outcome (s : State) (p : Nat) (b : Bool) (g h : PagePlan) : (s.mutatePlan p b g h).outcome = s.outcome := by
  unfold State.mutatePlan; split <;> rfl
@[simp] theorem State.mutatePlan_image (s : State) (p : Nat) (b : Bool) (g h : PagePlan) : (s.mutatePlan p b g h).image = s.image := by
  unfold State.mutatePlan; split <;> rfl
@[simp] theorem State.mutatePlan_backups (s : State) (p : Nat) (b : Bool) (g h : PagePlan) : (s.mutatePlan p b g h).backups = s.backups := by
  unfold State.mutatePlan; split <;> rfl
@[simp] theorem State.mutatePlan_env (s : State) (p : Nat) (b : Bool) (g h : PagePlan) : (s.mutatePlan p b g h).env = s.env := by
  unfold State.mutatePlan; split <;> rfl
@[simp] theorem State.mutatePlan_draws (s : State) (p : Nat) (b : Bool) (g h : PagePlan) : (s.mutatePlan p b g h).draws = s.draws := by
  unfold State.mutatePlan; split <;> rfl

theorem State.mutatePlan_plans (s : State) (p : Nat) (b : Bool) (g h : PagePlan) :
    (s.mutatePlan p b g h).plans = if s.ownsPlan p b g then s.plans.set p h else s.plans := by
  unfold State.mutatePlan; split <;> rfl

@[simp] theorem State.freeBytes_length (s : State) (n : Nat) : (s.freeBytes n).length = n := by
  simp [State.freeBytes]

/-! ### `State.scrambled`: bytes without semantics were clocked; FSR and flash are open, the rest is as it was -/

@[simp] theorem State.scrambled_params (s : State) : s.scrambled.params = s.params := rfl
@[simp] theorem State.scrambled_pins (s : State) : s.scrambled.pins = s.pins := rfl
@[simp] theorem State.scrambled_frames (s : State) : s.scrambled.frames = s.frames := rfl
@[simp] theorem State.scrambled_linkOpen (s : State) : s.scrambled.linkOpen = s.linkOpen := rfl
@[simp] theorem State.scrambled_fifo (s : State) : s.scrambled.fifo = s.fifo := rfl
@[simp] theorem State.scrambled_lost (s : State) : s.scrambled.lost = s.lost := rfl
@[simp] theorem State.scrambled_fpcr (s : State) : s.scrambled.fpcr = s.fpcr := rfl
@[simp] theorem State.scrambled_progmode (s : State) : s.scrambled.progmode = s.progmode := rfl
@[simp] theorem State.scrambled_shiftIn (s : State) : s.scrambled.shiftIn = s.shiftIn := rfl
@[simp] theorem State.scrambled_shiftPos (s : State) : s.scrambled.shiftPos = s.shiftPos := rfl
@[simp] theorem State.scrambled_resp (s : State) : s.scrambled.resp = s.resp := rfl
@[simp] theorem State.scrambled_received (s : State) : s.scrambled.received = s.received := rfl
@[simp] theorem State.scrambled_requests (s : State) : s.scrambled.requests = s.requests := rfl
@[simp] theorem State.scrambled_tasks (s : State) : s.scrambled.tasks = s.tasks := rfl
@[simp] theorem State.scrambled_buffer (s : State) : s.scrambled.buffer = s.buffer := rfl
@[simp] theorem State.scrambled_dest (s : State) : s.scrambled.dest = s.dest := rfl
@[simp] theorem State.scrambled_clamp (s : State) : s.scrambled.clamp = s.clamp := rfl
@[simp] theorem State.scrambled_cursor (s : State) : s.scrambled.cursor = s.cursor := rfl
@[simp] theorem State.scrambled_outcome (s : State) : s.scrambled.outcome = s.outcome := rfl
@[simp] theorem State.scrambled_plans (s : State) : s.scrambled.plans = s.plans := rfl
@[simp] theorem State.scrambled_image (s : State) : s.scrambled.image = s.image := rfl
@[simp] theorem State.scrambled_backups (s : State) : s.scrambled.backups = s.backups := rfl
@[simp] theorem State.scrambled_env (s : State) : s.scrambled.env = s.env := rfl
@[simp] theorem State.scrambled_fsr (s : State) :
    s.scrambled.fsr = s.freeByte (Config.flashSize + Config.infoSize) := rfl
@[simp] theorem State.scrambled_main (s : State) :
    s.scrambled.main = Memory.scrambled s.main Config.flashSize (s.freeBytes Config.flashSize) s.draws := rfl
@[simp] theorem State.scrambled_info (s : State) :
    s.scrambled.info = Memory.scrambled s.info Config.infoSize ((s.spend Config.flashSize).freeBytes Config.infoSize)
      (s.draws + Config.flashSize) := rfl
@[simp] theorem State.scrambled_draws (s : State) :
    s.scrambled.draws = s.draws + (Config.flashSize + Config.infoSize + 1) := rfl

/-! ### `cutFlash` and `cutCommand`: what a command in flight may have done to the target -/

@[simp] theorem cutFlash_params (i : Instr) (s : State) : (cutFlash i s).params = s.params := by
  unfold cutFlash; repeat' split
  all_goals simp only [State.spend_params, State.setRegion_params, State.massCut_params]
@[simp] theorem cutFlash_pins (i : Instr) (s : State) : (cutFlash i s).pins = s.pins := by
  unfold cutFlash; repeat' split
  all_goals simp only [State.spend_pins, State.setRegion_pins, State.massCut_pins]
@[simp] theorem cutFlash_frames (i : Instr) (s : State) : (cutFlash i s).frames = s.frames := by
  unfold cutFlash; repeat' split
  all_goals simp only [State.spend_frames, State.setRegion_frames, State.massCut_frames]
@[simp] theorem cutFlash_linkOpen (i : Instr) (s : State) : (cutFlash i s).linkOpen = s.linkOpen := by
  unfold cutFlash; repeat' split
  all_goals simp only [State.spend_linkOpen, State.setRegion_linkOpen, State.massCut_linkOpen]
@[simp] theorem cutFlash_fifo (i : Instr) (s : State) : (cutFlash i s).fifo = s.fifo := by
  unfold cutFlash; repeat' split
  all_goals simp only [State.spend_fifo, State.setRegion_fifo, State.massCut_fifo]
@[simp] theorem cutFlash_lost (i : Instr) (s : State) : (cutFlash i s).lost = s.lost := by
  unfold cutFlash; repeat' split
  all_goals simp only [State.spend_lost, State.setRegion_lost, State.massCut_lost]
@[simp] theorem cutFlash_fsr (i : Instr) (s : State) : (cutFlash i s).fsr = s.fsr := by
  unfold cutFlash; repeat' split
  all_goals simp only [State.spend_fsr, State.setRegion_fsr, State.massCut_fsr]
@[simp] theorem cutFlash_fpcr (i : Instr) (s : State) : (cutFlash i s).fpcr = s.fpcr := by
  unfold cutFlash; repeat' split
  all_goals simp only [State.spend_fpcr, State.setRegion_fpcr, State.massCut_fpcr]
@[simp] theorem cutFlash_progmode (i : Instr) (s : State) : (cutFlash i s).progmode = s.progmode := by
  unfold cutFlash; repeat' split
  all_goals simp only [State.spend_progmode, State.setRegion_progmode, State.massCut_progmode]
@[simp] theorem cutFlash_shiftIn (i : Instr) (s : State) : (cutFlash i s).shiftIn = s.shiftIn := by
  unfold cutFlash; repeat' split
  all_goals simp only [State.spend_shiftIn, State.setRegion_shiftIn, State.massCut_shiftIn]
@[simp] theorem cutFlash_shiftPos (i : Instr) (s : State) : (cutFlash i s).shiftPos = s.shiftPos := by
  unfold cutFlash; repeat' split
  all_goals simp only [State.spend_shiftPos, State.setRegion_shiftPos, State.massCut_shiftPos]
@[simp] theorem cutFlash_resp (i : Instr) (s : State) : (cutFlash i s).resp = s.resp := by
  unfold cutFlash; repeat' split
  all_goals simp only [State.spend_resp, State.setRegion_resp, State.massCut_resp]
@[simp] theorem cutFlash_received (i : Instr) (s : State) : (cutFlash i s).received = s.received := by
  unfold cutFlash; repeat' split
  all_goals simp only [State.spend_received, State.setRegion_received, State.massCut_received]
@[simp] theorem cutFlash_requests (i : Instr) (s : State) : (cutFlash i s).requests = s.requests := by
  unfold cutFlash; repeat' split
  all_goals simp only [State.spend_requests, State.setRegion_requests, State.massCut_requests]
@[simp] theorem cutFlash_tasks (i : Instr) (s : State) : (cutFlash i s).tasks = s.tasks := by
  unfold cutFlash; repeat' split
  all_goals simp only [State.spend_tasks, State.setRegion_tasks, State.massCut_tasks]
@[simp] theorem cutFlash_buffer (i : Instr) (s : State) : (cutFlash i s).buffer = s.buffer := by
  unfold cutFlash; repeat' split
  all_goals simp only [State.spend_buffer, State.setRegion_buffer, State.massCut_buffer]
@[simp] theorem cutFlash_dest (i : Instr) (s : State) : (cutFlash i s).dest = s.dest := by
  unfold cutFlash; repeat' split
  all_goals simp only [State.spend_dest, State.setRegion_dest, State.massCut_dest]
@[simp] theorem cutFlash_clamp (i : Instr) (s : State) : (cutFlash i s).clamp = s.clamp := by
  unfold cutFlash; repeat' split
  all_goals simp only [State.spend_clamp, State.setRegion_clamp, State.massCut_clamp]
@[simp] theorem cutFlash_cursor (i : Instr) (s : State) : (cutFlash i s).cursor = s.cursor := by
  unfold cutFlash; repeat' split
  all_goals simp only [State.spend_cursor, State.setRegion_cursor, State.massCut_cursor]
@[simp] theorem cutFlash_outcome (i : Instr) (s : State) : (cutFlash i s).outcome = s.outcome := by
  unfold cutFlash; repeat' split
  all_goals simp only [State.spend_outcome, State.setRegion_outcome, State.massCut_outcome]
@[simp] theorem cutFlash_plans (i : Instr) (s : State) : (cutFlash i s).plans = s.plans := by
  unfold cutFlash; repeat' split
  all_goals simp only [State.spend_plans, State.setRegion_plans, State.massCut_plans]
@[simp] theorem cutFlash_image (i : Instr) (s : State) : (cutFlash i s).image = s.image := by
  unfold cutFlash; repeat' split
  all_goals simp only [State.spend_image, State.setRegion_image, State.massCut_image]
@[simp] theorem cutFlash_backups (i : Instr) (s : State) : (cutFlash i s).backups = s.backups := by
  unfold cutFlash; repeat' split
  all_goals simp only [State.spend_backups, State.setRegion_backups, State.massCut_backups]
@[simp] theorem cutFlash_env (i : Instr) (s : State) : (cutFlash i s).env = s.env := by
  unfold cutFlash; repeat' split
  all_goals simp only [State.spend_env, State.setRegion_env, State.massCut_env]
@[simp] theorem cutCommand_params (m : List Byte) (c : Bool) (s : State) : (cutCommand m c s).params = s.params := by
  unfold cutCommand; repeat' split
  all_goals simp only [State.spend_params, State.setFsr_params, cutFlash_params, State.scrambled_params]
@[simp] theorem cutCommand_pins (m : List Byte) (c : Bool) (s : State) : (cutCommand m c s).pins = s.pins := by
  unfold cutCommand; repeat' split
  all_goals simp only [State.spend_pins, State.setFsr_pins, cutFlash_pins, State.scrambled_pins]
@[simp] theorem cutCommand_frames (m : List Byte) (c : Bool) (s : State) : (cutCommand m c s).frames = s.frames := by
  unfold cutCommand; repeat' split
  all_goals simp only [State.spend_frames, State.setFsr_frames, cutFlash_frames, State.scrambled_frames]
@[simp] theorem cutCommand_linkOpen (m : List Byte) (c : Bool) (s : State) : (cutCommand m c s).linkOpen = s.linkOpen := by
  unfold cutCommand; repeat' split
  all_goals simp only [State.spend_linkOpen, State.setFsr_linkOpen, cutFlash_linkOpen, State.scrambled_linkOpen]
@[simp] theorem cutCommand_fifo (m : List Byte) (c : Bool) (s : State) : (cutCommand m c s).fifo = s.fifo := by
  unfold cutCommand; repeat' split
  all_goals simp only [State.spend_fifo, State.setFsr_fifo, cutFlash_fifo, State.scrambled_fifo]
@[simp] theorem cutCommand_lost (m : List Byte) (c : Bool) (s : State) : (cutCommand m c s).lost = s.lost := by
  unfold cutCommand; repeat' split
  all_goals simp only [State.spend_lost, State.setFsr_lost, cutFlash_lost, State.scrambled_lost]
@[simp] theorem cutCommand_fpcr (m : List Byte) (c : Bool) (s : State) : (cutCommand m c s).fpcr = s.fpcr := by
  unfold cutCommand; repeat' split
  all_goals simp only [State.spend_fpcr, State.setFsr_fpcr, cutFlash_fpcr, State.scrambled_fpcr]
@[simp] theorem cutCommand_progmode (m : List Byte) (c : Bool) (s : State) : (cutCommand m c s).progmode = s.progmode := by
  unfold cutCommand; repeat' split
  all_goals simp only [State.spend_progmode, State.setFsr_progmode, cutFlash_progmode, State.scrambled_progmode]
@[simp] theorem cutCommand_shiftIn (m : List Byte) (c : Bool) (s : State) : (cutCommand m c s).shiftIn = s.shiftIn := by
  unfold cutCommand; repeat' split
  all_goals simp only [State.spend_shiftIn, State.setFsr_shiftIn, cutFlash_shiftIn, State.scrambled_shiftIn]
@[simp] theorem cutCommand_shiftPos (m : List Byte) (c : Bool) (s : State) : (cutCommand m c s).shiftPos = s.shiftPos := by
  unfold cutCommand; repeat' split
  all_goals simp only [State.spend_shiftPos, State.setFsr_shiftPos, cutFlash_shiftPos, State.scrambled_shiftPos]
@[simp] theorem cutCommand_resp (m : List Byte) (c : Bool) (s : State) : (cutCommand m c s).resp = s.resp := by
  unfold cutCommand; repeat' split
  all_goals simp only [State.spend_resp, State.setFsr_resp, cutFlash_resp, State.scrambled_resp]
@[simp] theorem cutCommand_received (m : List Byte) (c : Bool) (s : State) : (cutCommand m c s).received = s.received := by
  unfold cutCommand; repeat' split
  all_goals simp only [State.spend_received, State.setFsr_received, cutFlash_received, State.scrambled_received]
@[simp] theorem cutCommand_requests (m : List Byte) (c : Bool) (s : State) : (cutCommand m c s).requests = s.requests := by
  unfold cutCommand; repeat' split
  all_goals simp only [State.spend_requests, State.setFsr_requests, cutFlash_requests, State.scrambled_requests]
@[simp] theorem cutCommand_tasks (m : List Byte) (c : Bool) (s : State) : (cutCommand m c s).tasks = s.tasks := by
  unfold cutCommand; repeat' split
  all_goals simp only [State.spend_tasks, State.setFsr_tasks, cutFlash_tasks, State.scrambled_tasks]
@[simp] theorem cutCommand_buffer (m : List Byte) (c : Bool) (s : State) : (cutCommand m c s).buffer = s.buffer := by
  unfold cutCommand; repeat' split
  all_goals simp only [State.spend_buffer, State.setFsr_buffer, cutFlash_buffer, State.scrambled_buffer]
@[simp] theorem cutCommand_dest (m : List Byte) (c : Bool) (s : State) : (cutCommand m c s).dest = s.dest := by
  unfold cutCommand; repeat' split
  all_goals simp only [State.spend_dest, State.setFsr_dest, cutFlash_dest, State.scrambled_dest]
@[simp] theorem cutCommand_clamp (m : List Byte) (c : Bool) (s : State) : (cutCommand m c s).clamp = s.clamp := by
  unfold cutCommand; repeat' split
  all_goals simp only [State.spend_clamp, State.setFsr_clamp, cutFlash_clamp, State.scrambled_clamp]
@[simp] theorem cutCommand_cursor (m : List Byte) (c : Bool) (s : State) : (cutCommand m c s).cursor = s.cursor := by
  unfold cutCommand; repeat' split
  all_goals simp only [State.spend_cursor, State.setFsr_cursor, cutFlash_cursor, State.scrambled_cursor]
@[simp] theorem cutCommand_outcome (m : List Byte) (c : Bool) (s : State) : (cutCommand m c s).outcome = s.outcome := by
  unfold cutCommand; repeat' split
  all_goals simp only [State.spend_outcome, State.setFsr_outcome, cutFlash_outcome, State.scrambled_outcome]
@[simp] theorem cutCommand_plans (m : List Byte) (c : Bool) (s : State) : (cutCommand m c s).plans = s.plans := by
  unfold cutCommand; repeat' split
  all_goals simp only [State.spend_plans, State.setFsr_plans, cutFlash_plans, State.scrambled_plans]
@[simp] theorem cutCommand_image (m : List Byte) (c : Bool) (s : State) : (cutCommand m c s).image = s.image := by
  unfold cutCommand; repeat' split
  all_goals simp only [State.spend_image, State.setFsr_image, cutFlash_image, State.scrambled_image]
@[simp] theorem cutCommand_backups (m : List Byte) (c : Bool) (s : State) : (cutCommand m c s).backups = s.backups := by
  unfold cutCommand; repeat' split
  all_goals simp only [State.spend_backups, State.setFsr_backups, cutFlash_backups, State.scrambled_backups]
@[simp] theorem cutCommand_env (m : List Byte) (c : Bool) (s : State) : (cutCommand m c s).env = s.env := by
  unfold cutCommand; repeat' split
  all_goals simp only [State.spend_env, State.setFsr_env, cutFlash_env, State.scrambled_env]

end Sys2Proof.Machine
end

