-- ==== Sys2Proof/Laws/Operations.lean ====
section
/-! SUPPORT. For each shared operation one lemma that says all it can do when it answers a next state; the provers cite these
instead of unfolding the operations. -/

namespace Sys2Proof.Machine

/-! ## Gates and sequencing -/

theorem andThen_next (o : Host.Outcome State Fault Refusal) (f : State → Host.Outcome State Fault Refusal) (t : State) :
    andThen o f = .next t ↔ ∃ u, o = .next u ∧ f u = .next t := by
  cases o <;> simp [andThen]

theorem inProgramMode_next (s t : State) (k : Host.Outcome State Fault Refusal) :
    inProgramMode s k = .next t ↔ s.progmode = true ∧ k = .next t := by
  cases h : s.progmode <;> simp [inProgramMode, h]

theorem whenReady_next (s t : State) (k : Host.Outcome State Fault Refusal) :
    whenReady s k = .next t ↔ s.progmode = true ∧ fsrRdyn s.fsr = false ∧ k = .next t := by
  rw [whenReady, inProgramMode_next]
  cases h : fsrRdyn s.fsr <;> simp

/-! ## The meanings -/

theorem execWren_next (s t : State) (h : execWren s = .next t) :
    s.progmode = true ∧ fsrRdyn s.fsr = false ∧ t = (s.reply (s.freeBytes 1) 1).setFsr (setWen s.fsr true) := by
  obtain ⟨h1, h2, h3⟩ := (whenReady_next _ _ _).mp h
  exact ⟨h1, h2, by simpa using h3.symm⟩

theorem execWrdis_next (s t : State) (h : execWrdis s = .next t) :
    s.progmode = true ∧ fsrRdyn s.fsr = false ∧ t = (s.reply (s.freeBytes 1) 1).setFsr (setWen s.fsr false) := by
  obtain ⟨h1, h2, h3⟩ := (whenReady_next _ _ _).mp h
  exact ⟨h1, h2, by simpa using h3.symm⟩

theorem execRdsr_next (x : Byte) (s t : State) (h : execRdsr x s = .next t) :
    s.progmode = true ∧ t = s.reply [s.freeByte 0, statusRead s.fsr (s.freeBit 1) (s.freeBit 2)] 3 := by
  obtain ⟨h1, h2⟩ := (inProgramMode_next _ _ _).mp h
  exact ⟨h1, by simpa using h2.symm⟩

theorem execWrsr_next (v : Byte) (s t : State) (h : execWrsr v s = .next t) :
    s.progmode = true ∧ fsrRdyn s.fsr = false ∧
      t = (s.reply (s.freeBytes 2) 3).setFsr (statusWritten s.fsr v (s.freeByte 2)) := by
  obtain ⟨h1, h2, h3⟩ := (whenReady_next _ _ _).mp h
  exact ⟨h1, h2, by simpa using h3.symm⟩

theorem execRead_next (addr : Half) (fill : List Byte) (s t : State) (h : execRead addr fill s = .next t) :
    s.progmode = true ∧ fsrRdyn s.fsr = false ∧ s.inRegion addr.toNat fill.length = true ∧
      t = s.reply (s.freeBytes 3 ++ s.readData addr.toNat fill.length) (3 + fill.length) := by
  obtain ⟨h1, h2, h3⟩ := (whenReady_next _ _ _).mp h
  split at h3
  · exact ⟨h1, h2, by assumption, by simpa using h3.symm⟩
  · cases h3

theorem execProgram_next (addr : Half) (data : List Byte) (s t : State) (h : execProgram addr data s = .next t) :
    s.progmode = true ∧ fsrRdyn s.fsr = false ∧
      ((t = s.reply (s.freeBytes (3 + data.length)) (3 + data.length) ∧ (fsrWen s.fsr = false ∨ data = [])) ∨
        (fsrWen s.fsr = true ∧ s.inRegion addr.toNat data.length = true ∧ inOnePage addr.toNat data.length = true ∧
          data ≠ [] ∧
          t = ((s.reply (s.freeBytes (3 + data.length)) (3 + data.length)).setRegion
            (Memory.andRange s.region addr.toNat data)).mutated)) := by
  obtain ⟨h1, h2, h3⟩ := (whenReady_next _ _ _).mp h
  refine ⟨h1, h2, ?_⟩
  simp only at h3
  split at h3
  · exact .inl ⟨by simpa using h3.symm, .inl (by assumption)⟩
  · split at h3
    · cases h3
    · split at h3
      · cases h3
      · split at h3
        · exact .inl ⟨by simpa using h3.symm, .inr (by assumption)⟩
        · exact .inr ⟨by simp_all, by simp_all, by simp_all, by assumption, by simpa using h3.symm⟩

theorem execErasePage_next (page : Byte) (s t : State) (h : execErasePage page s = .next t) :
    s.progmode = true ∧ fsrRdyn s.fsr = false ∧
      ((fsrWen s.fsr = false ∧ t = s.reply (s.freeBytes 2) 2) ∨
        (fsrWen s.fsr = true ∧ page.toNat < s.pageCount ∧
          t = ((s.reply (s.freeBytes 2) 2).setRegion
            (Memory.eraseRange s.region (pageBase page.toNat) Config.pageSize)).mutated)) := by
  obtain ⟨h1, h2, h3⟩ := (whenReady_next _ _ _).mp h
  refine ⟨h1, h2, ?_⟩
  simp only at h3
  split at h3
  · exact .inl ⟨by assumption, by simpa using h3.symm⟩
  · split at h3
    · cases h3
    · exact .inr ⟨by simp_all, by omega, by simpa using h3.symm⟩

theorem execEraseAll_next (s t : State) (h : execEraseAll s = .next t) :
    s.progmode = true ∧ fsrRdyn s.fsr = false ∧
      ((fsrWen s.fsr = false ∧ t = s.reply (s.freeBytes 1) 2) ∨
        (fsrWen s.fsr = true ∧
          t = ((s.reply (s.freeBytes 1) 2).massErased.setFsr
            (setRdismb s.fsr (fsrRdismb s.fsr && s.freeBit 1))).mutated)) := by
  obtain ⟨h1, h2, h3⟩ := (whenReady_next _ _ _).mp h
  refine ⟨h1, h2, ?_⟩
  simp only at h3
  split at h3
  · exact .inl ⟨by assumption, by simpa using h3.symm⟩
  · exact .inr ⟨by simp_all, by simpa using h3.symm⟩

theorem execCmdRdismb_next (s t : State) (h : execCmdRdismb s = .next t) :
    s.progmode = true ∧ fsrRdyn s.fsr = false ∧
      ((fsrWen s.fsr = false ∧ t = s.reply (s.freeBytes 1) 1) ∨
        (fsrWen s.fsr = true ∧ t = ((s.reply (s.freeBytes 1) 1).setFsr (setRdismb s.fsr true)).mutated)) := by
  obtain ⟨h1, h2, h3⟩ := (whenReady_next _ _ _).mp h
  refine ⟨h1, h2, ?_⟩
  simp only at h3
  split at h3
  · exact .inl ⟨by assumption, by simpa using h3.symm⟩
  · exact .inr ⟨by simp_all, by simpa using h3.symm⟩

theorem execRdfpcr_next (x : Byte) (s t : State) (h : execRdfpcr x s = .next t) :
    s.progmode = true ∧ fsrRdyn s.fsr = false ∧ t = s.reply [s.freeByte 0, s.fpcr] 1 := by
  obtain ⟨h1, h2, h3⟩ := (whenReady_next _ _ _).mp h
  exact ⟨h1, h2, by simpa using h3.symm⟩

/-- A checked record either fails with one of two errors or goes on. -/
theorem checkRecord_cases (s : State) (address : Half) (type : Nat) (payload : List Byte) (checksum : Byte) (k : State) :
    (checkRecord s address type payload checksum k = s.raise (.decode .bufferTooSmall) ∧
        s.dest.length < payload.length) ∨
      (checkRecord s address type payload checksum k = s.raise (.decode .checksumMismatch) ∧
        payload.length ≤ s.dest.length ∧ checksumOk address type payload checksum = false) ∨
      (checkRecord s address type payload checksum k = k ∧
        payload.length ≤ s.dest.length ∧ checksumOk address type payload checksum = true) := by
  unfold checkRecord
  split
  · exact .inl ⟨rfl, by assumption⟩
  · split
    · exact .inr (.inl ⟨rfl, by omega, by assumption⟩)
    · exact .inr (.inr ⟨rfl, by omega, by simp_all⟩)

/-! ## The transport -/

theorem receive_next (m : List Byte) (s t : State) (h : receive m s = .next t) :
    (m = [] ∧ t = { s with resp := [] }) ∨
      ∃ op rest i, m = op :: rest ∧ decodeWire m = .ok i ∧ exec i (s.arrive op) = .next t := by
  cases m with
  | nil => exact .inl ⟨rfl, by simpa [receive] using h.symm⟩
  | cons op rest =>
    simp only [receive] at h
    split at h
    · exact .inr ⟨op, rest, _, rfl, by assumption, h⟩
    · cases h

/-- Everything a command in flight can do to the flash: nothing, or with `WEN` set what its own kind allows. -/
theorem cutFlash_cases (i : Instr) (s : State) :
    cutFlash i s = s ∨
      (fsrWen s.fsr = true ∧
        ((∃ addr data, i = .program addr data ∧
            cutFlash i s = (s.setRegion (Memory.andRange s.region addr.toNat
              (s.freeBytes (min data.length (s.regionSize - addr.toNat))))).spend data.length) ∨
          (∃ page, i = .erasePage page ∧ page.toNat < s.pageCount ∧
            cutFlash i s = (s.setRegion (Memory.eraseSome s.region (pageBase page.toNat) Config.pageSize s.draws)).spend
              Config.pageSize) ∨
          (i = .eraseAll ∧ cutFlash i s = s.massCut.spend (Config.flashSize + Config.infoSize)))) := by
  cases hw : fsrWen s.fsr with
  | false => exact .inl (by simp [cutFlash, hw])
  | true =>
    have h1 : ¬ fsrWen s.fsr = false := by simp [hw]
    cases i with
    | program addr data => exact .inr ⟨rfl, .inl ⟨addr, data, rfl, by rw [cutFlash, if_neg h1]⟩⟩
    | erasePage page =>
      by_cases hp : page.toNat < s.pageCount
      · exact .inr ⟨rfl, .inr (.inl ⟨page, rfl, hp, by rw [cutFlash, if_neg h1]; exact if_pos hp⟩)⟩
      · exact .inl (by rw [cutFlash, if_neg h1]; exact if_neg hp)
    | eraseAll => exact .inr ⟨rfl, .inr (.inr ⟨rfl, by rw [cutFlash, if_neg h1]⟩)⟩
    | wren => exact .inl (by rw [cutFlash, if_neg h1])
    | wrdis => exact .inl (by rw [cutFlash, if_neg h1])
    | wrsr _ => exact .inl (by rw [cutFlash, if_neg h1])
    | read _ _ => exact .inl (by rw [cutFlash, if_neg h1])
    | rdsr _ => exact .inl (by rw [cutFlash, if_neg h1])
    | rdfpcr _ => exact .inl (by rw [cutFlash, if_neg h1])
    | cmdRdismb => exact .inl (by rw [cutFlash, if_neg h1])
    | cmdEndebug => exact .inl (by rw [cutFlash, if_neg h1])
    | hexData _ _ _ => exact .inl (by rw [cutFlash, if_neg h1])
    | hexEof _ _ _ => exact .inl (by rw [cutFlash, if_neg h1])

/-- The bytes that have semantics are those of a command other than `CMD_ENDEBUG`. -/
theorem knownCommand_some (m : List Byte) (i : Instr) :
    knownCommand m = some i ↔ decodeWire m = .ok i ∧ i ≠ .cmdEndebug := by
  unfold knownCommand
  split
  · rename_i j hj
    by_cases hd : j = .cmdEndebug
    · simp only [if_pos hd, hj, reduceCtorEq, Except.ok.injEq, false_iff, not_and, not_not]
      exact fun h => h ▸ hd
    · simp only [if_neg hd, hj, Option.some.injEq, Except.ok.injEq]
      exact ⟨fun h => ⟨h, h ▸ hd⟩, fun h => h.1⟩
  · simp [*]

/-- Bytes in flight that have semantics: their command's flash and FSR bits, whatever was clocked of them. -/
theorem cutCommand_known (m : List Byte) (i : Instr) (clocked : Bool) (s : State) (h : knownCommand m = some i) :
    cutCommand m clocked s = ((cutFlash i s).setFsr (statusCut i s.fsr ((cutFlash i s).freeByte 0))).spend 1 := by
  simp only [cutCommand, h]

/-- Everything the bytes in flight can have done to the target: what the bound of R277 lets their command do, or nothing, or,
where bytes without semantics were clocked, anything that R61 admits. -/
theorem cutCommand_cases (m : List Byte) (clocked : Bool) (s : State) :
    (∃ i, knownCommand m = some i ∧
        cutCommand m clocked s = ((cutFlash i s).setFsr (statusCut i s.fsr ((cutFlash i s).freeByte 0))).spend 1) ∨
      (knownCommand m = none ∧ clocked = true ∧ m ≠ [] ∧ cutCommand m clocked s = s.scrambled) ∨
      (knownCommand m = none ∧ (clocked = false ∨ m = []) ∧ cutCommand m clocked s = s) := by
  cases hk : knownCommand m with
  | some i => exact .inl ⟨i, rfl, cutCommand_known m i clocked s hk⟩
  | none =>
    by_cases hc : clocked = true ∧ m ≠ []
    · exact .inr (.inl ⟨rfl, hc.1, hc.2, by simp [cutCommand, hk, hc]⟩)
    · refine .inr (.inr ⟨rfl, by cases clocked <;> simp_all, ?_⟩)
      simp only [cutCommand, hk]
      exact if_neg (by simpa using hc)

/-- Bytes without semantics leave both regions canonical. -/
theorem State.scrambled_wf (s : State) (hm : Memory.wf Config.flashSize s.main = true)
    (hi : Memory.wf Config.infoSize s.info = true) :
    Memory.wf Config.flashSize s.scrambled.main = true ∧ Memory.wf Config.infoSize s.scrambled.info = true := by
  rw [State.scrambled_main, State.scrambled_info]
  exact ⟨Memory.scrambled_wf _ _ _ _ (by simp) hm, Memory.scrambled_wf _ _ _ _ (by simp) hi⟩

/-- The target of a failing transfer is cut short; where chip-select had been released, its command has a meaning. -/
theorem interrupted_next (m : List Byte) (reached : Reached) (s t : State) (h : interrupted m reached s = .next t) :
    t = cutShort m (decide (reached ≠ .selected)) s ∧ (reached = .released → ∃ u, receive m s = .next u) := by
  cases reached with
  | selected => exact ⟨by simpa [interrupted] using h.symm, nofun⟩
  | clocked => exact ⟨by simpa [interrupted] using h.symm, nofun⟩
  | released =>
    obtain ⟨u, hu, hn⟩ := (andThen_next _ _ _).mp h
    exact ⟨by simpa using hn.symm, fun _ => ⟨u, hu⟩⟩

/-- A failing transfer whose chip-select was not released is never refused for what its bytes are. -/
theorem interrupted_unreleased (m : List Byte) (reached : Reached) (s : State) (h : reached ≠ .released) :
    interrupted m reached s = .next (cutShort m (decide (reached ≠ .selected)) s) := by
  cases reached with
  | selected => rfl
  | clocked => rfl
  | released => exact absurd rfl h

/-- How far the failing phase `j` of `n` had come. -/
theorem reachedAt_cases (n j : Nat) (write : Bool) :
    (j = 0 ∧ reachedAt n j write = .selected) ∨
      (0 < j ∧ j + 1 = n ∧ write = false ∧ reachedAt n j write = .released) ∨
      (0 < j ∧ (j + 1 ≠ n ∨ write = true) ∧ reachedAt n j write = .clocked) := by
  unfold reachedAt
  split
  · exact .inl ⟨by assumption, rfl⟩
  · split
    · rename_i h
      exact .inr (.inl ⟨by omega, h.1, h.2, rfl⟩)
    · rename_i h
      refine .inr (.inr ⟨by omega, ?_, rfl⟩)
      cases write <;> simp_all

theorem bitbangTransfer_next (m : List Byte) (s t : State) (h : bitbangTransfer m s = .next t) :
    s.params.wf = true ∧ phasesFit s (begunPhases s.env (transferPhases s.params s.pins m)) = true ∧
      ((failingPhase s.env (transferPhases s.params s.pins m).length = none ∧
          ∃ u, receive (deliveredBytes s.params s.lines (transferPhases s.params s.pins m)) s = .next u ∧
            t = u.transferred ((transferPhases s.params s.pins m).flatMap Phase.frames)
              (runPhases s.params (bufferBits u.resp) s.lines (transferPhases s.params s.pins m))) ∨
        ∃ j write u, failingPhase s.env (transferPhases s.params s.pins m).length = some (j, write) ∧
          interrupted (deliveredBytes s.params s.lines (transferPhases s.params s.pins m))
            (reachedAt (transferPhases s.params s.pins m).length j write) s = .next u ∧
          t = (u.transferFailed (((transferPhases s.params s.pins m).take (j + 1)).flatMap Phase.frames)
            (runPhases s.params (bufferBits u.resp) s.lines ((transferPhases s.params s.pins m).take j)).2
            (lastFrameOf (transferPhases s.params s.pins m) j s.pins) m).raise (phaseError write)) := by
  unfold bitbangTransfer at h
  split at h
  · cases h
  · simp only at h
    split at h
    · cases h
    · refine ⟨by simp_all, by simp_all, ?_⟩
      split at h
      · obtain ⟨u, hu, hn⟩ := (andThen_next _ _ _).mp h
        exact .inl ⟨by assumption, u, hu, by simpa using hn.symm⟩
      · obtain ⟨u, hu, hn⟩ := (andThen_next _ _ _).mp h
        exact .inr ⟨_, _, u, by assumption, hu, by simpa using hn.symm⟩

theorem emulatorTransfer_next (m : List Byte) (s t : State) (h : emulatorTransfer m s = .next t) :
    (∃ u, receive m s = .next u ∧ t = { u.spendEnv with buffer := u.resp, frames := [] }) ∨
      ∃ write u, interrupted m (if write then .selected else .released) s = .next u ∧ t = (u.emulatorFailed m).raise (phaseError write) := by
  unfold emulatorTransfer at h
  split at h
  · obtain ⟨u, hu, hn⟩ := (andThen_next _ _ _).mp h
    exact .inr ⟨_, u, hu, by simpa using hn.symm⟩
  · obtain ⟨u, hu, hn⟩ := (andThen_next _ _ _).mp h
    exact .inl ⟨u, hu, by simpa using hn.symm⟩

theorem transferStep_next (m : List Byte) (s t : State) (h : transferStep m s = .next t) :
    s.linkOpen = true ∧ s.lost = false ∧
      ((s.params.backend = .bitbang ∧ bitbangTransfer m s = .next t) ∨
        (s.params.backend = .emulator ∧ emulatorTransfer m s = .next t)) := by
  unfold transferStep at h
  split at h
  · cases h
  · split at h
    · cases h
    · refine ⟨by simp_all, by simp_all, ?_⟩
      split at h
      · exact .inl ⟨by assumption, h⟩
      · exact .inr ⟨by assumption, h⟩

theorem scatteredStep_next (op : Byte) (address : Nat) (buffer : List Byte) (s t : State)
    (h : scatteredStep op address buffer s = .next t) :
    (op = 0x03#8 ∨ op = 0x02#8) ∧ address < 65536 ∧
      t = s.push [.xfer (op :: addressHi (BitVec.ofNat 16 address) :: addressLo (BitVec.ofNat 16 address) :: buffer),
        .payload op buffer] := by
  unfold scatteredStep at h
  split at h
  · cases h
  · split at h
    · cases h
    · exact ⟨by tauto, by omega, by simpa [State.push] using h.symm⟩

theorem openStep_next (bus port : Nat) (s t : State) (h : openStep bus port s = .next t) :
    (s.linkOpen = true ∧ t = s) ∨
      (s.linkOpen = false ∧
        ((t = s.spendEnv.raise (.transport .openFailed)) ∨
          (s.params.backend = .bitbang ∧ bitbangEntry s = .next t) ∨
          (s.params.backend = .emulator ∧ t = s.entered [] s.pins))) := by
  unfold openStep at h
  split at h
  · exact .inl ⟨by assumption, by simpa using h.symm⟩
  · refine .inr ⟨by simp_all, ?_⟩
    split at h
    · exact .inl (by simpa using h.symm)
    · split at h
      · exact .inr (.inl ⟨by assumption, h⟩)
      · exact .inr (.inr ⟨by assumption, by simpa using h.symm⟩)

/-! ## Host layer and HEXDEC -/

/-- A line that begins with the colon: the length, the header's characters, then the body. -/
theorem decodeHex_start (cap : Nat) (rest : List Byte) :
    decodeHex cap (startCode :: rest) =
      if rest.length + 1 < 9 then .error .truncatedLine
      else
        match hexBytes (rest.take 8) with
        | some [cc, ah, al, tt] => decodeBody cap (rest.length + 1) cc.toNat (addressOf ah al) tt (rest.drop 8)
        | _ => .error .malformedLine := rfl

theorem decodeLineStep_next (line dest : List Byte) (clamp : Clamp) (s t : State)
    (h : decodeLineStep line dest clamp s = .next t) :
    (∃ i, decodeHex dest.length line = .ok i ∧
        exec i { s with dest := dest, clamp := clamp, cursor := s.cursor + 1 } = .next t) ∨
      ∃ e, decodeHex dest.length line = .error e ∧
        t = { s with dest := dest, clamp := clamp, cursor := s.cursor + 1 }.raise (.decode e) := by
  unfold decodeLineStep at h
  simp only at h
  split at h
  · exact .inl ⟨_, by assumption, h⟩
  · exact .inr ⟨_, by assumption, by simpa using h.symm⟩

theorem planStep_next (lines : List (List Byte)) (placement : Placement) (s t : State)
    (h : planStep lines placement s = .next t) :
    (∃ st, planFile placement lines = .ok st ∧ t = { s with plans := st.plans, image := st.image }) ∨
      ∃ e, planFile placement lines = .error (.error e) ∧ t = s.raise (.decode e) := by
  unfold planStep at h
  split at h
  · exact .inl ⟨_, by assumption, by simpa using h.symm⟩
  · exact .inr ⟨_, by assumption, by simpa using h.symm⟩
  · cases h

/-- What the smart writer does with the page it read: the plan mutated, and no further task where nothing differs. -/
theorem smartDecideStep_cases (plan : PagePlan) (page : Nat) (target : List Byte) (backup isInfo : Bool) (s : State) :
    ((analysePlan plan s.buffer target).writeNeeded = true ∧
        smartDecideStep plan page target backup isInfo s =
          (s.mutatePlan page isInfo plan (analysePlan plan s.buffer target)).push
            (smartTasks (analysePlan plan s.buffer target) page s.buffer target backup isInfo)) ∨
      ((analysePlan plan s.buffer target).writeNeeded = false ∧
        smartDecideStep plan page target backup isInfo s =
          s.mutatePlan page isInfo plan (analysePlan plan s.buffer target)) := by
  unfold smartDecideStep
  split
  · exact .inl ⟨by assumption, rfl⟩
  · exact .inr ⟨by simp_all, rfl⟩

theorem State.ownsPlan_iff (s : State) (page : Nat) (isInfo : Bool) (plan : PagePlan) :
    s.ownsPlan page isInfo plan = true ↔ isInfo = false ∧ s.plans[page]? = some plan := by
  simp [State.ownsPlan]

/-- A plan that the analysis leaves as it is, is not mutated. -/
theorem State.mutatePlan_self (s : State) (page : Nat) (isInfo : Bool) (plan : PagePlan) :
    s.mutatePlan page isInfo plan plan = s := by
  unfold State.mutatePlan
  split
  · rename_i h
    have hp : s.plans[page]? = some plan := by
      simp only [State.ownsPlan, Bool.and_eq_true, decide_eq_true_eq] at h
      exact h.2
    have : s.plans.set page plan = s.plans := by
      apply List.ext_getElem?
      intro i
      rw [List.getElem?_set]
      split
      · rename_i hi
        subst hi
        rw [hp]
        exact if_pos (List.getElem?_eq_some_iff.mp hp).1
      · rfl
    rw [this]
  · rfl

/-! ## The step -/

/-- Everything a step can be: the target's ready step, one task, the host's next operation, or nothing. -/
theorem step_next (s t : State) (h : step s = .next t) :
    (s.env.head? = some .ready ∧ t = s.spendEnv.readyStep) ∨
      (s.env.head? ≠ some .ready ∧
        ((∃ task ts, s.tasks = task :: ts ∧ runTask task { s with tasks := ts } = .next t) ∨
          (s.tasks = [] ∧ ∃ op ops, s.requests = op :: ops ∧ t = { s with requests := ops, tasks := op.tasks }) ∨
          (s.tasks = [] ∧ s.requests = [] ∧ t = s))) := by
  unfold step systemStep at h
  split at h
  · rename_i heq
    exact .inl ⟨by simp [heq], by simpa using h.symm⟩
  · rename_i hne
    refine .inr ⟨?_, ?_⟩
    · intro hh
      cases henv : s.env with
      | nil => simp [henv] at hh
      | cons e es =>
        rw [henv] at hh
        simp only [List.head?_cons, Option.some.injEq] at hh
        exact hne es (by rw [henv, hh])
    · unfold blockStep at h
      split at h
      · exact .inl ⟨_, _, by assumption, h⟩
      · split at h
        · exact .inr (.inl ⟨by assumption, _, _, by assumption, by simpa using h.symm⟩)
        · exact .inr (.inr ⟨by assumption, by assumption, by simpa using h.symm⟩)

end Sys2Proof.Machine
end

