-- ==== Sys2Proof/Laws/PerInstr.lean ====
section
/-! SUPPORT. The families of laws that are stated for every instruction, one lemma per constructor. -/

namespace Sys2Proof.Laws.EncodedLength

/-- The encoding of an instruction has the length of its format: R89 for a wire command, `11 + 2*count` characters for a
HEX line (R90). -/
def Statement (i : Instr) : Prop := (encode i).length = i.encodedLength

theorem encodeLine_length (a : Half) (type : Byte) (d : List Byte) (k : Byte) :
    (encodeLine a type d k).length = 11 + 2 * d.length := by
  have h : ∀ bs : List Byte, (bs.flatMap hexChars).length = 2 * bs.length := by
    intro bs
    induction bs with
    | nil => rfl
    | cons b bs ih => simp [hexChars, ih]; omega
  simp only [encodeLine, List.length_cons, h, List.length_append, List.length_nil]
  omega

theorem wrsr (v : Byte) : Statement (.wrsr v) := rfl
theorem program (addr : Half) (data : List Byte) : Statement (.program addr data) := by
  simp [Statement, encode, Instr.encodedLength]; omega
theorem read (addr : Half) (fill : List Byte) : Statement (.read addr fill) := by
  simp [Statement, encode, Instr.encodedLength]; omega
theorem wrdis : Statement .wrdis := rfl
theorem rdsr (fill : Byte) : Statement (.rdsr fill) := rfl
theorem wren : Statement .wren := rfl
theorem erasePage (page : Byte) : Statement (.erasePage page) := rfl
theorem eraseAll : Statement .eraseAll := rfl
theorem cmdRdismb : Statement .cmdRdismb := rfl
theorem cmdEndebug : Statement .cmdEndebug := rfl
theorem rdfpcr (fill : Byte) : Statement (.rdfpcr fill) := rfl
theorem hexData (address : Half) (payload : List Byte) (checksum : Byte) :
    Statement (.hexData address payload checksum) := encodeLine_length address 0x00#8 payload checksum
theorem hexEof (address : Half) (payload : List Byte) (checksum : Byte) :
    Statement (.hexEof address payload checksum) := encodeLine_length address 0x01#8 payload checksum

end Sys2Proof.Laws.EncodedLength
end

