-- ==== Sys2Proof/Tests/Slice0.lean ====
section
/-! SUPPORT. The model's own tests: ill-formed terms that WellFormed refuses, words written out from the spec's encodings,
single steps with the results of spec/95_test_vectors.md (V numbers), and for every statement with hypotheses a concrete
input that meets them (`witness_…`). Expected values come from the spec's rules and vectors. -/

namespace Sys2Proof.Tests

open Sys2Proof Sys2Proof.Machine

/-- The characters of a HEX line. -/
def ascii (s : String) : List Byte := s.toList.map (fun c => BitVec.ofNat 8 c.toNat)

/-- An open session, the target ready, the pins idle (0x38), the FSR as given. -/
def session (fsr : Byte) : State :=
  { State.reset with linkOpen := true, progmode := true, pins := 0x38#8, fsr := fsr }

/-- A session with the given tasks in progress. -/
def doing (fsr : Byte) (tasks : List Task) : State := { session fsr with tasks := tasks }

/-- What a step that answers a next state leaves, seen through `f`. -/
def got {α : Type} (o : Host.Outcome State Fault Refusal) (f : State → α) : Option α :=
  match o with
  | .next s => some (f s)
  | .fault _ => none
  | .refused _ => none

/-- Why a step was refused. -/
def why (o : Host.Outcome State Fault Refusal) : Option Refusal :=
  match o with
  | .next _ => none
  | .fault _ => none
  | .refused r => some r

/-! ## WellFormed: one ill-formed term for each check -/

set_option maxRecDepth 8000 in
theorem test_wf_payload_too_long :
    (Instr.hexData 0#16 (List.replicate 256 0#8) 0#8).wellFormed = false := by decide
set_option maxRecDepth 8000 in
theorem test_wf_payload_sum_is_right : checksumOk 0#16 0 (List.replicate 256 0#8) 0#8 = true := by decide
theorem test_wf_wrong_checksum : (Instr.hexData 0x0030#16 [0x02#8, 0x33#8, 0x7A#8] 0x1F#8).wellFormed = false := by decide
theorem test_wf_wrong_checksum_eof : (Instr.hexEof 0#16 [] 0xFE#8).wellFormed = false := by decide
theorem test_wf_good_eof : (Instr.hexEof 0#16 [] 0xFF#8).wellFormed = true := by decide

/-! ## Decoding: words written out bit by bit from R84 and R83, lines from the vectors -/

theorem test_decode_wrsr : decodeWire [0b00000001#8, 0b00001000#8] = .ok (.wrsr 0x08#8) := by decide
theorem test_decode_program :
    decodeWire [0b00000010#8, 0b00000110#8, 0b00000001#8, 0xDE#8] = .ok (.program 0x0601#16 [0xDE#8]) := by decide
theorem test_decode_read :
    decodeWire [0b00000011#8, 0b10000000#8, 0b00001011#8, 0#8, 0#8] = .ok (.read 0x800B#16 [0#8, 0#8]) := by decide
theorem test_decode_wrdis : decodeWire [0b00000100#8] = .ok .wrdis := by decide
theorem test_decode_rdsr : decodeWire [0b00000101#8, 0xA5#8] = .ok (.rdsr 0xA5#8) := by decide
theorem test_decode_wren : decodeWire [0b00000110#8] = .ok .wren := by decide
theorem test_decode_erase_page : decodeWire [0b01010010#8, 0b00011111#8] = .ok (.erasePage 31#8) := by decide
theorem test_decode_erase_all : decodeWire [0b01100010#8] = .ok .eraseAll := by decide
theorem test_decode_rdismb : decodeWire [0b10000101#8] = .ok .cmdRdismb := by decide
theorem test_decode_endebug : decodeWire [0b10000110#8] = .ok .cmdEndebug := by decide
theorem test_decode_rdfpcr : decodeWire [0b10001001#8, 0#8] = .ok (.rdfpcr 0#8) := by decide
/-- V3. -/
theorem test_decode_hex_data :
    decodeHex 255 (ascii ":0300300002337A1E") = .ok (.hexData 0x0030#16 [0x02#8, 0x33#8, 0x7A#8] 0x1E#8) := by decide
/-- V9: an end-of-file record with a payload. -/
theorem test_decode_hex_eof : decodeHex 255 (ascii ":0100000155A9") = .ok (.hexEof 0#16 [0x55#8] 0xA9#8) := by decide

/-- V61 and V62. -/
theorem test_wire_rejects :
    [[0x9F#8], [0x00#8], [0xFF#8], [0x06#8, 0x00#8], [0x05#8], [0x05#8, 0#8, 0#8], [0x03#8, 0#8], [0x52#8]].map decodeWire =
      [.error .unknownOpcode, .error .unknownOpcode, .error .unknownOpcode, .error .malformedLength,
        .error .malformedLength, .error .malformedLength, .error .malformedLength, .error .malformedLength] := by decide

/-- V4, V10, V12 (lower case; the rest of the line unread). -/
theorem test_hex_accepts :
    decodeHex 255 (ascii ":02ABCD00123440") = .ok (.hexData 0xABCD#16 [0x12#8, 0x34#8] 0x40#8) ∧
      decodeHex 255 (ascii ":0300300002337a1e") = decodeHex 255 (ascii ":0300300002337A1E") ∧
      decodeHex 255 (ascii ":0300300002337A1E:00000001FF") = decodeHex 255 (ascii ":0300300002337A1E") := by decide

/-- V13, V14, V16 to V23: one error each, in the order of R111. -/
theorem test_hex_rejects :
    [":1000000000010203", ":0000", ":00000001", ":020000040000FA", ":020000040000FB", "", " :00000001FF",
        ":03003000023G7A1E", ":0300300002337A1\r"].map (fun l => decodeHex 255 (ascii l)) =
      [.error .truncatedLine, .error .truncatedLine, .error .truncatedLine, .error .unsupportedRecordType,
        .error .checksumMismatch, .error .malformedLine, .error .malformedLine, .error .malformedLine,
        .error .malformedLine] := by decide

/-- V25: the size is tested before the length. -/
theorem test_hex_size_first : decodeHex 8 (ascii ":1000000000010203") = .error .bufferTooSmall := by decide

theorem test_table_words :
    [0x01, 0x02, 0x52, 0x86, 0x00].map (decodeTableWord 8) =
      [some (.wrsr 0#8), some (.program 0#16 []), some (.erasePage 0#8), some .cmdEndebug, some (.hexData 0#16 [] 0#8)] := by
  decide

/-! ## Wire commands -/

/-- V50. -/
theorem test_wren : got (exec .wren (session 0x00#8)) (·.fsr) = some 0x20#8 := by decide
/-- V63: busy. -/
theorem test_wren_busy : why (exec .wren (session 0x30#8)) = some .targetBusy := by decide
/-- V51. -/
theorem test_wrdis : got (exec .wrdis (session 0x20#8)) (·.fsr) = some 0x00#8 := by decide
/-- V52: latch and busy bit as they are, allowed while busy. -/
theorem test_rdsr : ∃ t, exec (.rdsr 0#8) (session 0x30#8) = .next t ∧
    fsrWen (t.resp.getD 1 0#8) = true ∧ fsrRdyn (t.resp.getD 1 0#8) = true ∧ fsrInfen (t.resp.getD 1 0#8) = false := by
  exact ⟨_, rfl, statusRead_bit 0x30#8 _ _ 5 (by decide), statusRead_bit 0x30#8 _ _ 4 (by decide),
    statusRead_bit 0x30#8 _ _ 3 (by decide)⟩
/-- V53b: bit 3 set, bit 4 clear, whatever the draws. -/
theorem test_wrsr : ∃ t, exec (.wrsr 0xFF#8) (session 0x00#8) = .next t ∧
    fsrInfen t.fsr = true ∧ fsrRdyn t.fsr = false := by
  refine ⟨_, rfl, ?_, ?_⟩
  · exact statusWritten_infen _ _ _
  · exact statusWritten_rdyn _ _ _

/-- The flash of V54: `DE AD BE EF` at 0x0600. -/
def v54 (fsr : Byte) : State :=
  { session fsr with main := [(0x600, 0xDE#8), (0x601, 0xAD#8), (0x602, 0xBE#8), (0x603, 0xEF#8)], info := [(0x0B, 0x11#8)] }

/-- V54, V54c. -/
theorem test_read :
    got (exec (.read 0x0600#16 [0#8, 0#8, 0#8, 0#8]) (v54 0x00#8)) (fun t => t.resp.drop 3) =
        some [0xDE#8, 0xAD#8, 0xBE#8, 0xEF#8] ∧
      got (exec (.read 0x000B#16 [0#8]) (v54 0x0C#8)) (fun t => t.resp.drop 3) = some [0x11#8] := by decide
/-- V54d, V54e: the last byte of a region is read, the next is refused. -/
theorem test_read_bounds :
    (why (exec (.read 0x3FFE#16 [0#8, 0#8]) (v54 0x00#8)) = none) ∧
      why (exec (.read 0x3FFF#16 [0#8, 0#8]) (v54 0x00#8)) = some .outsideRegion ∧
      (why (exec (.read 0x4000#16 []) (v54 0x00#8)) = none) ∧
      why (exec (.read 0x0200#16 [0#8]) (v54 0x08#8)) = some .outsideRegion := by decide
/-- V55: `FF FF 0F F0` ANDed with `DE AD BE EF`. -/
theorem test_program :
    got (exec (.program 0x0600#16 [0xDE#8, 0xAD#8, 0xBE#8, 0xEF#8])
        { session 0x20#8 with main := [(0x602, 0x0F#8), (0x603, 0xF0#8)] })
      (fun t => Memory.readRange t.main 0x5FF 6) = some [0xFF#8, 0xDE#8, 0xAD#8, 0x0E#8, 0xE0#8, 0xFF#8] := by decide
/-- V55a, V55b. -/
theorem test_program_stops :
    got (exec (.program 0x0600#16 [0#8]) (v54 0x00#8)) (fun t => (t.fsr, t.main == (v54 0x00#8).main)) = some (0x00#8, true) ∧
      why (exec (.program 0x01FF#16 [0xAA#8, 0xBB#8]) (session 0x20#8)) = some .acrossPages := by decide
/-- V56: page 3 erased, the byte behind it kept. -/
theorem test_erase_page :
    got (exec (.erasePage 3#8) { session 0x20#8 with main := [(0x5FF, 1#8), (0x600, 2#8), (0x7FF, 3#8), (0x800, 4#8)] })
      (·.main) = some [(0x5FF, 1#8), (0x800, 4#8)] := by decide
/-- V56b, V56c. -/
theorem test_erase_page_index :
    why (exec (.erasePage 32#8) (session 0x20#8)) = some .pageIndexOutOfRange ∧
      why (exec (.erasePage 1#8) (session 0x28#8)) = some .pageIndexOutOfRange ∧
      got (exec (.erasePage 0#8) (v54 0x28#8)) (fun t => (t.main.length, t.info)) = some (4, []) := by decide
/-- V57. -/
theorem test_erase_all :
    got (exec .eraseAll (v54 0x20#8)) (fun t => (t.main, t.info)) = some ([], [(0x0B, 0x11#8)]) := by decide
/-- V58: with the latch, and without it. -/
theorem test_lock :
    (∃ t, exec .cmdRdismb (session 0x20#8) = .next t ∧ fsrRdismb t.fsr = true) ∧
      got (exec .cmdRdismb (session 0x00#8)) (·.fsr) = some 0x00#8 := by
  exact ⟨⟨_, rfl, statusMutated_bit 0x24#8 _ _ 2 (by decide)⟩, by decide⟩
/-- V59. -/
theorem test_rdfpcr :
    got (exec (.rdfpcr 0#8) { session 0x00#8 with fpcr := 0x5A#8 }) (fun t => t.resp.getD 1 0#8) = some 0x5A#8 := by decide
/-- V60. -/
theorem test_endebug : why (exec .cmdEndebug (session 0x00#8)) = some .debugCommandWithoutMeaning := by decide
/-- R141. -/
theorem test_not_in_program_mode : why (exec .wren State.reset) = some .notInProgramMode := by decide

/-! ## HEX records -/

/-- V3: three bytes stored, the fourth kept. -/
theorem test_hex_data :
    got (exec (.hexData 0x0030#16 [0x02#8, 0x33#8, 0x7A#8] 0x1E#8) { State.reset with dest := List.replicate 4 0xEE#8 })
      (·.dest) = some [0x02#8, 0x33#8, 0x7A#8, 0xEE#8] := by decide
/-- V29: one byte past the clamp. -/
theorem test_hex_data_clamped :
    got (exec (.hexData 0x0600#16 [0xDE#8, 0xAD#8, 0xBE#8, 0xEF#8] 0xBE#8)
        { State.reset with dest := List.replicate 4 0xEE#8, clamp := some (0, 0x0603) })
      (fun t => (t.dest, t.outcome)) =
      some (List.replicate 4 0xEE#8, some (.error (.decode .bufferTooSmall))) := by decide
/-- V9, V33: nothing stored, not clamped. -/
theorem test_hex_eof :
    got (exec (.hexEof 0#16 [0x55#8] 0xA9#8) { State.reset with dest := [0xEE#8], clamp := some (0, 0) })
      (fun t => (t.dest, t.outcome)) =
      some ([0xEE#8], some (.ok (.record ⟨1#8, 0#16, .endOfFile, [0x55#8], 0xA9#8⟩))) := by decide

/-! ## Frames -/

/-- The default parameters with `HOLD` and `CHUNK_BYTES` as given. -/
def params (hold : Bool) (chunk : Nat) : Params := { Params.default with hold := hold, chunkBytes := chunk, fifoCap := 48 }

/-- V42. -/
theorem test_frames_wren :
    transferFrames Params.default 0x38#8 [0x06#8] =
      [0x30#8, 0x30#8, 0x31#8, 0x30#8, 0x30#8, 0x31#8, 0x30#8, 0x30#8, 0x31#8, 0x30#8, 0x30#8, 0x31#8, 0x30#8, 0x30#8,
        0x31#8, 0x30#8, 0x32#8, 0x33#8, 0x32#8, 0x32#8, 0x33#8, 0x32#8, 0x30#8, 0x31#8, 0x30#8, 0x38#8] := by decide
/-- V43: `HOLD = 1`. -/
theorem test_frames_hold :
    transferFrames (params true 1) 0x38#8 [0xA5#8] =
      [0x30#8, 0x32#8, 0x33#8, 0x33#8, 0x32#8, 0x30#8, 0x31#8, 0x31#8, 0x30#8, 0x32#8, 0x33#8, 0x33#8, 0x32#8, 0x30#8,
        0x31#8, 0x31#8, 0x30#8, 0x30#8, 0x31#8, 0x31#8, 0x30#8, 0x32#8, 0x33#8, 0x33#8, 0x32#8, 0x30#8, 0x31#8, 0x31#8,
        0x30#8, 0x32#8, 0x33#8, 0x33#8, 0x32#8, 0x3A#8] := by decide
set_option maxRecDepth 8000 in
/-- V45: five phases of 1, 48, 48, 24 and 1 frames, the first frame 0x32, the last 0x38. -/
theorem test_frames_chunks :
    (transferPhases (params false 2) 0x3A#8 [3#8, 6#8, 0#8, 0#8, 0#8]).map (fun ph => (ph.frames.length, ph.count)) =
        [(1, 0), (48, 2), (48, 2), (24, 1), (1, 0)] ∧
      (transferFrames (params false 2) 0x3A#8 [3#8, 6#8, 0#8, 0#8, 0#8]).head? = some 0x32#8 ∧
      (transferFrames (params false 2) 0x3A#8 [3#8, 6#8, 0#8, 0#8, 0#8]).getLast? = some 0x38#8 := by decide
/-- V41: the answer `00 20` read back through the samples, with either sample lag. -/
theorem test_sampling :
    (runPhases Params.default (bufferBits [0x00#8, 0x20#8]) (session 0#8).lines
        (transferPhases Params.default 0x38#8 [0x05#8, 0#8])).2 = [0x00#8, 0x20#8] ∧
      (runPhases { Params.default with sampleLag := false } (bufferBits [0x00#8, 0x20#8]) (session 0#8).lines
        (transferPhases Params.default 0x38#8 [0x05#8, 0#8])).2 = [0x00#8, 0x20#8] := by decide
/-- V46. -/
theorem test_frames_empty : transferFrames Params.default 0x38#8 [] = [0x30#8, 0x38#8] := by decide
/-- V47. -/
theorem test_entry_frames : entryFrames Params.default = [0x38#8, 0x28#8, 0x38#8] := by decide
/-- V49. -/
theorem test_transfer_link_closed : why (step { State.reset with tasks := [.xfer [5#8, 0#8]] }) = some .linkClosed := by decide

set_option maxRecDepth 20000 in
/-- A word placed by `withFetchWord` is what the next step runs: one `RDSR` in 50 frames (V40), a lock without the latch. -/
theorem test_fetch :
    got (step (State.reset.withFetchWord 8 0x05)) (fun t => (t.received, t.buffer.length, t.frames.length, t.pins)) =
        some ([0x05#8], 2, 50, 0x38#8) ∧
      got (step (State.reset.withFetchWord 8 0x85)) (fun t => (t.received, t.fsr)) = some ([0x85#8], 0x00#8) := by decide
set_option maxRecDepth 20000 in
/-- V47: two steps of `begin`; and `end` emits nothing. -/
theorem test_begin_end :
    got (runSteps 2 { State.reset with tasks := [.openLink 1 2] }) (fun t => (t.frames, t.pins, t.linkOpen, t.progmode)) =
        some ([0x38#8, 0x28#8, 0x38#8], 0x38#8, true, true) ∧
      (closeStep (session 0#8)).linkOpen = false := by decide

/-! ## Host layer -/

/-- V92, with small pages: `2, _, 2, _, _, 1` becomes `4, 0, 0, _, _, 1`. -/
theorem test_compact : compactRuns [2, 0, 2, 0, 0, 1] = [4, 0, 0, 0, 0, 1] := by decide
/-- V100. -/
theorem test_erase_bit :
    [(0xFF, 0x00), (0xFF, 0xFF), (0xF0, 0x0F), (0xF0, 0x30), (0x00, 0x01), (0xA5, 0xA4), (0xA5, 0xA7)].map
        (fun c : Nat × Nat => eraseBit (BitVec.ofNat 8 c.1) (BitVec.ofNat 8 c.2)) =
      [false, false, true, false, true, false, true] := by decide
/-- V94's offset, on its last record alone. -/
theorem test_highest_offset :
    highestOffset [⟨8#8, 0x03E0#16, .data, List.replicate 8 0xE0#8, 0xF9#8⟩] = .ok 0x3C00 := by decide
/-- V93b. -/
theorem test_record_outside_flash :
    placeRecord 0 ⟨[], []⟩ ⟨1#8, 0x4000#16, .data, [0#8], 0xBE#8⟩ = .error (.error .bufferTooSmall) := by decide

/-- Log entry 25: the record outside flash (V93b) stands before the malformed line; the highest placement decodes all first. -/
theorem test_plan_order :
    (match planFile (.atOffset 0) [ascii ":0140000001BE", ascii "x"], planFile .highest [ascii ":0140000001BE", ascii "x"] with
      | .error e, .error f => some (e, f)
      | _, _ => none) = some (.error .bufferTooSmall, .error .malformedLine) := by decide

/-- R38, R226: the planner's own plan is discarded once the page is committed, the host's own plan is not its to discard. -/
theorem test_plan_discarded :
    (smartReadStep emptyPlan 0 [] false false { session 0#8 with plans := emptyPlans }).tasks.getLast? =
        some (.discardPlan 0) ∧
      (smartReadStep emptyPlan 0 [] false false (session 0#8)).tasks.getLast? =
        some (.smartDecide emptyPlan 0 [] false false) := by
  refine ⟨?_, rfl⟩
  rw [smartReadStep, if_pos ((State.ownsPlan_iff _ _ _ _).mpr ⟨rfl, rfl⟩)]
  rfl

/-- R38: the writer leaves its booleans in the planner's plan of the page. -/
theorem test_plan_mutated :
    (smartDecideStep ⟨false, false, 1, [1]⟩ 0 [0x0F#8] false false
        { session 0#8 with plans := [⟨false, false, 1, [1]⟩], buffer := [0xF0#8] }).plans = [⟨true, true, 1, [1]⟩] := by
  decide

set_option maxRecDepth 20000 in
/-- V90's record split over two pages: runs, byte counts, and the last byte's place in the image. -/
theorem test_split_record :
    (match placeRecord 0 ⟨[emptyPlan, emptyPlan], []⟩
        ⟨10#8, 506#16, .data, [0xA0#8, 0xA1#8, 0xA2#8, 0xA3#8, 0xA4#8, 0xA5#8, 0xA6#8, 0xA7#8, 0xA8#8, 0xA9#8], 0x8E#8⟩ with
      | .ok st => (st.plans.map (fun plan => (plan.bytesToWrite, plan.runs.sum)), st.image.getLast?,
          runAt (st.plans.getD 0 emptyPlan).runs 506, runAt (st.plans.getD 1 emptyPlan).runs 0)
      | .error _ => ([], none, 0, 0)) = ([(6, 6), (4, 4)], some (515, 0xA9#8), 6, 4) := by decide

/-! ## Witnesses: for each statement with hypotheses, concrete values that meet all of them, clause by clause -/

theorem witness_WireEncodingRoundTrip :
    (Instr.program 0xFFFF#16 [0x00#8, 0xFF#8]).isWire = true ∧ (Instr.program 0xFFFF#16 [0x00#8, 0xFF#8]).wellFormed = true := by
  decide

set_option maxRecDepth 8000 in
/-- The longest payload, with the least capacity that takes any record. -/
theorem witness_HexLineRoundTrip :
    (Instr.hexData 0xFFFF#16 (List.replicate 255 0#8) 0x03#8).isWire = false ∧
      (Instr.hexData 0xFFFF#16 (List.replicate 255 0#8) 0x03#8).wellFormed = true ∧ Config.hexMaxPayload ≤ 255 := by decide

theorem witness_WireBytesHaveOneMeaning : decodeWire [0x03#8, 0xFF#8, 0xFF#8] = .ok (.read 0xFFFF#16 []) := by decide

theorem witness_DecodedRecordReencodesItsChecksum :
    decodeHex 0 (ascii ":00001000F0") = .ok (.hexData 0x0010#16 [] 0xF0#8) ∧
      decodeHex 1 (ascii ":0100000155A9") = .ok (.hexEof 0#16 [0x55#8] 0xA9#8) := by decide

/-- A line in lower case whose checksum byte is one off the sum's. -/
theorem witness_DecodeErrorsLeaveDestination :
    (hexBytes ((ascii "010000000afe").take 8) = some [1#8, 0#8, 0#8, 0#8] ∧ (1#8 : Byte).toNat ≤ [0xEE#8].length ∧
        11 + 2 * (1#8 : Byte).toNat ≤ (ascii "010000000afe").length + 1 ∧
        hexBytes (((ascii "010000000afe").drop 8).take (2 * (1#8 : Byte).toNat + 2)) = some [0x0A#8, 0xFE#8] ∧
        (1 + 0 + 0 + 0 + ([0x0A#8, 0xFE#8].map BitVec.toNat).sum) % 256 ≠ 0) ∧
      ∃ t, decodeLineStep (ascii ":010000000afe") [0xEE#8] none State.reset = .next t ∧
        t.outcome = some (.error (.decode .checksumMismatch)) :=
  ⟨by decide, _, rfl, by decide⟩

theorem witness_LineWithoutColonIsMalformed :
    ([] : List Byte).head? ≠ some startCode ∧ (ascii " :00000001FF").head? ≠ some startCode := by decide

/-- Each test of R111 at its boundary: 8 characters in all; 9 with a bad digit; a header of count 16 with capacities 15 and
16; a line one character short; a full line with a bad digit; a wrong sum; a right sum of each of the three kinds of type. -/
theorem witness_HexTestsInOrder :
    (ascii "0000000").length + 1 < 9 ∧
      (9 ≤ (ascii "0000000G").length + 1 ∧ ∃ c ∈ (ascii "0000000G").take 8, hexVal c = none) ∧
      hexBytes ((ascii "10000000").take 8) = some [0x10#8, 0#8, 0#8, 0#8] ∧ 15 < (0x10#8 : Byte).toNat ∧
      (hexBytes ((ascii "000000000").take 8) = some [0#8, 0#8, 0#8, 0#8] ∧ (ascii "000000000").length + 1 < 11) ∧
      (hexBytes ((ascii "000000000G").take 8) = some [0#8, 0#8, 0#8, 0#8] ∧ 11 ≤ (ascii "000000000G").length + 1 ∧
        ∃ c ∈ ((ascii "000000000G").drop 8).take 2, hexVal c = none) ∧
      (hexBytes ((ascii "00000000fF").take 8) = some [0#8, 0#8, 0#8, 0#8] ∧ 11 ≤ (ascii "00000000fF").length + 1 ∧
        hexBytes (((ascii "00000000fF").drop 8).take 2) = some [0xFF#8] ∧
        (0 + 0 + 0 + 0 + ([0xFF#8].map BitVec.toNat).sum) % 256 ≠ 0) ∧
      ([("00000000", "00", 0), ("00000001", "fF", 1), ("00000002", "FE", 2)].map
          (fun l => (hexBytes ((ascii (l.1 ++ l.2.1)).take 8), hexBytes (((ascii (l.1 ++ l.2.1)).drop 8).take 2))) =
        [(some [0#8, 0#8, 0#8, 0#8], some [0x00#8]), (some [0#8, 0#8, 0#8, 1#8], some [0xFF#8]),
          (some [0#8, 0#8, 0#8, 2#8], some [0xFE#8])] ∧
        [0 + 0x00, 1 + 0xFF, 2 + 0xFE].map (fun n => n % 256) = [0, 0, 0]) := by decide

theorem witness_UnsupportedRecordTypeFails :
    ([] : List Byte).length ≤ Config.hexMaxPayload ∧ ([] : List Byte).length ≤ 0 ∧ 2 ≤ (2#8 : Byte).toNat ∧
      checksumOk 0#16 (2#8 : Byte).toNat [] 0xFE#8 = true := by decide

/-- A destination of exactly the payload's size. -/
def oneByteCall (clamp : Clamp) : State := { State.reset with dest := [0xEE#8], clamp := clamp }

theorem witness_HexDataStoresPayload :
    [0x55#8].length ≤ (oneByteCall none).dest.length ∧ checksumOk 0#16 0 [0x55#8] 0xAA#8 = true ∧
      clampExceeded (oneByteCall none).clamp 0#16 1 = false := by decide

theorem witness_HexEofTerminates :
    [0x55#8].length ≤ (oneByteCall none).dest.length ∧ checksumOk 0#16 1 [0x55#8] 0xA9#8 = true := by decide

/-- A record that ends at 17, with maximum sizes 16 and 17. -/
theorem witness_ClampRejectsOverrun :
    (oneByteCall (some (0, 16))).clamp = some (0, 16) ∧ (oneByteCall (some (0, 17))).clamp = some (0, 17) ∧
      [0x55#8].length ≤ (oneByteCall none).dest.length ∧ checksumOk 16#16 0 [0x55#8] 0x9A#8 = true ∧
      16 < (16#16 : Half).toNat + 0 + [0x55#8].length ∧ (16#16 : Half).toNat + 0 + [0x55#8].length ≤ 17 := by decide

theorem session_accepts (fsr : Byte) (h : fsrRdyn fsr = false) : acceptsCommand (session fsr) := ⟨rfl, h⟩

theorem witness_WrenSetsLatch : acceptsCommand (session 0x00#8) := session_accepts _ (by decide)
theorem witness_WrdisClearsLatch : acceptsCommand (session 0x20#8) := session_accepts _ (by decide)
theorem witness_RdsrReadsStatus : (session 0x30#8).progmode = true := rfl
theorem witness_WrsrWritesInfen : acceptsCommand (session 0x04#8) := session_accepts _ (by decide)
theorem witness_RdfpcrReadsFpcr : acceptsCommand (session 0x08#8) := session_accepts _ (by decide)

/-- The last byte of main flash, and of the info page under the lock. -/
theorem witness_ReadAnswersRegion :
    (acceptsCommand (session 0x00#8) ∧ (0x3FFF#16 : Half).toNat + [0#8].length ≤ (session 0x00#8).regionSize ∧
        fsrRdismb (session 0x00#8).fsr = false) ∧
      (acceptsCommand (session 0x0C#8) ∧ (0x01FF#16 : Half).toNat + [0#8].length ≤ (session 0x0C#8).regionSize ∧
        fsrInfen (session 0x0C#8).fsr = true) := by
  unfold acceptsCommand; decide

/-- The last two bytes of a page. -/
theorem witness_ProgramAndsBytes :
    acceptsCommand (session 0x20#8) ∧ flashWf (session 0x20#8) ∧ fsrWen (session 0x20#8).fsr = true ∧
      [0#8, 0#8] ≠ [] ∧ (0x01FE#16 : Half).toNat + [0#8, 0#8].length ≤ (session 0x20#8).regionSize ∧
      (0x01FE#16 : Half).toNat / 512 = ((0x01FE#16 : Half).toNat + [0#8, 0#8].length - 1) / 512 := by
  unfold acceptsCommand flashWf; decide

/-- The last page of main flash, and the info page. -/
theorem witness_ErasePageSetsBytes :
    (acceptsCommand (session 0x20#8) ∧ fsrWen (session 0x20#8).fsr = true ∧
        (31#8 : Byte).toNat < (if fsrInfen (session 0x20#8).fsr then 1 else 32)) ∧
      (acceptsCommand (session 0x28#8) ∧ fsrWen (session 0x28#8).fsr = true ∧
        (0#8 : Byte).toNat < (if fsrInfen (session 0x28#8).fsr then 1 else 32)) := by
  unfold acceptsCommand; decide

/-- The info page selected, with either value of the parameter. -/
def infoSession (hits : Bool) : State :=
  { session 0x28#8 with params := { Params.default with eraseAllHitsInfo := hits } }

theorem witness_EraseAllSetsMain :
    (acceptsCommand (infoSession true) ∧ fsrWen (infoSession true).fsr = true ∧
        (fsrInfen (infoSession true).fsr && (infoSession true).params.eraseAllHitsInfo) = true) ∧
      (acceptsCommand (infoSession false) ∧ fsrWen (infoSession false).fsr = true ∧
        (fsrInfen (infoSession false).fsr && (infoSession false).params.eraseAllHitsInfo) = false) := by
  unfold acceptsCommand; decide

theorem witness_LockCommandSetsRdismb : acceptsCommand (session 0x20#8) ∧ fsrWen (session 0x20#8).fsr = true :=
  ⟨session_accepts _ (by decide), by decide⟩

/-- A latched-out command, and an empty program at the very end of main flash with the latch set. -/
theorem witness_UnlatchedCommandIsIgnored :
    (acceptsCommand (session 0x00#8) ∧ fsrWen (session 0x00#8).fsr = false) ∧
      (acceptsCommand (session 0x20#8) ∧ (0x4000#16 : Half).toNat ≤ (session 0x20#8).regionSize) := by
  unfold acceptsCommand; decide

theorem witness_OutsideProgramModeIsRefused : Instr.wren.isWire = true ∧ State.reset.progmode = false := by decide

theorem witness_BusyTargetAnswersOnlyRdsr :
    (Instr.rdsr 0#8).isWire = true ∧ Instr.wren.isWire = true ∧ (session 0x10#8).progmode = true ∧
      fsrRdyn (session 0x10#8).fsr = true := by decide

/-- Each bound one past: a read and a program behind main flash, a program over a page boundary, page 32, info page 1. -/
theorem witness_OutOfBoundsIsRefused :
    acceptsCommand (session 0x20#8) ∧ fsrWen (session 0x20#8).fsr = true ∧
      (session 0x20#8).regionSize < (0x4000#16 : Half).toNat + [0#8].length ∧
      ((0x01FF#16 : Half).toNat + [0#8, 0#8].length ≤ (session 0x20#8).regionSize ∧
        (0x01FF#16 : Half).toNat / 512 ≠ ((0x01FF#16 : Half).toNat + [0#8, 0#8].length - 1) / 512) ∧
      (if fsrInfen (session 0x20#8).fsr then 1 else 32) ≤ (32#8 : Byte).toNat ∧
      (if fsrInfen (session 0x28#8).fsr then 1 else 32) ≤ (1#8 : Byte).toNat := by
  unfold acceptsCommand; decide

theorem witness_ClosedLatchProtectsFlash :
    fsrWen (session 0x00#8).fsr = false ∧ ∃ t, exec .eraseAll (session 0x00#8) = .next t := ⟨by decide, _, rfl⟩

theorem witness_OnlyWrsrChangesInfen :
    (∀ v, Instr.eraseAll ≠ .wrsr v) ∧ ∃ t, exec .eraseAll (session 0x28#8) = .next t :=
  ⟨(fun _ h => nomatch h), _, rfl⟩

/-- An idle session with a busy target, and what the ready step makes of it. -/
def readyRun (k : Nat) : State :=
  if k = 0 then session 0x10#8 else { (session 0x10#8).readyStep with env := if k = 1 then [] else [.go] }

/-- A busy target and a ready one; and a fair run: the target is busy, takes its ready step, and nothing follows. -/
theorem witness_ReadyStepEndsBusy :
    (({ session 0x30#8 with env := [.ready] }).env = [.ready] ∧ fsrRdyn (session 0x30#8).fsr = true ∧
      fsrRdyn (session 0x20#8).fsr = false) ∧
      FairRun readyRun (fun k => if k = 0 then .ready else .go) := by
  refine ⟨by decide, ⟨fun k => ?_, fun n h => ?_⟩⟩
  · match k with
    | 0 => exact ⟨fun _ => by decide, rfl⟩
    | 1 => exact ⟨nofun, rfl⟩
    | k + 2 => exact ⟨nofun, rfl⟩
  · have hr : fsrRdyn (readyRun (n + 1)).fsr = false := by
      have : (readyRun (n + 1)).fsr = statusReady 0x10#8 (Config.freeBit 0) := rfl
      rw [this, fsrRdyn, statusReady_bit _ _ 4 (by decide)]
      rfl
    rw [h (n + 1) (by omega)] at hr
    cases hr

theorem default_betweenTransfers : betweenTransfers Params.default 0x38#8 := by unfold betweenTransfers; decide

theorem witness_FrameLevelDeliversWireLevel :
    Params.default.wf = true ∧ betweenTransfers Params.default (session 0#8).lines.levels ∧
      (session 0#8).lines.fifo = [] ∧ [0x00#8, 0x20#8].length = [0x05#8, 0x00#8].length :=
  ⟨by decide, default_betweenTransfers, rfl, rfl⟩

theorem witness_ChipSelectEnvelope : Params.default.wf = true ∧ betweenTransfers Params.default 0x38#8 :=
  ⟨by decide, default_betweenTransfers⟩

/-- The rising clock of the first bit: frames 1 and 2 of the transfer of 0xFF. -/
theorem witness_DataIsSetUpBeforeClock :
    Params.default.wf = true ∧ betweenTransfers Params.default 0x38#8 ∧
      (0x38#8 :: transferFrames Params.default 0x38#8 [0xFF#8])[2]? = some 0x32#8 ∧
      (0x38#8 :: transferFrames Params.default 0x38#8 [0xFF#8])[3]? = some 0x33#8 ∧
      pinLevel 0x32#8 Params.default.pinSck = false ∧ pinLevel 0x33#8 Params.default.pinSck = true ∧
      (0x38#8 :: transferFrames Params.default 0x38#8 [0xFF#8])[1]? = some 0x30#8 ∧
      pinLevel 0x30#8 Params.default.pinMosi ≠ pinLevel 0x32#8 Params.default.pinMosi :=
  ⟨by decide, default_betweenTransfers, by decide, by decide, by decide, by decide, by decide, by decide⟩

/-- A chunk that fills the FIFO exactly. -/
theorem witness_ChunksFitFifo : (params false 2).admitted = true ∧ 2 * (8 * (params false 2).framesPerBit) = 48 := by decide

theorem doing_ready (fsr : Byte) (tasks : List Task) : transferReady (doing fsr tasks) :=
  ⟨rfl, rfl, (by decide : Params.default.admitted = true), default_betweenTransfers, rfl, rfl⟩

set_option maxRecDepth 20000 in
/-- A command that goes on and one that is refused. -/
theorem witness_StepRunsDecodedCommand :
    transferReady (doing 0x00#8 [.xfer [0x06#8]]) ∧ (doing 0x00#8 [.xfer [0x06#8]]).params.backend = .bitbang ∧
      (doing 0x00#8 [.xfer [0x06#8]]).tasks = [.xfer [0x06#8]] ∧ decodeWire [0x06#8] = .ok .wren ∧
      (∃ t, exec .wren { doing 0x00#8 [.xfer [0x06#8]] with tasks := [], received := [0x06#8] } = .next t) ∧
      transferReady (doing 0x10#8 [.xfer [0x06#8]]) ∧
      exec .wren { doing 0x10#8 [.xfer [0x06#8]] with tasks := [], received := [0x06#8] } = .refused .targetBusy :=
  ⟨doing_ready _ _, rfl, rfl, by decide, ⟨_, rfl⟩, doing_ready _ _, rfl⟩

/-- A line that is a record and one that is not. -/
theorem witness_StepRunsDecodedLine :
    (State.reset.withLine (ascii ":00000001FF")).env.head? ≠ some .ready ∧
      (State.reset.withLine (ascii ":00000001FF")).tasks =
        [.decodeLine (ascii ":00000001FF") (List.replicate Config.hexMaxPayload 0#8) none] ∧
      decodeHex 255 (ascii ":00000001FF") = .ok (.hexEof 0#16 [] 0xFF#8) ∧
      decodeHex 255 (ascii ":00000001FE") = .error .checksumMismatch := by
  refine ⟨nofun, rfl, by decide, by decide⟩

set_option maxRecDepth 20000 in
theorem witness_TransportsAgreeAtWireLevel :
    transferReady (doing 0x00#8 []) ∧ (∃ u, emulatorTransfer [0x06#8] (doing 0x00#8 []) = .next u) ∧
      (∃ t, bitbangTransfer [0x06#8] (doing 0x00#8 []) = .next t) ∧
      emulatorTransfer [0x86#8] (doing 0x00#8 []) = .refused .debugCommandWithoutMeaning :=
  ⟨doing_ready _ _, ⟨_, rfl⟩, ⟨_, rfl⟩, rfl⟩

theorem witness_BeginEntersProgramMode :
    ({ State.reset with tasks := [.openLink 1 2] }).linkOpen = false ∧ State.reset.env = [] ∧
      State.reset.params.backend = .bitbang ∧ State.reset.params.wf = true := by decide

theorem witness_BeginWithoutEffect :
    (session 0#8).linkOpen = true ∧ ({ State.reset with env := [.noOpen] }).linkOpen = false ∧
      ({ State.reset with env := [.noOpen] }).env = [.noOpen] := by decide

theorem witness_EndClosesLink : State.reset.linkOpen = false ∧ (session 0#8).linkOpen = true := by decide

theorem witness_TransferNeedsIntactLink :
    State.reset.linkOpen = false ∧ ({ session 0#8 with lost := true }).linkOpen = true ∧
      ({ session 0#8 with lost := true }).lost = true := by decide

/-- The last address that fits, the first that does not, and a third opcode. -/
theorem witness_ScatteredHeader :
    (0x03#8 = 0x03#8 ∨ 0x03#8 = (0x02#8 : Byte)) ∧ 65535 < 65536 ∧ 65536 ≤ 65536 ∧
      (0x05#8 ≠ (0x03#8 : Byte) ∧ 0x05#8 ≠ (0x02#8 : Byte)) := by decide

set_option maxRecDepth 20000 in
/-- The read phase of the only chunk but one fails during a program and during an erase. -/
theorem witness_TransportErrorAftermath :
    flashWf (session 0x20#8) ∧ betweenTransfers Params.default 0x38#8 ∧ (session 0x20#8).fifo = [] ∧
      1 < (transferPhases Params.default 0x38#8 [0x52#8, 0x1F#8]).length ∧
      decodeWire [0x52#8, 0x1F#8] = .ok (.erasePage 31#8) ∧
      decodeWire [0x02#8, 0x06#8, 0x00#8, 0x0F#8] = .ok (.program 0x0600#16 [0x0F#8]) ∧
      (∃ t, bitbangTransfer [0x52#8, 0x1F#8] { session 0x20#8 with env := [.fail 1 false] } = .next t) ∧
      (∃ t, bitbangTransfer [0x02#8, 0x06#8, 0x00#8, 0x0F#8] { session 0x20#8 with env := [.fail 1 true] } = .next t) := by
  refine ⟨by unfold flashWf; decide, default_betweenTransfers, rfl, by decide, by decide, by decide, ⟨_, rfl⟩, ⟨_, rfl⟩⟩

set_option maxRecDepth 20000 in
/-- Its first clause: an unknown opcode whose trailing sample is missed (phase 2 of 0 to 2), the last phase before that one, and a
`WREN` that goes on. -/
theorem witness_TransportErrorAftermath_order :
    (session 0x00#8).params.admitted = true ∧ betweenTransfers Params.default 0x38#8 ∧ (session 0x00#8).fifo = [] ∧
      2 + 1 = (transferPhases Params.default 0x38#8 [0x9F#8]).length ∧
      receive [0x9F#8] { session 0x00#8 with env := [.fail 2 false] } = .refused .unknownOpcode ∧
      1 + 1 < (transferPhases Params.default 0x38#8 [0x9F#8]).length ∧
      ∃ u, receive [0x06#8] { session 0x00#8 with env := [.fail 2 false] } = .next u :=
  ⟨by decide, default_betweenTransfers, rfl, by decide, rfl, by decide, ⟨_, rfl⟩⟩

set_option maxRecDepth 20000 in
/-- R246, R281: with the target busy, the leading frame's write phase fails before any clock; of a `transfer_scattered` that
fails the caller's buffer is as it was (R245); a `READ` past the region fails in its opcode's chunk, a short `RDSR` in its
only chunk. -/
theorem test_failed_phase :
    got (step { doing 0x10#8 [.xfer [0x06#8]] with env := [.fail 0 true] }) (fun t => (t.outcome, t.pins, t.buffer)) =
        some (some (.error (.transport .writeFailed)), 0x30#8, [0x06#8]) ∧
      got (step { doing 0x00#8 [.xfer [3#8, 0#8, 0#8, 7#8], .payload 3#8 [7#8]] with env := [.fail 4 false] })
        (fun t => (t.outcome, t.buffer)) = some (some (.error (.transport .readFailed)), [7#8]) ∧
      got (step { doing 0x00#8 [.xfer [3#8, 0x50#8, 0#8, 0#8]] with env := [.fail 1 true] })
        (fun t => (t.outcome, t.fsr)) = some (some (.error (.transport .writeFailed)), 0x00#8) ∧
      got (step { doing 0x00#8 [.xfer [5#8]] with env := [.fail 1 false] }) (fun t => (t.outcome, t.pins)) =
        some (some (.error (.transport .readFailed)), 0x32#8) := by
  refine ⟨?_, ?_, ?_, ?_⟩ <;> rfl

set_option maxRecDepth 20000 in
/-- R279, R82: once chip-select was released, a command without meaning is refused; not so where its write phase failed. -/
theorem test_released_command :
    why (step { doing 0x20#8 [.xfer [0x9F#8]] with env := [.fail 2 false] }) = some .unknownOpcode ∧
      why (step { doing 0x20#8 [.xfer [5#8]] with env := [.fail 2 false] }) = some .malformedLength ∧
      got (step { doing 0x20#8 [.xfer [0x9F#8]] with env := [.fail 2 true] }) (·.outcome) =
        some (some (.error (.transport .writeFailed))) := by
  refine ⟨?_, ?_, ?_⟩ <;> rfl

/-- V79: the check of a locked target after `begin`, the FSR read being 0x04. -/
theorem witness_ProtocolErrorChangesNothingElse :
    ({ session 0x04#8 with buffer := [0#8, 0x04#8], outcome := some (.ok .unit) }).outcome ≠
        some (.error (.protocol .deviceLocked)) ∧
      ∃ t, runTask .unlockedTest { session 0x04#8 with buffer := [0#8, 0x04#8], outcome := some (.ok .unit) } = .next t ∧
        t.outcome = some (.error (.protocol .deviceLocked)) := ⟨by decide, _, rfl, by decide⟩

theorem witness_ControllerOpcodes :
    ∃ t, runTask (.erasePage 3#8) (session 0#8) = .next t ∧ Task.xfer [0x52#8, 3#8] ∈ t.tasks := ⟨_, rfl, by decide⟩

/-- A transfer can take place, over the bit-banged driver, in program mode, with the given tasks in progress. -/
def atHand (s : State) (tasks : List Task) : Prop :=
  transferReady s ∧ s.params.backend = .bitbang ∧ s.progmode = true ∧ s.tasks = tasks

theorem doing_atHand (fsr : Byte) (tasks : List Task) : atHand (doing fsr tasks) tasks :=
  ⟨doing_ready fsr tasks, rfl, rfl, rfl⟩

/-- The latch set, and clear. -/
theorem witness_EnableWriteLatchSetsWen :
    (atHand (doing 0x20#8 [.latch]) [.latch] ∧ acceptsCommand (doing 0x20#8 [.latch]) ∧
        fsrWen (doing 0x20#8 [.latch]).fsr = true) ∧
      (atHand (doing 0x00#8 [.latch]) [.latch] ∧ acceptsCommand (doing 0x00#8 [.latch]) ∧
        fsrWen (doing 0x00#8 [.latch]).fsr = false) :=
  ⟨⟨doing_atHand _ _, ⟨rfl, by decide⟩, by decide⟩, ⟨doing_atHand _ _, ⟨rfl, by decide⟩, by decide⟩⟩

/-- The bit as wanted, and not. -/
theorem witness_SetInfoPageTogglesInfen :
    (atHand (doing 0x08#8 [.infoPage true]) [.infoPage true] ∧ acceptsCommand (doing 0x08#8 [.infoPage true]) ∧
        fsrInfen (doing 0x08#8 [.infoPage true]).fsr = true) ∧
      (atHand (doing 0x28#8 [.infoPage false]) [.infoPage false] ∧ acceptsCommand (doing 0x28#8 [.infoPage false]) ∧
        fsrInfen (doing 0x28#8 [.infoPage false]).fsr ≠ false) :=
  ⟨⟨doing_atHand _ _, ⟨rfl, by decide⟩, by decide⟩, ⟨doing_atHand _ _, ⟨rfl, by decide⟩, by decide⟩⟩

/-- A busy target with the least poll limit. -/
def busyOnce : State :=
  { doing 0x30#8 [.waitReady 0] with params := { Params.default with readyPollLimit := some 1 } }

theorem witness_WaitReadyPolls :
    (atHand (doing 0x00#8 [.waitReady 0]) [.waitReady 0] ∧ fsrRdyn (doing 0x00#8 [.waitReady 0]).fsr = false) ∧
      (atHand busyOnce [.waitReady 0] ∧ fsrRdyn busyOnce.fsr = true ∧
        busyOnce.params.readyPollLimit = some (0 + 1)) :=
  ⟨⟨doing_atHand _ _, by decide⟩, ⟨⟨rfl, rfl, by decide, default_betweenTransfers, rfl, rfl⟩, rfl, rfl, rfl⟩, by decide, rfl⟩

/-- A locked target, and an open one. -/
theorem witness_GatedReadChecksLock :
    (atHand (doing 0x04#8 [.readFlash 0 4 true]) [.readFlash 0 4 true] ∧
        fsrRdismb (doing 0x04#8 [.readFlash 0 4 true]).fsr = true) ∧
      (atHand (doing 0x00#8 [.readFlash 0 4 true]) [.readFlash 0 4 true] ∧
        fsrRdismb (doing 0x00#8 [.readFlash 0 4 true]).fsr = false) :=
  ⟨⟨doing_atHand _ _, by decide⟩, doing_atHand _ _, by decide⟩

/-- Two adjacent runs and a third that ends at the page's end. -/
theorem witness_CompactionLeavesNoAdjacentRuns :
    runsDisjoint [2, 0, 1, 0, 1] ∧ runAt (compactRuns [2, 0, 1, 0, 1]) 0 ≠ 0 := by
  refine ⟨?_, by decide⟩
  intro i hi
  have hlt : i < 5 := by
    by_contra h
    exact hi (by simp [runAt, List.getD_eq_getElem?_getD, show 5 ≤ i by omega])
  interval_cases i
  · refine ⟨by decide, fun k hk hn => ?_⟩
    by_contra hlt
    have : k = 1 := by simp [runAt] at hlt; omega
    subst this
    exact hn (by decide)
  · exact absurd (by decide) hi
  · exact ⟨by decide, fun k hk _ => by simp [runAt]; omega⟩
  · exact absurd (by decide) hi
  · exact ⟨by decide, fun k hk _ => by simp [runAt]; omega⟩

/-- An empty record; the first address outside flash, and a record over flash's end; the last byte of flash; V90's record
with its last byte one past the page. -/
theorem witness_RecordIsPlannedByPage :
    emptyPlans.length = 32 ∧ (∀ plan ∈ emptyPlans, plan.runs.length = 512) ∧
      ([] : List Byte).length = 0 ∧ (0x4000#16 : Half).toNat / 512 = 32 ∧
      ((0x3FFF#16 : Half).toNat / 512 + 1 = 32 ∧ 512 < (0x3FFF#16 : Half).toNat % 512 + 2) ∧
      ((0x3FFF#16 : Half).toNat / 512 < 32 ∧ (0x3FFF#16 : Half).toNat % 512 + 1 ≤ 512 ∧
        alreadyPlanned ⟨emptyPlans, []⟩ 0x3FFF 1 = false) ∧
      ((506#16 : Half).toNat / 512 + 1 < 32 ∧ 512 < (506#16 : Half).toNat % 512 + 7 ∧
        alreadyPlanned ⟨emptyPlans, []⟩ 506 7 = false) := by
  refine ⟨rfl, ?_, rfl, by decide, by decide, by decide, by decide⟩
  intro plan h
  rw [List.eq_of_mem_replicate h]
  exact List.length_replicate

/-- A plan of one run of two bytes. -/
def twoBytes : PagePlan := { eraseNeeded := false, writeNeeded := false, bytesToWrite := 2, runs := [0, 2, 0, 0] }

theorem witness_NecessityAnalysis :
    twoBytes.eraseNeeded = false ∧ twoBytes.writeNeeded = false ∧
      (analysePlan twoBytes [0#8, 0#8, 0xF0#8] [1#8, 0#8, 0x0F#8]).eraseNeeded = true ∧
      (analysePlan twoBytes [0#8, 0#8, 0xF0#8] [1#8, 0#8, 0x30#8]).eraseNeeded = false ∧
      (analysePlan twoBytes [0#8, 0#8, 0xF0#8] [1#8, 0#8, 0x30#8]).writeNeeded = true := by decide

/-- Offset 2 is the run's last, offset 3 is outside it. -/
theorem witness_MergeAndProgram :
    2 < [0xFF#8, 0xFF#8, 0xFF#8, 0xFF#8].length ∧ pending twoBytes.runs 2 ∧
      ¬ pending twoBytes.runs 3 ∧
      (analysePlan twoBytes [0xFF#8, 0xFF#8, 0xFF#8, 0xFF#8] [0#8, 1#8, 2#8, 3#8]).eraseNeeded = false := by
  refine ⟨by decide, ⟨1, by decide, by decide⟩, ?_, by decide⟩
  rintro ⟨i, h1, h2⟩
  interval_cases i <;> revert h2 <;> decide

theorem witness_EqualPageIsSkipped :
    twoBytes.writeNeeded = false ∧ ∀ o, pending twoBytes.runs o →
      pageByte [9#8, 1#8, 2#8, 9#8] o = pageByte ({ session 0#8 with buffer := [0#8, 1#8, 2#8, 3#8] }).buffer o := by
  refine ⟨rfl, ?_⟩
  rintro o ⟨i, h1, h2⟩
  have hi : i = 1 := by
    by_contra h
    have : runAt twoBytes.runs i = 0 := by
      match i, h with
      | 0, _ => rfl
      | 2, _ => rfl
      | 3, _ => rfl
      | n + 4, _ => simp [runAt, twoBytes]
    omega
  subst hi
  have : runAt twoBytes.runs 1 = 2 := rfl
  have : o = 1 ∨ o = 2 := by omega
  rcases this with rfl | rfl <;> decide

theorem session_good (fsr : Byte) (tasks : List Task) : Good (doing fsr tasks) :=
  ⟨by unfold flashWf; exact ⟨by rfl, by rfl⟩, fun _ _ _ => ⟨default_betweenTransfers, rfl⟩⟩

set_option maxRecDepth 20000 in
theorem witness_EveryStepKeepsGood :
    Good (doing 0x20#8 [.xfer [0x62#8]]) ∧ ∃ t, step (doing 0x20#8 [.xfer [0x62#8]]) = .next t :=
  ⟨session_good _ _, _, rfl⟩

set_option maxRecDepth 20000 in
theorem witness_StepsOnlyAndOrErase :
    Good (doing 0x20#8 [.xfer [0x52#8, 3#8]]) ∧ ∃ t, step (doing 0x20#8 [.xfer [0x52#8, 3#8]]) = .next t :=
  ⟨session_good _ _, _, rfl⟩

set_option maxRecDepth 20000 in
theorem witness_OnlySessionOpsChangeSession :
    ∃ t, step { State.reset with tasks := [.openLink 1 2] } = .next t ∧ t.linkOpen ≠ State.reset.linkOpen :=
  ⟨_, rfl, by decide⟩

end Sys2Proof.Tests
end

/-! SUPPORT and proofs of the family "state" (spec/10_state.md): the session's view of a state, what every task keeps of
it, and the invariant `Good` over whole steps. -/

namespace Sys2Proof.Machine

/-! ## The session and the flash, as the invariant sees them -/

/-- The parameters, the link with its pins and FIFO, and the mode: all that the claims on a session look at. -/
structure SessionView where
  params : Params
  pins : Byte
  linkOpen : Bool
  fifo : List Byte
  lost : Bool
  progmode : Bool

/-- The session's view of a state. -/
def State.sessionView (s : State) : SessionView where
  params := s.params
  pins := s.pins
  linkOpen := s.linkOpen
  fifo := s.fifo
  lost := s.lost
  progmode := s.progmode

theorem State.sessionView_eq_iff (s t : State) :
    t.sessionView = s.sessionView ↔
      t.params = s.params ∧ t.pins = s.pins ∧ t.linkOpen = s.linkOpen ∧ t.fifo = s.fifo ∧ t.lost = s.lost ∧
        t.progmode = s.progmode := by
  simp [State.sessionView]

theorem sessionPinsIdle_of_sessionView_eq {s t : State} (h : t.sessionView = s.sessionView)
    (hs : sessionPinsIdle s) : sessionPinsIdle t := by
  obtain ⟨hparams, hpins, hlink, hfifo, hlost, -⟩ := (State.sessionView_eq_iff s t).mp h
  simpa only [sessionPinsIdle, hparams, hpins, hlink, hfifo, hlost] using hs

theorem sessionPinsIdle_of_lost {s : State} (h : s.lost = true) : sessionPinsIdle s :=
  fun _ _ hlost => absurd (h.symm.trans hlost) (by decide)

theorem flashWf.of_flash_eq {s t : State} (hs : flashWf s) (hmain : t.main = s.main) (hinfo : t.info = s.info) :
    flashWf t := by
  simpa only [flashWf, hmain, hinfo] using hs

theorem State.region_wf {s : State} (hs : flashWf s) : Memory.wf s.regionSize s.region = true := by
  obtain ⟨hmain, hinfo⟩ := hs
  unfold State.regionSize State.region
  split
  · exact hinfo
  · exact hmain

theorem State.setRegion_flashWf {s : State} {m : Memory} (hs : flashWf s)
    (hm : Memory.wf s.regionSize m = true) : flashWf (s.setRegion m) := by
  obtain ⟨hmain, hinfo⟩ := hs
  unfold State.regionSize at hm
  unfold State.setRegion
  split at hm
  · rw [if_pos (by assumption)]
    exact ⟨hmain, hm⟩
  · rw [if_neg (by assumption)]
    exact ⟨hm, hinfo⟩

/-! ## Tasks of the host's side -/

/-- `t` has the session and the flash of `s`. -/
structure Undisturbed (s t : State) : Prop where
  session : t.sessionView = s.sessionView
  main : t.main = s.main
  info : t.info = s.info

theorem Undisturbed.good {s t : State} (h : Undisturbed s t) (hs : Good s) : Good t :=
  ⟨hs.1.of_flash_eq h.main h.info, sessionPinsIdle_of_sessionView_eq h.session hs.2⟩

theorem Undisturbed.of_next {s t u : State} (hu : Undisturbed s u)
    (h : (.next u : Host.Outcome State Fault Refusal) = .next t) : Undisturbed s t :=
  Host.Outcome.next.inj h ▸ hu

theorem Undisturbed.refl (s : State) : Undisturbed s s := ⟨rfl, rfl, rfl⟩

theorem State.push_undisturbed (s : State) (ts : List Task) : Undisturbed s (s.push ts) := ⟨rfl, rfl, rfl⟩

theorem State.raise_undisturbed (s : State) (e : OpError) : Undisturbed s (s.raise e) := ⟨rfl, rfl, rfl⟩

theorem State.finish_undisturbed (s : State) (v : Value) : Undisturbed s (s.finish v) := ⟨rfl, rfl, rfl⟩

theorem State.readyStep_undisturbed (s : State) : Undisturbed s s.spendEnv.readyStep :=
  ⟨by simp [State.sessionView], by simp, by simp⟩

theorem State.mutatePlan_undisturbed (s : State) (page : Nat) (isInfo : Bool) (given mutated : PagePlan) :
    Undisturbed s (s.mutatePlan page isInfo given mutated) :=
  ⟨by simp [State.sessionView], by simp, by simp⟩

theorem latchTestStep_undisturbed (s : State) : Undisturbed s (latchTestStep s) := by
  unfold latchTestStep
  split
  · exact .refl s
  · exact s.push_undisturbed _

theorem latchCheckStep_undisturbed (s : State) : Undisturbed s (latchCheckStep s) := by
  unfold latchCheckStep
  split
  · exact .refl s
  · exact s.raise_undisturbed _

theorem infoTestStep_undisturbed (want : Bool) (s : State) : Undisturbed s (infoTestStep want s) := by
  unfold infoTestStep
  split
  · exact .refl s
  · exact s.push_undisturbed _

theorem infoCheckStep_undisturbed (before : Bool) (s : State) : Undisturbed s (infoCheckStep before s) := by
  unfold infoCheckStep
  split
  · exact s.raise_undisturbed _
  · exact .refl s

theorem readyTestStep_undisturbed (polls : Nat) (s : State) : Undisturbed s (readyTestStep polls s) := by
  unfold readyTestStep
  split
  · exact .refl s
  · split
    · exact s.raise_undisturbed _
    · exact s.push_undisturbed _

theorem unlockedTestStep_undisturbed (s : State) : Undisturbed s (unlockedTestStep s) := by
  unfold unlockedTestStep
  split
  · exact s.raise_undisturbed _
  · exact .refl s

theorem smartDecideStep_undisturbed (plan : PagePlan) (page : Nat) (target : List Byte) (backup isInfo : Bool)
    (s : State) : Undisturbed s (smartDecideStep plan page target backup isInfo s) := by
  have hmutated := s.mutatePlan_undisturbed page isInfo plan (analysePlan plan s.buffer target)
  obtain ⟨-, hstep⟩ | ⟨-, hstep⟩ := smartDecideStep_cases plan page target backup isInfo s
  · rw [hstep]
    exact ⟨hmutated.session, hmutated.main, hmutated.info⟩
  · rw [hstep]
    exact hmutated

theorem payloadStep_undisturbed (op : Byte) (buffer : List Byte) (s : State) :
    Undisturbed s (payloadStep op buffer s) := ⟨rfl, rfl, rfl⟩

theorem smartBackupStep_undisturbed (contents : List Byte) (s : State) :
    Undisturbed s (smartBackupStep contents s) := ⟨rfl, rfl, rfl⟩

theorem discardPlanStep_undisturbed (page : Nat) (s : State) : Undisturbed s (discardPlanStep page s) :=
  ⟨rfl, rfl, rfl⟩

theorem smartVerifyStep_undisturbed (merged : List Byte) (s : State) : Undisturbed s (smartVerifyStep merged s) := by
  unfold smartVerifyStep
  split
  · exact .refl s
  · exact s.raise_undisturbed _

theorem imagePagesStep_undisturbed (pages : List Nat) (backup : Bool) (s : State) :
    Undisturbed s (imagePagesStep pages backup s) := by
  cases pages with
  | nil => exact .refl s
  | cons p ps =>
    simp only [imagePagesStep]
    split
    · exact s.push_undisturbed _
    · exact s.push_undisturbed _

theorem infoConfigStep_undisturbed (offset : Nat) (config : InfoPageConfig) (backup : Bool) (s : State) :
    Undisturbed s (infoConfigStep offset config backup s) := by
  unfold infoConfigStep
  split
  · exact s.raise_undisturbed _
  · exact s.push_undisturbed _

theorem scatteredStep_undisturbed {op : Byte} {address : Nat} {buffer : List Byte} {s t : State}
    (h : scatteredStep op address buffer s = .next t) : Undisturbed s t := by
  obtain ⟨-, -, rfl⟩ := scatteredStep_next _ _ _ _ _ h
  exact s.push_undisturbed _

theorem planStep_undisturbed {lines : List (List Byte)} {placement : Placement} {s t : State}
    (h : planStep lines placement s = .next t) : Undisturbed s t := by
  obtain ⟨st, -, rfl⟩ | ⟨e, -, rfl⟩ := planStep_next _ _ _ _ h
  · exact ⟨rfl, rfl, rfl⟩
  · exact s.raise_undisturbed _

/-- A record's tests either fail, which is an error of the operation, or hand on `k`. -/
theorem checkRecord_undisturbed {s k : State} (address : Half) (type : Nat) (payload : List Byte) (checksum : Byte)
    (hk : Undisturbed s k) : Undisturbed s (checkRecord s address type payload checksum k) := by
  obtain ⟨heq, -⟩ | ⟨heq, -⟩ | ⟨heq, -⟩ := checkRecord_cases s address type payload checksum k
  · rw [heq]
    exact s.raise_undisturbed _
  · rw [heq]
    exact s.raise_undisturbed _
  · rw [heq]
    exact hk

theorem execHexData_undisturbed {address : Half} {payload : List Byte} {checksum : Byte} {s t : State}
    (h : execHexData address payload checksum s = .next t) : Undisturbed s t := by
  refine .of_next (checkRecord_undisturbed _ _ _ _ ?_) h
  split
  · exact s.raise_undisturbed _
  · exact ⟨rfl, rfl, rfl⟩

theorem execHexEof_undisturbed {address : Half} {payload : List Byte} {checksum : Byte} {s t : State}
    (h : execHexEof address payload checksum s = .next t) : Undisturbed s t :=
  .of_next (checkRecord_undisturbed _ _ _ _ (s.finish_undisturbed _)) h

theorem classifyRecord_isWire {address : Half} {type : Byte} {payload : List Byte} {checksum : Byte} {i : Instr}
    (h : classifyRecord address type payload checksum = .ok i) : i.isWire = false := by
  unfold classifyRecord at h
  split at h
  · cases h
  · split at h
    · cases h
      rfl
    · split at h
      · cases h
        rfl
      · cases h

theorem decodeBody_isWire {cap len count : Nat} {address : Half} {type : Byte} {body : List Byte} {i : Instr}
    (h : decodeBody cap len count address type body = .ok i) : i.isWire = false := by
  unfold decodeBody at h
  split at h
  · cases h
  · split at h
    · cases h
    · split at h
      · cases h
      · exact classifyRecord_isWire h

/-- A HEX line is never a wire command. -/
theorem decodeHex_isWire {cap : Nat} {line : List Byte} {i : Instr} (h : decodeHex cap line = .ok i) :
    i.isWire = false := by
  cases line with
  | nil => cases h
  | cons c rest =>
    simp only [decodeHex] at h
    split at h
    · cases h
    · split at h
      · cases h
      · split at h
        · exact decodeBody_isWire h
        · cases h

theorem exec_undisturbed_of_hex {i : Instr} {s t : State} (hi : i.isWire = false) (h : exec i s = .next t) :
    Undisturbed s t := by
  cases i with
  | hexData address payload checksum => exact execHexData_undisturbed h
  | hexEof address payload checksum => exact execHexEof_undisturbed h
  | _ => cases hi

theorem decodeLineStep_undisturbed {line dest : List Byte} {clamp : Clamp} {s t : State}
    (h : decodeLineStep line dest clamp s = .next t) : Undisturbed s t := by
  obtain ⟨i, hi, hexec⟩ | ⟨e, -, rfl⟩ := decodeLineStep_next _ _ _ _ _ h
  · obtain ⟨hsession, hmain, hinfo⟩ := exec_undisturbed_of_hex (decodeHex_isWire hi) hexec
    exact ⟨hsession, hmain, hinfo⟩
  · exact ⟨rfl, rfl, rfl⟩

/-- The tasks that reach the bridge or the target: the session's and the transfer. -/
def Task.reachesDevice : Task → Bool
  | .openLink _ _ => true
  | .settle => true
  | .closeLink => true
  | .xfer _ => true
  | _ => false

/-- Every other task is the host's own: it leaves the session and the flash as they are. -/
theorem runTask_undisturbed {task : Task} {s t : State} (htask : task.reachesDevice = false)
    (h : runTask task s = .next t) : Undisturbed s t := by
  cases task with
  | openLink _ _ => cases htask
  | settle => cases htask
  | closeLink => cases htask
  | xfer _ => cases htask
  | scattered _ _ _ => exact scatteredStep_undisturbed h
  | payload _ _ => exact .of_next (payloadStep_undisturbed _ _ s) h
  | decodeLine _ _ _ => exact decodeLineStep_undisturbed h
  | latch => exact .of_next (s.push_undisturbed _) h
  | latchTest => exact .of_next (latchTestStep_undisturbed s) h
  | latchCheck => exact .of_next (latchCheckStep_undisturbed s) h
  | infoPage _ => exact .of_next (s.push_undisturbed _) h
  | infoTest _ => exact .of_next (infoTestStep_undisturbed _ s) h
  | infoCheck _ => exact .of_next (infoCheckStep_undisturbed _ s) h
  | waitReady _ => exact .of_next (s.push_undisturbed _) h
  | readyTest _ => exact .of_next (readyTestStep_undisturbed _ s) h
  | checkUnlocked => exact .of_next (s.push_undisturbed _) h
  | unlockedTest => exact .of_next (unlockedTestStep_undisturbed s) h
  | erasePage _ => exact .of_next (s.push_undisturbed _) h
  | eraseAll => exact .of_next (s.push_undisturbed _) h
  | program _ _ => exact .of_next (s.push_undisturbed _) h
  | readFlash _ _ _ => exact .of_next (s.push_undisturbed _) h
  | lock => exact .of_next (s.push_undisturbed _) h
  | planFile _ _ => exact planStep_undisturbed h
  | smartRead _ _ _ _ _ => exact .of_next (s.push_undisturbed _) h
  | smartDecide _ _ _ _ _ => exact .of_next (smartDecideStep_undisturbed _ _ _ _ _ s) h
  | smartBackup _ => exact .of_next (smartBackupStep_undisturbed _ s) h
  | smartVerify _ => exact .of_next (smartVerifyStep_undisturbed _ s) h
  | imagePages _ _ => exact .of_next (imagePagesStep_undisturbed _ _ s) h
  | discardPlan _ => exact .of_next (discardPlanStep_undisturbed _ s) h
  | infoConfig _ _ _ => exact .of_next (infoConfigStep_undisturbed _ _ _ s) h
  | ret _ => exact .of_next (s.finish_undisturbed _) h

/-! ## Commands: the session is not theirs, and the flash stays canonical -/

/-- No command changes the link, the pins, the mode or a parameter (R283). -/
theorem exec_sessionView {i : Instr} {s t : State} (h : exec i s = .next t) : t.sessionView = s.sessionView := by
  cases i with
  | wrsr _ =>
    obtain ⟨-, -, rfl⟩ := execWrsr_next _ _ _ h
    rfl
  | program _ _ =>
    obtain ⟨-, -, ⟨rfl, -⟩ | ⟨-, -, -, -, rfl⟩⟩ := execProgram_next _ _ _ _ h
    · rfl
    · simp [State.sessionView]
  | read _ _ =>
    obtain ⟨-, -, -, rfl⟩ := execRead_next _ _ _ _ h
    rfl
  | wrdis =>
    obtain ⟨-, -, rfl⟩ := execWrdis_next _ _ h
    rfl
  | rdsr fill =>
    obtain ⟨-, rfl⟩ := execRdsr_next fill _ _ h
    rfl
  | wren =>
    obtain ⟨-, -, rfl⟩ := execWren_next _ _ h
    rfl
  | erasePage _ =>
    obtain ⟨-, -, ⟨-, rfl⟩ | ⟨-, -, rfl⟩⟩ := execErasePage_next _ _ _ h
    · rfl
    · simp [State.sessionView]
  | eraseAll =>
    obtain ⟨-, -, ⟨-, rfl⟩ | ⟨-, rfl⟩⟩ := execEraseAll_next _ _ h
    · rfl
    · rfl
  | cmdRdismb =>
    obtain ⟨-, -, ⟨-, rfl⟩ | ⟨-, rfl⟩⟩ := execCmdRdismb_next _ _ h
    · rfl
    · rfl
  | cmdEndebug => cases h
  | rdfpcr fill =>
    obtain ⟨-, -, rfl⟩ := execRdfpcr_next fill _ _ h
    rfl
  | hexData _ _ _ => exact (execHexData_undisturbed h).session
  | hexEof _ _ _ => exact (execHexEof_undisturbed h).session

theorem execProgram_flashWf {addr : Half} {data : List Byte} {s t : State} (hs : flashWf s)
    (h : execProgram addr data s = .next t) : flashWf t := by
  obtain ⟨-, -, ⟨rfl, -⟩ | ⟨-, hin, -, -, rfl⟩⟩ := execProgram_next _ _ _ _ h
  · exact hs
  · have hbound : addr.toNat + data.length ≤ s.regionSize := by simpa [State.inRegion] using hin
    have hregion := Memory.andRange_wf _ _ _ _ hbound (State.region_wf hs)
    exact (State.setRegion_flashWf (s := s.reply _ _) hs hregion).of_flash_eq rfl rfl

theorem execErasePage_flashWf {page : Byte} {s t : State} (hs : flashWf s)
    (h : execErasePage page s = .next t) : flashWf t := by
  obtain ⟨-, -, ⟨-, rfl⟩ | ⟨-, -, rfl⟩⟩ := execErasePage_next _ _ _ h
  · exact hs
  · have hregion := Memory.eraseRange_wf _ _ (pageBase page.toNat) Config.pageSize (State.region_wf hs)
    exact (State.setRegion_flashWf (s := s.reply _ _) hs hregion).of_flash_eq rfl rfl

theorem State.massErased_flashWf {s : State} (hs : flashWf s) : flashWf s.massErased := by
  obtain ⟨hmain, hinfo⟩ := hs
  refine ⟨Memory.eraseRange_wf _ _ _ _ hmain, ?_⟩
  simp only [State.massErased]
  split
  · exact Memory.eraseRange_wf _ _ _ _ hinfo
  · exact hinfo

theorem execEraseAll_flashWf {s t : State} (hs : flashWf s) (h : execEraseAll s = .next t) : flashWf t := by
  obtain ⟨-, -, ⟨-, rfl⟩ | ⟨-, rfl⟩⟩ := execEraseAll_next _ _ h
  · exact hs
  · exact (State.massErased_flashWf (s := s.reply _ _) hs).of_flash_eq rfl rfl

/-- Only `PROGRAM` and the two erases write flash, and each keeps the canonical form. -/
theorem exec_flashWf {i : Instr} {s t : State} (hs : flashWf s) (h : exec i s = .next t) : flashWf t := by
  cases i with
  | program _ _ => exact execProgram_flashWf hs h
  | erasePage _ => exact execErasePage_flashWf hs h
  | eraseAll => exact execEraseAll_flashWf hs h
  | wrsr _ =>
    obtain ⟨-, -, rfl⟩ := execWrsr_next _ _ _ h
    exact hs
  | read _ _ =>
    obtain ⟨-, -, -, rfl⟩ := execRead_next _ _ _ _ h
    exact hs
  | wrdis =>
    obtain ⟨-, -, rfl⟩ := execWrdis_next _ _ h
    exact hs
  | rdsr fill =>
    obtain ⟨-, rfl⟩ := execRdsr_next fill _ _ h
    exact hs
  | wren =>
    obtain ⟨-, -, rfl⟩ := execWren_next _ _ h
    exact hs
  | cmdRdismb =>
    obtain ⟨-, -, ⟨-, rfl⟩ | ⟨-, rfl⟩⟩ := execCmdRdismb_next _ _ h
    · exact hs
    · exact hs
  | cmdEndebug => cases h
  | rdfpcr fill =>
    obtain ⟨-, -, rfl⟩ := execRdfpcr_next fill _ _ h
    exact hs
  | hexData _ _ _ =>
    have hkept := execHexData_undisturbed h
    exact hs.of_flash_eq hkept.main hkept.info
  | hexEof _ _ _ =>
    have hkept := execHexEof_undisturbed h
    exact hs.of_flash_eq hkept.main hkept.info

theorem receive_sessionView {m : List Byte} {s t : State} (h : receive m s = .next t) :
    t.sessionView = s.sessionView := by
  obtain ⟨-, rfl⟩ | ⟨op, rest, i, -, -, hexec⟩ := receive_next _ _ _ h
  · rfl
  · exact exec_sessionView (s := s.arrive op) hexec

theorem receive_flashWf {m : List Byte} {s t : State} (hs : flashWf s) (h : receive m s = .next t) : flashWf t := by
  obtain ⟨-, rfl⟩ | ⟨op, rest, i, -, -, hexec⟩ := receive_next _ _ _ h
  · exact hs
  · exact exec_flashWf (s := s.arrive op) hs hexec

/-! ## Commands in flight (R277) -/

/-- The bytes of a `PROGRAM` in flight that lie in a region keep it canonical; of one past its end there are none. -/
theorem Memory.andRange_clipped_wf (size : Nat) (m : Memory) (base : Nat) (data : List Byte)
    (hlen : data.length ≤ size - base) (h : Memory.wf size m = true) :
    Memory.wf size (Memory.andRange m base data) = true := by
  by_cases hbase : base ≤ size
  · exact Memory.andRange_wf _ _ _ _ (by omega) h
  · obtain rfl : data = [] := List.eq_nil_of_length_eq_zero (by omega)
    exact h

theorem State.massCut_flashWf {s : State} (hs : flashWf s) : flashWf s.massCut := by
  obtain ⟨hmain, hinfo⟩ := hs
  refine ⟨Memory.eraseSome_wf _ _ _ _ _ hmain, ?_⟩
  simp only [State.massCut]
  split
  · exact Memory.eraseSome_wf _ _ _ _ _ hinfo
  · exact hinfo

theorem cutFlash_flashWf (i : Instr) {s : State} (hs : flashWf s) : flashWf (cutFlash i s) := by
  obtain heq | ⟨-, ⟨addr, data, -, heq⟩ | ⟨page, -, -, heq⟩ | ⟨-, heq⟩⟩ := cutFlash_cases i s
  · rw [heq]
    exact hs
  · rw [heq]
    have hregion := Memory.andRange_clipped_wf _ _ addr.toNat
      (s.freeBytes (min data.length (s.regionSize - addr.toNat))) (by simp) (State.region_wf hs)
    exact (State.setRegion_flashWf hs hregion).of_flash_eq rfl rfl
  · rw [heq]
    have hregion := Memory.eraseSome_wf _ _ (pageBase page.toNat) Config.pageSize s.draws (State.region_wf hs)
    exact (State.setRegion_flashWf hs hregion).of_flash_eq rfl rfl
  · rw [heq]
    exact (State.massCut_flashWf hs).of_flash_eq rfl rfl

theorem cutCommand_flashWf (m : List Byte) (clocked : Bool) {s : State} (hs : flashWf s) :
    flashWf (cutCommand m clocked s) := by
  obtain ⟨i, -, heq⟩ | ⟨-, -, -, heq⟩ | ⟨-, -, heq⟩ := cutCommand_cases m clocked s
  · rw [heq]
    exact (cutFlash_flashWf i hs).of_flash_eq rfl rfl
  · rw [heq]
    exact State.scrambled_wf s hs.1 hs.2
  · rw [heq]
    exact hs

theorem cutShort_flashWf (m : List Byte) (clocked : Bool) {s : State} (hs : flashWf s) :
    flashWf (cutShort m clocked s) :=
  (cutCommand_flashWf m clocked (hs.of_flash_eq (s.answering_main m) (s.answering_info m))).of_flash_eq rfl rfl

theorem cutShort_sessionView (m : List Byte) (clocked : Bool) (s : State) :
    (cutShort m clocked s).sessionView = s.sessionView := by
  simp [State.sessionView, cutShort]

theorem interrupted_sessionView {m : List Byte} {reached : Reached} {s t : State}
    (h : interrupted m reached s = .next t) : t.sessionView = s.sessionView := by
  obtain ⟨rfl, -⟩ := interrupted_next _ _ _ _ h
  exact cutShort_sessionView _ _ s

theorem interrupted_flashWf {m : List Byte} {reached : Reached} {s t : State} (hs : flashWf s)
    (h : interrupted m reached s = .next t) : flashWf t := by
  obtain ⟨rfl, -⟩ := interrupted_next _ _ _ _ h
  exact cutShort_flashWf _ _ hs

/-! ## The pins and the FIFO through the phases -/

/-- Reading as many samples as frames were written empties a FIFO that was empty before (R239). -/
theorem runPhase_fifo {p : Params} {r : List Bool} {a : Lines × List Byte} (ph : Phase) (ha : a.1.fifo = []) :
    (runPhase p r a ph).1.fifo = [] := by
  simp [runPhase, driveFrames_fifo_length, ha]

theorem runPhases_fifo (p : Params) (r : List Bool) (l : Lines) (phs : List Phase) (hl : l.fifo = []) :
    (runPhases p r l phs).1.fifo = [] := by
  have hfold : ∀ a : Lines × List Byte, a.1.fifo = [] → (phs.foldl (runPhase p r) a).1.fifo = [] := by
    induction phs with
    | nil => exact fun _ ha => ha
    | cons ph phs ih => exact fun a ha => ih _ (runPhase_fifo ph ha)
  exact hfold (l, []) hl

/-- A last phase of one frame leaves the pins at that frame. -/
theorem runPhases_levels_concat (p : Params) (r : List Bool) (l : Lines) (phs : List Phase) (f : Byte) (n : Nat) :
    (runPhases p r l (phs ++ [{ frames := [f], count := n }])).1.levels = f := by
  simp only [runPhases, runPhase, List.foldl_append, List.foldl_cons, List.foldl_nil, driveFrames_levels]
  rfl

theorem runPhases_transfer_levels (p : Params) (r : List Bool) (l : Lines) (pins : Byte) (m : List Byte) :
    (runPhases p r l (transferPhases p pins m)).1.levels = pinsAfterTransfer p pins m := by
  rw [transferPhases, ← List.cons_append]
  exact runPhases_levels_concat _ _ _ _ _ _

theorem pinsAfterBits_other (p : Params) (pins : Byte) (bits : List Bool) (a : Fin 8) (hsck : a ≠ p.pinSck)
    (hmosi : a ≠ p.pinMosi) : pinLevel (pinsAfterBits p pins bits) a = pinLevel pins a := by
  induction bits generalizing pins with
  | nil => rfl
  | cons v vs ih => exact (ih _).trans (cellLow_other p pins v a hsck hmosi)

theorem pinsAfterBits_sck (p : Params) (pins : Byte) (bits : List Bool) (h : pinLevel pins p.pinSck = false) :
    pinLevel (pinsAfterBits p pins bits) p.pinSck = false := by
  induction bits generalizing pins with
  | nil => exact h
  | cons v vs ih => exact ih _ (cellLow_sck p pins v)

/-- A transfer that starts from idle pins ends on idle pins (R243, R247). -/
theorem pinsAfterTransfer_between {p : Params} {pins : Byte} (m : List Byte) (hp : p.wf = true)
    (h : betweenTransfers p pins) : betweenTransfers p (pinsAfterTransfer p pins m) := by
  obtain ⟨-, -, hSckCsn, -, -, -, hSckReset, hSckProg, hMosiReset, hMosiProg, hCsnReset, hCsnProg, -⟩ :=
    params_distinct p hp
  obtain ⟨hsck, -, hreset, hprog⟩ := h
  refine ⟨?_, pinLevel_setPin_same _ _ _, ?_, ?_⟩
  · rw [pinsAfterTransfer, pinLevel_setPin_other _ _ _ _ hSckCsn]
    exact pinsAfterBits_sck _ _ _ (by rw [selectedPins, pinLevel_setPin_other _ _ _ _ hSckCsn, hsck])
  · rw [pinsAfterTransfer, pinLevel_setPin_other _ _ _ _ hCsnReset.symm,
      pinsAfterBits_other _ _ _ _ hSckReset.symm hMosiReset.symm, selectedPins,
      pinLevel_setPin_other _ _ _ _ hCsnReset.symm, hreset]
  · rw [pinsAfterTransfer, pinLevel_setPin_other _ _ _ _ hCsnProg.symm,
      pinsAfterBits_other _ _ _ _ hSckProg.symm hMosiProg.symm, selectedPins,
      pinLevel_setPin_other _ _ _ _ hCsnProg.symm, hprog]

/-- The frame that ends program-mode entry: idle pins, `RESET` lowered and raised again (R237). -/
def entryEnd (p : Params) : Byte := setPin (setPin (idlePins p) p.pinReset false) p.pinReset true

theorem runPhases_entry_levels (p : Params) (r : List Bool) (l : Lines) :
    (runPhases p r l (entryPhases p)).1.levels = entryEnd p :=
  runPhases_levels_concat p r l ((entryPhases p).take 2) (entryEnd p) 0

theorem entryEnd_between {p : Params} (hp : p.wf = true) : betweenTransfers p (entryEnd p) := by
  obtain ⟨-, -, hSckCsn, -, -, -, hSckReset, hSckProg, -, -, hCsnReset, hCsnProg, hResetProg⟩ := params_distinct p hp
  have hzero : ∀ a : Fin 8, pinLevel 0#8 a = false := fun a => by simp [pinLevel]
  refine ⟨?_, ?_, ?_, ?_⟩
  · simp [entryEnd, idlePins, pinLevel_setPin, hSckCsn, hSckReset, hSckProg, hzero]
  · simp [entryEnd, idlePins, pinLevel_setPin, hCsnReset, hCsnProg]
  · exact pinLevel_setPin_same _ _ _
  · simp [entryEnd, idlePins, pinLevel_setPin, hResetProg.symm]

/-! ## The transfer -/

/-- The parameters, the link's state and the mode are those of `s` (R8, R22, R32). -/
structure ModeKept (s t : State) : Prop where
  params : t.params = s.params
  linkOpen : t.linkOpen = s.linkOpen
  progmode : t.progmode = s.progmode

theorem ModeKept.of_sessionView_eq {s t : State} (h : t.sessionView = s.sessionView) : ModeKept s t := by
  obtain ⟨hparams, -, hlink, -, -, hmode⟩ := (State.sessionView_eq_iff s t).mp h
  exact ⟨hparams, hlink, hmode⟩

theorem ModeKept.not_changed {s t : State} (h : ModeKept s t) :
    ¬ (t.progmode ≠ s.progmode ∨ t.linkOpen ≠ s.linkOpen) := by
  simp [h.progmode, h.linkOpen]

theorem bitbangTransfer_modeKept {m : List Byte} {s t : State} (h : bitbangTransfer m s = .next t) :
    ModeKept s t := by
  obtain ⟨-, -, ⟨-, u, hu, rfl⟩ | ⟨j, write, u, -, hu, rfl⟩⟩ := bitbangTransfer_next _ _ _ h
  · obtain ⟨hparams, hlink, hmode⟩ := ModeKept.of_sessionView_eq (receive_sessionView hu)
    exact ⟨hparams, hlink, hmode⟩
  · obtain ⟨hparams, hlink, hmode⟩ := ModeKept.of_sessionView_eq (interrupted_sessionView hu)
    exact ⟨hparams, hlink, hmode⟩

theorem emulatorTransfer_modeKept {m : List Byte} {s t : State} (h : emulatorTransfer m s = .next t) :
    ModeKept s t := by
  obtain ⟨u, hu, rfl⟩ | ⟨write, u, hu, rfl⟩ := emulatorTransfer_next _ _ _ h
  · obtain ⟨hparams, hlink, hmode⟩ := ModeKept.of_sessionView_eq (receive_sessionView hu)
    exact ⟨hparams, hlink, hmode⟩
  · obtain ⟨hparams, hlink, hmode⟩ := ModeKept.of_sessionView_eq (interrupted_sessionView hu)
    exact ⟨hparams, hlink, hmode⟩

theorem transferStep_modeKept {m : List Byte} {s t : State} (h : transferStep m s = .next t) : ModeKept s t := by
  obtain ⟨-, -, ⟨-, htransfer⟩ | ⟨-, htransfer⟩⟩ := transferStep_next _ _ _ h
  · exact bitbangTransfer_modeKept htransfer
  · exact emulatorTransfer_modeKept htransfer

/-- A completed transfer ends on idle pins with the FIFO read empty; a failed one leaves the transport lost. -/
theorem bitbangTransfer_good {m : List Byte} {s t : State} (hs : flashWf s)
    (hpins : betweenTransfers s.params s.pins) (hfifo : s.fifo = []) (h : bitbangTransfer m s = .next t) : Good t := by
  have hparams := (bitbangTransfer_modeKept h).params
  obtain ⟨hwf, -, ⟨-, u, hu, rfl⟩ | ⟨j, write, u, -, hu, rfl⟩⟩ := bitbangTransfer_next _ _ _ h
  · refine ⟨(receive_flashWf hs hu).of_flash_eq rfl rfl, fun _ _ _ => ⟨?_, ?_⟩⟩
    · rw [hparams, State.transferred_pins, runPhases_transfer_levels]
      exact pinsAfterTransfer_between m hwf hpins
    · rw [State.transferred_fifo]
      exact runPhases_fifo _ _ _ _ hfifo
  · exact ⟨(interrupted_flashWf hs hu).of_flash_eq rfl rfl, sessionPinsIdle_of_lost rfl⟩

theorem emulatorTransfer_flashWf {m : List Byte} {s t : State} (hs : flashWf s)
    (h : emulatorTransfer m s = .next t) : flashWf t := by
  obtain ⟨u, hu, rfl⟩ | ⟨write, u, hu, rfl⟩ := emulatorTransfer_next _ _ _ h
  · exact (receive_flashWf hs hu).of_flash_eq rfl rfl
  · exact (interrupted_flashWf hs hu).of_flash_eq rfl rfl

theorem sessionPinsIdle_of_emulator {s : State} (h : s.params.backend = .emulator) : sessionPinsIdle s :=
  fun hbitbang => absurd (h.symm.trans hbitbang) (by decide)

theorem transferStep_good {m : List Byte} {s t : State} (hs : Good s) (h : transferStep m s = .next t) : Good t := by
  have hparams := (transferStep_modeKept h).params
  obtain ⟨hflash, hidle⟩ := hs
  obtain ⟨hlink, hlost, ⟨hbackend, htransfer⟩ | ⟨hbackend, htransfer⟩⟩ := transferStep_next _ _ _ h
  · obtain ⟨hpins, hfifo⟩ := hidle hbackend hlink hlost
    exact bitbangTransfer_good hflash hpins hfifo htransfer
  · exact ⟨emulatorTransfer_flashWf hflash htransfer, sessionPinsIdle_of_emulator (by rw [hparams, hbackend])⟩

/-! ## The session operations -/

/-- Program-mode entry completes on the last entry frame, or a phase of it fails. -/
theorem bitbangEntry_next {s t : State} (h : bitbangEntry s = .next t) :
    s.params.wf = true ∧
      (t = s.entered (entryFrames s.params) (entryEnd s.params) ∨
        ∃ trace pins e, t = (s.entryFailed trace pins).raise e) := by
  unfold bitbangEntry at h
  split at h
  · cases h
  · rename_i hwf
    refine ⟨Bool.eq_true_of_not_eq_false hwf, ?_⟩
    simp only [runPhases_entry_levels] at h
    split at h
    · exact .inl (Host.Outcome.next.inj h).symm
    · exact .inr ⟨_, _, _, (Host.Outcome.next.inj h).symm⟩

theorem bitbangEntry_good {s t : State} (hs : flashWf s) (h : bitbangEntry s = .next t) : Good t := by
  obtain ⟨hwf, rfl | ⟨trace, pins, e, rfl⟩⟩ := bitbangEntry_next h
  · exact ⟨hs.of_flash_eq rfl rfl, fun _ _ _ => ⟨entryEnd_between hwf, rfl⟩⟩
  · exact ⟨hs.of_flash_eq rfl rfl, sessionPinsIdle_of_lost rfl⟩

theorem openStep_good {bus port : Nat} {s t : State} (hs : Good s) (h : openStep bus port s = .next t) : Good t := by
  obtain ⟨-, rfl⟩ | ⟨-, rfl | ⟨-, hentry⟩ | ⟨hbackend, rfl⟩⟩ := openStep_next _ _ _ _ h
  · exact hs
  · exact Undisturbed.good ⟨rfl, rfl, rfl⟩ hs
  · exact bitbangEntry_good hs.1 hentry
  · exact ⟨hs.1.of_flash_eq rfl rfl, sessionPinsIdle_of_emulator hbackend⟩

theorem openStep_params {bus port : Nat} {s t : State} (h : openStep bus port s = .next t) : t.params = s.params := by
  obtain ⟨-, rfl⟩ | ⟨-, rfl | ⟨-, hentry⟩ | ⟨-, rfl⟩⟩ := openStep_next _ _ _ _ h
  · rfl
  · rfl
  · obtain ⟨-, rfl | ⟨trace, pins, e, rfl⟩⟩ := bitbangEntry_next hentry
    · rfl
    · rfl
  · rfl

theorem closeStep_params (s : State) : (closeStep s).params = s.params := by
  unfold closeStep
  split
  · rfl
  · rfl

theorem closeStep_good {s : State} (hs : Good s) : Good (closeStep s) := by
  unfold closeStep
  split
  · exact ⟨hs.1.of_flash_eq rfl rfl, fun _ hlink => absurd hlink Bool.false_ne_true⟩
  · exact hs

/-! ## Whole steps -/

theorem runTask_good {task : Task} {s t : State} (hs : Good s) (h : runTask task s = .next t) : Good t := by
  cases task with
  | openLink bus port => exact openStep_good (bus := bus) (port := port) hs h
  | settle => exact Host.Outcome.next.inj h ▸ hs
  | closeLink => exact Host.Outcome.next.inj h ▸ closeStep_good hs
  | xfer _ => exact transferStep_good hs h
  | _ => exact (runTask_undisturbed rfl h).good hs

theorem runTask_params {task : Task} {s t : State} (h : runTask task s = .next t) : t.params = s.params := by
  cases task with
  | openLink bus port => exact openStep_params (bus := bus) (port := port) h
  | settle => exact Host.Outcome.next.inj h ▸ rfl
  | closeLink => exact Host.Outcome.next.inj h ▸ closeStep_params s
  | xfer _ => exact (transferStep_modeKept h).params
  | _ => exact (ModeKept.of_sessionView_eq (runTask_undisturbed rfl h).session).params

/-- The tasks of `begin` and `end`. -/
def Task.ofSession : Task → Bool
  | .openLink _ _ => true
  | .settle => true
  | .closeLink => true
  | _ => false

theorem Task.ofSession_iff (task : Task) :
    task.ofSession = true ↔ (∃ bus port, task = .openLink bus port) ∨ task = .settle ∨ task = .closeLink := by
  cases task <;> simp [Task.ofSession]

theorem runTask_modeKept {task : Task} {s t : State} (htask : task.ofSession = false)
    (h : runTask task s = .next t) : ModeKept s t := by
  cases task with
  | openLink _ _ => cases htask
  | settle => cases htask
  | closeLink => cases htask
  | xfer _ => exact transferStep_modeKept h
  | _ => exact .of_sessionView_eq (runTask_undisturbed rfl h).session

/-- A step is one task of the operation in progress, or it leaves the session and the flash as they are. -/
theorem step_task_or_undisturbed {s t : State} (h : step s = .next t) :
    (∃ task ts, s.tasks = task :: ts ∧ runTask task { s with tasks := ts } = .next t) ∨ Undisturbed s t := by
  obtain ⟨-, rfl⟩ | ⟨-, hrun | ⟨-, op, ops, -, rfl⟩ | ⟨-, -, rfl⟩⟩ := step_next s t h
  · exact .inr s.readyStep_undisturbed
  · exact .inl hrun
  · exact .inr ⟨rfl, rfl, rfl⟩
  · exact .inr (.refl _)

/-- Settles O57, from the task at hand: the host's own tasks leave session and flash as they are, and the transfer and the
session's tasks each keep `Good`. -/
theorem everyStepKeepsGood : Obligations.EveryStepKeepsGood := by
  intro s t hs h
  obtain ⟨task, ts, -, hrun⟩ | hkept := step_task_or_undisturbed h
  · have hpopped : Good { s with tasks := ts } := Undisturbed.good ⟨rfl, rfl, rfl⟩ hs
    exact runTask_good hpopped hrun
  · exact hkept.good hs

/-- Settles O58: at power-up both memories list nothing and the link is closed. -/
theorem powerUpIsGood : Obligations.PowerUpIsGood :=
  ⟨⟨⟨Memory.wf_nil _, Memory.wf_nil _⟩, fun _ hlink => absurd hlink Bool.false_ne_true⟩, rfl, rfl⟩

/-- Settles O59: a task that is none of `begin`'s or `end`'s keeps the mode and the link. -/
theorem onlySessionOpsChangeSession : Obligations.OnlySessionOpsChangeSession := by
  intro s t h
  obtain ⟨task, ts, htasks, hrun⟩ | hkept := step_task_or_undisturbed h
  · refine ⟨runTask_params (s := { s with tasks := ts }) hrun, fun hchanged => ?_⟩
    have hsession : task.ofSession = true := by
      by_contra hother
      have hkept := runTask_modeKept (s := { s with tasks := ts }) (Bool.eq_false_of_not_eq_true hother) hrun
      exact hkept.not_changed hchanged
    obtain ⟨bus, port, rfl⟩ | rfl | rfl := (Task.ofSession_iff task).mp hsession
    · exact ⟨ts, .inl ⟨bus, port, htasks⟩⟩
    · exact ⟨ts, .inr (.inl htasks)⟩
    · exact ⟨ts, .inr (.inr htasks)⟩
  · have hmode := ModeKept.of_sessionView_eq hkept.session
    exact ⟨hmode.params, fun hchanged => absurd hchanged hmode.not_changed⟩

end Sys2Proof.Machine

/-! SUPPORT and proofs of the family "memory" (spec/20_memory.md): what R61 lets a flash byte become, over every
command, every command in flight and every whole step; and what the bounds of R60 and the closed latch of R62 stop. -/

namespace Sys2Proof.Machine

/-! ## R61 on one region and on the flash -/

/-- R61: each byte of `m'` is 0xFF or has no bit set that is clear in `m`. -/
def Memory.OnlyAndOrErase (m m' : Memory) : Prop :=
  ∀ a, Memory.read m' a = 0xFF#8 ∨ Memory.read m' a &&& ~~~(Memory.read m a) = 0#8

theorem Memory.OnlyAndOrErase.refl (m : Memory) : m.OnlyAndOrErase m := fun _ => .inr (by simp)

theorem Memory.eraseWhere_onlyAndOrErase (m : Memory) (which : Nat → Bool) :
    m.OnlyAndOrErase (m.eraseWhere which) := by
  intro a
  rw [Memory.read_eraseWhere]
  split
  · exact .inl rfl
  · exact Memory.OnlyAndOrErase.refl m a

theorem Memory.eraseRange_onlyAndOrErase (m : Memory) (base n : Nat) : m.OnlyAndOrErase (m.eraseRange base n) :=
  m.eraseWhere_onlyAndOrErase _

theorem Memory.eraseSome_onlyAndOrErase (m : Memory) (base n seed : Nat) :
    m.OnlyAndOrErase (m.eraseSome base n seed) :=
  m.eraseWhere_onlyAndOrErase _

theorem and_gains_no_bit (x y : Byte) : (x &&& y) &&& ~~~x = 0#8 := by
  rw [BitVec.and_comm x y, BitVec.and_assoc, BitVec.and_not_self]
  exact BitVec.and_zero

/-- Data that stop at the end of the region; with a base past it there are none, and nothing is written. -/
theorem Memory.andRange_onlyAndOrErase {size : Nat} {m : Memory} {base : Nat} {data : List Byte}
    (hm : Memory.wf size m = true) (hlen : data.length ≤ size - base) :
    m.OnlyAndOrErase (Memory.andRange m base data) := by
  by_cases hbase : base ≤ size
  · intro a
    rw [Memory.read_andRange size m base data a (by omega) hm]
    split
    · exact .inr (and_gains_no_bit _ _)
    · exact Memory.OnlyAndOrErase.refl m a
  · obtain rfl : data = [] := List.eq_nil_of_length_eq_zero (by omega)
    exact .refl m

/-- R61 on both regions of the flash. -/
structure FlashOnlyAndOrErase (s t : State) : Prop where
  main : s.main.OnlyAndOrErase t.main
  info : s.info.OnlyAndOrErase t.info

/-- `t` holds the flash of `s`. -/
structure FlashKept (s t : State) : Prop where
  main : t.main = s.main
  info : t.info = s.info

theorem FlashKept.sameFlash {s t : State} (h : FlashKept s t) : sameFlash s t :=
  ⟨fun _ => by rw [h.main], fun _ => by rw [h.info]⟩

theorem FlashOnlyAndOrErase.of_flashKept {s u t : State} (h : FlashOnlyAndOrErase s u) (hkept : FlashKept u t) :
    FlashOnlyAndOrErase s t :=
  ⟨hkept.main ▸ h.main, hkept.info ▸ h.info⟩

theorem FlashKept.onlyAndOrErase {s t : State} (h : FlashKept s t) : FlashOnlyAndOrErase s t :=
  FlashOnlyAndOrErase.of_flashKept ⟨.refl _, .refl _⟩ h

theorem State.setRegion_onlyAndOrErase {s : State} {m : Memory} (h : s.region.OnlyAndOrErase m) :
    FlashOnlyAndOrErase s (s.setRegion m) := by
  unfold State.region at h
  unfold State.setRegion
  split at h
  · rw [if_pos (by assumption)]
    exact ⟨.refl _, h⟩
  · rw [if_neg (by assumption)]
    exact ⟨h, .refl _⟩

theorem State.massErased_onlyAndOrErase (s : State) : FlashOnlyAndOrErase s s.massErased := by
  refine ⟨s.main.eraseRange_onlyAndOrErase _ _, ?_⟩
  rw [State.massErased_info]
  split
  · exact s.info.eraseRange_onlyAndOrErase _ _
  · exact .refl _

theorem State.massCut_onlyAndOrErase (s : State) : FlashOnlyAndOrErase s s.massCut := by
  refine ⟨s.main.eraseSome_onlyAndOrErase _ _ _, ?_⟩
  rw [State.massCut_info]
  split
  · exact s.info.eraseSome_onlyAndOrErase _ _ _
  · exact .refl _

theorem State.scrambled_onlyAndOrErase {s : State} (hs : flashWf s) : FlashOnlyAndOrErase s s.scrambled :=
  ⟨fun a => Memory.read_scrambled _ _ _ _ a (by simp) hs.1, fun a => Memory.read_scrambled _ _ _ _ a (by simp) hs.2⟩

/-! ## Commands: what each may do to the flash and to `RDYN` -/

/-- The command left the flash as it was, and the target as busy or as ready as it was. -/
structure Harmless (s t : State) : Prop where
  flash : FlashKept s t
  rdyn : fsrRdyn t.fsr = fsrRdyn s.fsr

/-- The command was honoured with the latch open, and wrote canonical flash as R61 allows. -/
structure Honoured (s t : State) : Prop where
  wen : fsrWen s.fsr = true
  flash : flashWf s → FlashOnlyAndOrErase s t

theorem State.reply_harmless (s : State) (r : List Byte) (n : Nat) : Harmless s (s.reply r n) := ⟨⟨rfl, rfl⟩, rfl⟩

theorem State.setFsr_harmless {s : State} (r : List Byte) (n : Nat) {f : Byte} (h : fsrRdyn f = fsrRdyn s.fsr) :
    Harmless s ((s.reply r n).setFsr f) := ⟨⟨rfl, rfl⟩, h⟩

theorem setWen_rdyn (f : Byte) (b : Bool) : fsrRdyn (setWen f b) = fsrRdyn f := setWen_bit f b 4 (by decide)

/-- An honoured command answers first, then writes flash, then touches the FSR alone. -/
theorem Honoured.of_reply {s u t : State} (r : List Byte) (n : Nat) (hwen : fsrWen s.fsr = true)
    (hwrite : flashWf s → FlashOnlyAndOrErase (s.reply r n) u) (hkept : FlashKept u t) : Honoured s t :=
  ⟨hwen, fun hs =>
    have ⟨hmain, hinfo⟩ := (hwrite hs).of_flashKept hkept
    ⟨hmain, hinfo⟩⟩

theorem State.raise_harmless (s : State) (e : OpError) : Harmless s (s.raise e) := ⟨⟨rfl, rfl⟩, rfl⟩

theorem State.finish_harmless (s : State) (v : Value) : Harmless s (s.finish v) := ⟨⟨rfl, rfl⟩, rfl⟩

theorem checkRecord_harmless {s k : State} (address : Half) (type : Nat) (payload : List Byte) (checksum : Byte)
    (hk : Harmless s k) : Harmless s (checkRecord s address type payload checksum k) := by
  obtain ⟨heq, -⟩ | ⟨heq, -⟩ | ⟨heq, -⟩ := checkRecord_cases s address type payload checksum k
  · rw [heq]
    exact s.raise_harmless _
  · rw [heq]
    exact s.raise_harmless _
  · rw [heq]
    exact hk

theorem execHexData_harmless {address : Half} {payload : List Byte} {checksum : Byte} {s t : State}
    (h : execHexData address payload checksum s = .next t) : Harmless s t := by
  refine Host.Outcome.next.inj h ▸ checkRecord_harmless _ _ _ _ ?_
  split
  · exact s.raise_harmless _
  · exact ⟨⟨rfl, rfl⟩, rfl⟩

theorem execHexEof_harmless {address : Half} {payload : List Byte} {checksum : Byte} {s t : State}
    (h : execHexEof address payload checksum s = .next t) : Harmless s t :=
  Host.Outcome.next.inj h ▸ checkRecord_harmless _ _ _ _ (s.finish_harmless _)

theorem execProgram_harmless_or_honoured {addr : Half} {data : List Byte} {s t : State}
    (h : execProgram addr data s = .next t) : Harmless s t ∨ Honoured s t := by
  obtain ⟨-, -, ⟨rfl, -⟩ | ⟨hwen, hin, -, -, rfl⟩⟩ := execProgram_next _ _ _ _ h
  · exact .inl (s.reply_harmless _ _)
  · have hbound : addr.toNat + data.length ≤ s.regionSize := by simpa [State.inRegion] using hin
    refine .inr (.of_reply _ _ hwen (fun hs => State.setRegion_onlyAndOrErase ?_) ⟨rfl, rfl⟩)
    exact Memory.andRange_onlyAndOrErase (size := s.regionSize) (State.region_wf hs) (by omega)

theorem execErasePage_harmless_or_honoured {page : Byte} {s t : State} (h : execErasePage page s = .next t) :
    Harmless s t ∨ Honoured s t := by
  obtain ⟨-, -, ⟨-, rfl⟩ | ⟨hwen, -, rfl⟩⟩ := execErasePage_next _ _ _ h
  · exact .inl (s.reply_harmless _ _)
  · have hregion := s.region.eraseRange_onlyAndOrErase (pageBase page.toNat) Config.pageSize
    exact .inr (.of_reply _ _ hwen (fun _ => State.setRegion_onlyAndOrErase hregion) ⟨rfl, rfl⟩)

theorem execEraseAll_harmless_or_honoured {s t : State} (h : execEraseAll s = .next t) :
    Harmless s t ∨ Honoured s t := by
  obtain ⟨-, -, ⟨-, rfl⟩ | ⟨hwen, rfl⟩⟩ := execEraseAll_next _ _ h
  · exact .inl (s.reply_harmless _ _)
  · exact .inr (.of_reply _ _ hwen (fun _ => State.massErased_onlyAndOrErase _) ⟨rfl, rfl⟩)

/-- Every instruction that completes is harmless, or was honoured with the latch open and kept to R61. -/
theorem exec_harmless_or_honoured {i : Instr} {s t : State} (h : exec i s = .next t) :
    Harmless s t ∨ Honoured s t := by
  cases i with
  | program _ _ => exact execProgram_harmless_or_honoured h
  | erasePage _ => exact execErasePage_harmless_or_honoured h
  | eraseAll => exact execEraseAll_harmless_or_honoured h
  | cmdRdismb =>
    obtain ⟨-, -, ⟨-, rfl⟩ | ⟨hwen, rfl⟩⟩ := execCmdRdismb_next _ _ h
    · exact .inl (s.reply_harmless _ _)
    · exact .inr ⟨hwen, fun _ => FlashKept.onlyAndOrErase ⟨rfl, rfl⟩⟩
  | wrsr v =>
    obtain ⟨-, -, rfl⟩ := execWrsr_next _ _ _ h
    exact .inl (State.setFsr_harmless _ _ (statusWritten_rdyn _ _ _))
  | wrdis =>
    obtain ⟨-, -, rfl⟩ := execWrdis_next _ _ h
    exact .inl (State.setFsr_harmless _ _ (setWen_rdyn _ _))
  | wren =>
    obtain ⟨-, -, rfl⟩ := execWren_next _ _ h
    exact .inl (State.setFsr_harmless _ _ (setWen_rdyn _ _))
  | read _ _ =>
    obtain ⟨-, -, -, rfl⟩ := execRead_next _ _ _ _ h
    exact .inl (s.reply_harmless _ _)
  | rdsr fill =>
    obtain ⟨-, rfl⟩ := execRdsr_next fill _ _ h
    exact .inl (s.reply_harmless _ _)
  | rdfpcr fill =>
    obtain ⟨-, -, rfl⟩ := execRdfpcr_next fill _ _ h
    exact .inl (s.reply_harmless _ _)
  | cmdEndebug => cases h
  | hexData _ _ _ => exact .inl (execHexData_harmless h)
  | hexEof _ _ _ => exact .inl (execHexEof_harmless h)

theorem exec_onlyAndOrErase {i : Instr} {s t : State} (hs : flashWf s) (h : exec i s = .next t) :
    FlashOnlyAndOrErase s t := by
  obtain hharmless | hhonoured := exec_harmless_or_honoured h
  · exact hharmless.flash.onlyAndOrErase
  · exact hhonoured.flash hs

/-! ## R61 over transfers and whole steps -/

theorem receive_onlyAndOrErase {m : List Byte} {s t : State} (hs : flashWf s) (h : receive m s = .next t) :
    FlashOnlyAndOrErase s t := by
  obtain ⟨-, rfl⟩ | ⟨op, rest, i, -, -, hexec⟩ := receive_next _ _ _ h
  · exact FlashKept.onlyAndOrErase ⟨rfl, rfl⟩
  · obtain ⟨hmain, hinfo⟩ := exec_onlyAndOrErase (s := s.arrive op) hs hexec
    exact ⟨hmain, hinfo⟩

theorem cutFlash_onlyAndOrErase (i : Instr) {s : State} (hs : flashWf s) : FlashOnlyAndOrErase s (cutFlash i s) := by
  obtain heq | ⟨-, ⟨addr, data, -, heq⟩ | ⟨page, -, -, heq⟩ | ⟨-, heq⟩⟩ := cutFlash_cases i s
  · exact FlashKept.onlyAndOrErase (heq.symm ▸ ⟨rfl, rfl⟩)
  · rw [heq]
    have hregion := Memory.andRange_onlyAndOrErase (base := addr.toNat)
      (data := s.freeBytes (min data.length (s.regionSize - addr.toNat))) (State.region_wf hs) (by simp)
    exact (State.setRegion_onlyAndOrErase hregion).of_flashKept ⟨rfl, rfl⟩
  · rw [heq]
    exact (State.setRegion_onlyAndOrErase (s.region.eraseSome_onlyAndOrErase _ _ _)).of_flashKept ⟨rfl, rfl⟩
  · rw [heq]
    exact s.massCut_onlyAndOrErase.of_flashKept ⟨rfl, rfl⟩

theorem cutCommand_onlyAndOrErase (m : List Byte) (clocked : Bool) {s : State} (hs : flashWf s) :
    FlashOnlyAndOrErase s (cutCommand m clocked s) := by
  obtain ⟨i, -, heq⟩ | ⟨-, -, -, heq⟩ | ⟨-, -, heq⟩ := cutCommand_cases m clocked s
  · rw [heq]
    exact (cutFlash_onlyAndOrErase i hs).of_flashKept ⟨rfl, rfl⟩
  · rw [heq]
    exact State.scrambled_onlyAndOrErase hs
  · exact FlashKept.onlyAndOrErase (heq.symm ▸ ⟨rfl, rfl⟩)

/-- The answer in flight moves no flash; what the failing transfer cuts short keeps to R61 (R277). -/
theorem interrupted_onlyAndOrErase {m : List Byte} {reached : Reached} {s t : State} (hs : flashWf s)
    (h : interrupted m reached s = .next t) : FlashOnlyAndOrErase s t := by
  obtain ⟨rfl, -⟩ := interrupted_next _ _ _ _ h
  have hmain := s.answering_main m
  have hinfo := s.answering_info m
  obtain ⟨hcutMain, hcutInfo⟩ :=
    cutCommand_onlyAndOrErase m (decide (reached ≠ .selected)) (hs.of_flash_eq hmain hinfo)
  exact ⟨hmain ▸ hcutMain, hinfo ▸ hcutInfo⟩

theorem transferStep_onlyAndOrErase {m : List Byte} {s t : State} (hs : flashWf s)
    (h : transferStep m s = .next t) : FlashOnlyAndOrErase s t := by
  obtain ⟨-, -, ⟨-, htransfer⟩ | ⟨-, htransfer⟩⟩ := transferStep_next _ _ _ h
  · obtain ⟨-, -, ⟨-, u, hu, rfl⟩ | ⟨j, write, u, -, hu, rfl⟩⟩ := bitbangTransfer_next _ _ _ htransfer
    · exact (receive_onlyAndOrErase hs hu).of_flashKept ⟨rfl, rfl⟩
    · exact (interrupted_onlyAndOrErase hs hu).of_flashKept ⟨rfl, rfl⟩
  · obtain ⟨u, hu, rfl⟩ | ⟨write, u, hu, rfl⟩ := emulatorTransfer_next _ _ _ htransfer
    · exact (receive_onlyAndOrErase hs hu).of_flashKept ⟨rfl, rfl⟩
    · exact (interrupted_onlyAndOrErase hs hu).of_flashKept ⟨rfl, rfl⟩

/-- Neither the reset pulse nor a failing program-mode entry touches the flash (R300). -/
theorem openStep_flashKept {bus port : Nat} {s t : State} (h : openStep bus port s = .next t) : FlashKept s t := by
  obtain ⟨-, rfl⟩ | ⟨-, rfl | ⟨-, hentry⟩ | ⟨-, rfl⟩⟩ := openStep_next _ _ _ _ h
  · exact ⟨rfl, rfl⟩
  · exact ⟨rfl, rfl⟩
  · obtain ⟨-, rfl | ⟨trace, pins, e, rfl⟩⟩ := bitbangEntry_next hentry
    · exact ⟨rfl, rfl⟩
    · exact ⟨rfl, rfl⟩
  · exact ⟨rfl, rfl⟩

theorem closeStep_flashKept (s : State) : FlashKept s (closeStep s) := by
  unfold closeStep
  split
  · exact ⟨rfl, rfl⟩
  · exact ⟨rfl, rfl⟩

theorem Undisturbed.flashKept {s t : State} (h : Undisturbed s t) : FlashKept s t := ⟨h.main, h.info⟩

theorem runTask_onlyAndOrErase {task : Task} {s t : State} (hs : flashWf s) (h : runTask task s = .next t) :
    FlashOnlyAndOrErase s t := by
  cases task with
  | xfer _ => exact transferStep_onlyAndOrErase hs h
  | openLink bus port => exact (openStep_flashKept (bus := bus) (port := port) h).onlyAndOrErase
  | settle => exact Host.Outcome.next.inj h ▸ FlashKept.onlyAndOrErase ⟨rfl, rfl⟩
  | closeLink => exact Host.Outcome.next.inj h ▸ (closeStep_flashKept s).onlyAndOrErase
  | _ => exact (runTask_undisturbed rfl h).flashKept.onlyAndOrErase

/-- Settles O60: of a step's tasks only the transfer writes flash, and a command keeps to R61 whether it was received or
was in flight when the transport failed. -/
theorem stepsOnlyAndOrErase : Obligations.StepsOnlyAndOrErase := by
  intro s t hs h a
  have hflash : FlashOnlyAndOrErase s t := by
    obtain ⟨task, ts, -, hrun⟩ | hkept := step_task_or_undisturbed h
    · obtain ⟨hmain, hinfo⟩ := runTask_onlyAndOrErase (s := { s with tasks := ts }) hs.1 hrun
      exact ⟨hmain, hinfo⟩
    · exact hkept.flashKept.onlyAndOrErase
  exact ⟨hflash.main a, hflash.info a⟩

/-- Settles O28: a command that is not harmless was honoured, and none is with `WEN` clear. -/
theorem closedLatchProtectsFlash : Obligations.ClosedLatchProtectsFlash := by
  intro i s t hclosed h
  obtain ⟨hflash, hrdyn⟩ | ⟨hwen, -⟩ := exec_harmless_or_honoured h
  · exact ⟨hflash.sameFlash, hrdyn⟩
  · exact absurd (hclosed.symm.trans hwen) Bool.false_ne_true

/-! ## Commands an accepting target ignores -/

theorem whenReady_of_acceptsCommand {s : State} (h : acceptsCommand s) (k : Host.Outcome State Fault Refusal) :
    whenReady s k = k := by
  obtain ⟨hmode, hready⟩ := h
  simp [whenReady, inProgramMode, hmode, hready]

theorem execProgram_unlatched (addr : Half) (data : List Byte) {s : State} (h : acceptsCommand s)
    (hwen : fsrWen s.fsr = false) :
    execProgram addr data s = .next (s.reply (s.freeBytes (3 + data.length)) (3 + data.length)) := by
  rw [execProgram, whenReady_of_acceptsCommand h]
  exact if_pos hwen

/-- Without data it is all one whether the latch is open (R149). -/
theorem execProgram_empty (addr : Half) {s : State} (h : acceptsCommand s) (hin : addr.toNat ≤ s.regionSize) :
    execProgram addr [] s = .next (s.reply (s.freeBytes 3) 3) := by
  rw [execProgram, whenReady_of_acceptsCommand h]
  simp [State.inRegion, inOnePage, hin]

theorem execErasePage_unlatched (page : Byte) {s : State} (h : acceptsCommand s) (hwen : fsrWen s.fsr = false) :
    execErasePage page s = .next (s.reply (s.freeBytes 2) 2) := by
  rw [execErasePage, whenReady_of_acceptsCommand h]
  exact if_pos hwen

theorem execEraseAll_unlatched {s : State} (h : acceptsCommand s) (hwen : fsrWen s.fsr = false) :
    execEraseAll s = .next (s.reply (s.freeBytes 1) 2) := by
  rw [execEraseAll, whenReady_of_acceptsCommand h]
  exact if_pos hwen

theorem execCmdRdismb_unlatched {s : State} (h : acceptsCommand s) (hwen : fsrWen s.fsr = false) :
    execCmdRdismb s = .next (s.reply (s.freeBytes 1) 1) := by
  rw [execCmdRdismb, whenReady_of_acceptsCommand h]
  exact if_pos hwen

theorem State.reply_commandFrame (s : State) (r : List Byte) (n : Nat) : commandFrame s (s.reply r n) := by
  simp [commandFrame, sameOutsideTarget]

/-- A command that only answers changes nothing that the claims on ignored commands look at. -/
theorem ignored_of_exec_eq_reply {i : Instr} {s : State} {k n : Nat} (hk : k = i.encodedLength)
    (h : exec i s = .next (s.reply (s.freeBytes k) n)) :
    ∃ t, exec i s = .next t ∧ t.fsr = s.fsr ∧ t.resp.length = i.encodedLength ∧ commandFrame s t ∧ sameFlash s t :=
  ⟨_, h, rfl, by simpa using hk, s.reply_commandFrame _ _, (s.reply_harmless _ _).flash.sameFlash⟩

/-- Settles O24: each of the four mutating commands without the latch, and the empty `PROGRAM`, only answers. -/
theorem unlatchedCommandIsIgnored : Obligations.UnlatchedCommandIsIgnored := by
  rintro i s hs (⟨⟨addr, data, rfl⟩ | ⟨page, rfl⟩ | rfl | rfl, hwen⟩ | ⟨addr, rfl, hin⟩)
  · exact ignored_of_exec_eq_reply rfl (execProgram_unlatched addr data hs hwen)
  · exact ignored_of_exec_eq_reply rfl (execErasePage_unlatched page hs hwen)
  · exact ignored_of_exec_eq_reply rfl (execEraseAll_unlatched hs hwen)
  · exact ignored_of_exec_eq_reply rfl (execCmdRdismb_unlatched hs hwen)
  · exact ignored_of_exec_eq_reply rfl (execProgram_empty addr hs hin)

/-! ## Accesses out of bounds (R60) -/

theorem State.inRegion_eq_false {s : State} {addr k : Nat} (h : s.regionSize < addr + k) :
    s.inRegion addr k = false := by
  simpa [State.inRegion] using h

theorem execRead_outside {addr : Half} {fill : List Byte} {s : State} (h : acceptsCommand s)
    (hout : s.regionSize < addr.toNat + fill.length) : execRead addr fill s = .refused .outsideRegion := by
  rw [execRead, whenReady_of_acceptsCommand h, State.inRegion_eq_false hout]
  rfl

theorem execProgram_outside {addr : Half} {data : List Byte} {s : State} (h : acceptsCommand s)
    (hwen : fsrWen s.fsr = true) (hout : s.regionSize < addr.toNat + data.length) :
    execProgram addr data s = .refused .outsideRegion := by
  rw [execProgram, whenReady_of_acceptsCommand h]
  simp [hwen, State.inRegion_eq_false hout]

theorem execProgram_acrossPages {addr : Half} {data : List Byte} {s : State} (h : acceptsCommand s)
    (hwen : fsrWen s.fsr = true) (hin : addr.toNat + data.length ≤ s.regionSize)
    (hacross : inOnePage addr.toNat data.length = false) :
    execProgram addr data s = .refused .acrossPages := by
  rw [execProgram, whenReady_of_acceptsCommand h]
  simp [hwen, State.inRegion, hin, hacross]

theorem inOnePage_eq_false {addr : Nat} {data : List Byte} (hdata : data ≠ [])
    (hpages : addr / 512 ≠ (addr + data.length - 1) / 512) : inOnePage addr data.length = false := by
  simp [inOnePage, Config.pageSize, hdata, hpages]

theorem execErasePage_noSuchPage {page : Byte} {s : State} (h : acceptsCommand s) (hwen : fsrWen s.fsr = true)
    (hpage : s.pageCount ≤ page.toNat) : execErasePage page s = .refused .pageIndexOutOfRange := by
  rw [execErasePage, whenReady_of_acceptsCommand h]
  simp [hwen, hpage]

/-- Settles O27, one clause for each bound of R60. -/
theorem outOfBoundsIsRefused : Obligations.OutOfBoundsIsRefused := by
  refine fun s hs => ⟨fun addr fill hout => execRead_outside hs hout,
    fun hwen addr data => ⟨fun hout => execProgram_outside hs hwen hout, fun hin hdata hpages => ?_⟩,
    fun hwen page hpage => execErasePage_noSuchPage hs hwen hpage⟩
  exact execProgram_acrossPages hs hwen hin (inOnePage_eq_false hdata hpages)

end Sys2Proof.Machine

/-! SUPPORT and proofs of the family "encoding" (spec/30_encoding.md): the decoders undo the encoder on wire commands and
on HEX lines, and the wire decoder accepts nothing else; what the frames of a transfer deliver to the target, and what a
phase that fails leaves behind. -/

namespace Sys2Proof

/-! ## The address bytes (R55, R85) -/

@[simp] theorem addressOf_hi_lo (a : Half) : addressOf (addressHi a) (addressLo a) = a := by
  apply BitVec.eq_of_toNat_eq
  simp only [addressOf, addressHi, addressLo, BitVec.toNat_ofNat]
  omega

@[simp] theorem addressHi_addressOf (hi lo : Byte) : addressHi (addressOf hi lo) = hi := by
  apply BitVec.eq_of_toNat_eq
  simp only [addressOf, addressHi, BitVec.toNat_ofNat]
  omega

@[simp] theorem addressLo_addressOf (hi lo : Byte) : addressLo (addressOf hi lo) = lo := by
  apply BitVec.eq_of_toNat_eq
  simp only [addressOf, addressLo, BitVec.toNat_ofNat]
  omega

/-! ## HEX characters (R91) -/

theorem hexVal_hexDigit : ∀ n < 16, hexVal (hexDigit n) = some n := by decide

theorem hexByte_hexDigits (b : Byte) : hexByte (hexDigit (b.toNat / 16)) (hexDigit (b.toNat % 16)) = some b := by
  rw [hexByte, hexVal_hexDigit _ (by omega), hexVal_hexDigit _ (by omega)]
  simp [Nat.div_add_mod]

theorem hexBytes_cons {h l b : Byte} {rest bs : List Byte} (hb : hexByte h l = some b) (hbs : hexBytes rest = some bs) :
    hexBytes (h :: l :: rest) = some (b :: bs) := by
  simp [hexBytes, hb, hbs]

/-- Characters written from bytes read back as these bytes. -/
theorem hexBytes_hexChars (bs : List Byte) : hexBytes (bs.flatMap hexChars) = some bs := by
  induction bs with
  | nil => rfl
  | cons b bs ih => exact hexBytes_cons (hexByte_hexDigits b) ih

theorem flatMap_hexChars_length (bs : List Byte) : (bs.flatMap hexChars).length = 2 * bs.length := by
  simp [List.length_flatMap, hexChars, Nat.mul_comm]

/-! ## HEX lines (R90 to R94, R111) -/

/-- Steps S1 and S2 on the characters of a header, whatever body follows them. -/
theorem decodeHex_header (cap : Nat) (cc ah al tt : Byte) (body : List Byte) :
    decodeHex cap (startCode :: ([cc, ah, al, tt].flatMap hexChars ++ body)) =
      decodeBody cap (9 + body.length) cc.toNat (addressOf ah al) tt body := by
  have hheader : ([cc, ah, al, tt].flatMap hexChars).length = 8 := flatMap_hexChars_length _
  have hlen : ([cc, ah, al, tt].flatMap hexChars ++ body).length + 1 = 9 + body.length := by
    rw [List.length_append, hheader]
    omega
  rw [Machine.decodeHex_start, hlen, List.take_left' hheader, List.drop_left' hheader, hexBytes_hexChars,
    if_neg (by omega)]

/-- Steps S3 to S5 on the characters of a payload and its checksum, whatever follows them. -/
theorem decodeBody_hexChars {cap len : Nat} (address : Half) (type : Byte) (payload : List Byte) (checksum : Byte)
    (tail : List Byte) (hcap : payload.length ≤ cap) (hlen : 11 + 2 * payload.length ≤ len) :
    decodeBody cap len payload.length address type ((payload ++ [checksum]).flatMap hexChars ++ tail) =
      classifyRecord address type payload checksum := by
  have hchars : ((payload ++ [checksum]).flatMap hexChars).length = 2 * payload.length + 2 := by
    rw [flatMap_hexChars_length, List.length_append, List.length_singleton, Nat.mul_add]
  rw [decodeBody, if_neg (by omega), if_neg (by omega), List.take_left' hchars, hexBytes_hexChars]
  simp

/-- The decoder finds in an encoded line the bytes it was made of, and is left with its checksum and type. -/
theorem decodeHex_encodeLine {cap : Nat} (address : Half) (type : Byte) (payload : List Byte) (checksum : Byte)
    (tail : List Byte) (hfits : payloadFits payload = true) (hcap : Config.hexMaxPayload ≤ cap) :
    decodeHex cap (encodeLine address type payload checksum ++ tail) =
      classifyRecord address type payload checksum := by
  have hmax : payload.length ≤ Config.hexMaxPayload := of_decide_eq_true hfits
  have hcount : (BitVec.ofNat 8 payload.length).toNat = payload.length := by
    rw [BitVec.toNat_ofNat]
    exact Nat.mod_eq_of_lt (Nat.lt_succ_of_le hmax)
  have hline : encodeLine address type payload checksum ++ tail =
      startCode :: ([BitVec.ofNat 8 payload.length, addressHi address, addressLo address, type].flatMap hexChars ++
        ((payload ++ [checksum]).flatMap hexChars ++ tail)) := by
    simp [encodeLine]
  have hlen : 11 + 2 * payload.length ≤ 9 + ((payload ++ [checksum]).flatMap hexChars ++ tail).length := by
    rw [List.length_append, flatMap_hexChars_length, List.length_append, List.length_singleton]
    omega
  rw [hline, decodeHex_header, hcount, addressOf_hi_lo]
  exact decodeBody_hexChars _ _ _ _ _ (hmax.trans hcap) hlen

theorem classifyRecord_data {address : Half} {payload : List Byte} {checksum : Byte}
    (h : checksumOk address 0 payload checksum = true) :
    classifyRecord address 0x00#8 payload checksum = .ok (.hexData address payload checksum) := by
  simp [classifyRecord, h]

theorem classifyRecord_eof {address : Half} {payload : List Byte} {checksum : Byte}
    (h : checksumOk address 1 payload checksum = true) :
    classifyRecord address 0x01#8 payload checksum = .ok (.hexEof address payload checksum) := by
  simp [classifyRecord, h]

/-- Settles O2: the line's characters read back as the record's bytes, and its checksum and type say which record. -/
theorem hexLineRoundTrip : Obligations.HexLineRoundTrip := by
  intro i cap tail hi hwf hcap
  cases i with
  | hexData address payload checksum =>
    obtain ⟨hfits, hsum⟩ := Bool.and_eq_true_iff.mp hwf
    exact (decodeHex_encodeLine _ _ _ _ tail hfits hcap).trans (classifyRecord_data hsum)
  | hexEof address payload checksum =>
    obtain ⟨hfits, hsum⟩ := Bool.and_eq_true_iff.mp hwf
    exact (decodeHex_encodeLine _ _ _ _ tail hfits hcap).trans (classifyRecord_eof hsum)
  | _ => cases hi

/-! ## Wire commands (R82 to R89) -/

/-- Settles O1: each opcode selects its own format, and the address of `PROGRAM` and `READ` survives its two bytes. -/
theorem wireEncodingRoundTrip : Obligations.WireEncodingRoundTrip := by
  intro i hi _
  cases i with
  | program addr data => exact congrArg (fun a => Except.ok (Instr.program a data)) (addressOf_hi_lo addr)
  | read addr fill => exact congrArg (fun a => Except.ok (Instr.read a fill)) (addressOf_hi_lo addr)
  | hexData address payload checksum => cases hi
  | hexEof address payload checksum => cases hi
  | _ => rfl

/-- `i` is a wire command, and `m` are its bytes. -/
def Instr.HasWireBytes (i : Instr) (m : List Byte) : Prop := i.isWire = true ∧ i.wellFormed = true ∧ encode i = m

theorem decodeF0_hasWireBytes {op : Byte} {rest : List Byte} {i j : Instr} (h : decodeF0 j rest = .ok i)
    (hj : j.HasWireBytes [op]) : i.HasWireBytes (op :: rest) := by
  unfold decodeF0 at h
  split at h
  · cases h
    exact hj
  · cases h

theorem decodeF1_hasWireBytes {op : Byte} {rest : List Byte} {i : Instr} {f : Byte → Instr}
    (h : decodeF1 f rest = .ok i) (hf : ∀ x, (f x).HasWireBytes [op, x]) : i.HasWireBytes (op :: rest) := by
  unfold decodeF1 at h
  split at h
  · cases h
    exact hf _
  · cases h

theorem decodeFA_hasWireBytes {op : Byte} {rest : List Byte} {i : Instr} {f : Half → List Byte → Instr}
    (h : decodeFA f rest = .ok i)
    (hf : ∀ a data, (f a data).HasWireBytes (op :: addressHi a :: addressLo a :: data)) :
    i.HasWireBytes (op :: rest) := by
  unfold decodeFA at h
  split at h
  · cases h
    simpa using hf (addressOf _ _) _
  · cases h

/-- The opcode map gives each opcode the command that is encoded with it. -/
theorem decodeOpcode_hasWireBytes {op : Byte} {rest : List Byte} {i : Instr} (h : decodeOpcode op rest = .ok i) :
    i.HasWireBytes (op :: rest) := by
  have hop : ∀ n, op.toNat = n → op = BitVec.ofNat 8 n := by
    rintro n rfl
    simp
  unfold decodeOpcode at h
  split at h
  case h_12 => cases h
  all_goals obtain rfl := hop _ ‹_›
  case h_1 => exact decodeF1_hasWireBytes h fun _ => ⟨rfl, rfl, rfl⟩
  case h_2 => exact decodeFA_hasWireBytes h fun _ _ => ⟨rfl, rfl, rfl⟩
  case h_3 => exact decodeFA_hasWireBytes h fun _ _ => ⟨rfl, rfl, rfl⟩
  case h_4 => exact decodeF0_hasWireBytes h ⟨rfl, rfl, rfl⟩
  case h_5 => exact decodeF1_hasWireBytes h fun _ => ⟨rfl, rfl, rfl⟩
  case h_6 => exact decodeF0_hasWireBytes h ⟨rfl, rfl, rfl⟩
  case h_7 => exact decodeF1_hasWireBytes h fun _ => ⟨rfl, rfl, rfl⟩
  case h_8 => exact decodeF0_hasWireBytes h ⟨rfl, rfl, rfl⟩
  case h_9 => exact decodeF0_hasWireBytes h ⟨rfl, rfl, rfl⟩
  case h_10 => exact decodeF0_hasWireBytes h ⟨rfl, rfl, rfl⟩
  case h_11 => exact decodeF1_hasWireBytes h fun _ => ⟨rfl, rfl, rfl⟩

/-- Settles O3: an accepted sequence is an opcode of the map and behind it the operand bytes of that command's format. -/
theorem wireBytesHaveOneMeaning : Obligations.WireBytesHaveOneMeaning := by
  intro m i h
  cases m with
  | nil => cases h
  | cons op rest => exact decodeOpcode_hasWireBytes h

/-- Settles O4: the commands' words are their encodings; the other three have no opcode, one byte too many, one too few. -/
theorem specWordsDecode : Obligations.SpecWordsDecode :=
  ⟨wireEncodingRoundTrip .wren rfl rfl, wireEncodingRoundTrip (.wrsr 0x08#8) rfl rfl,
    wireEncodingRoundTrip (.program 0x0600#16 [0xDE#8, 0xAD#8]) rfl rfl,
    wireEncodingRoundTrip (.read 0x000B#16 [0x00#8]) rfl rfl, wireEncodingRoundTrip (.erasePage 0x03#8) rfl rfl,
    rfl, rfl, rfl⟩

end Sys2Proof

namespace Sys2Proof.Machine

/-! ## What the frames of a transfer deliver (R240 to R244) -/

/-- The frames of a sequence of bits, with the chip selected and the clock low: the target shifts the bits in. -/
theorem driveFrames_bitFrames {p : Params} (hp : p.wf = true) (r : List Bool) (l : Lines) (bits : List Bool)
    (hsck : pinLevel l.levels p.pinSck = false) (hcsn : pinLevel l.levels p.pinCsn = false) :
    (driveFrames p r l (bitFrames p l.levels bits)).levels = pinsAfterBits p l.levels bits ∧
      (driveFrames p r l (bitFrames p l.levels bits)).bits = l.bits ++ bits := by
  induction bits generalizing l with
  | nil => exact ⟨rfl, (List.append_nil _).symm⟩
  | cons v vs ih =>
    obtain ⟨-, -, hSckCsn, -, hMosiCsn, -⟩ := params_distinct p hp
    obtain ⟨samples, hcell, -⟩ := drive_bitCell p hp r l v hsck hcsn
    have hcsn' : pinLevel (cellLow p l.levels v) p.pinCsn = false :=
      (cellLow_other p _ v _ hSckCsn.symm hMosiCsn.symm).trans hcsn
    obtain ⟨hlevels, hbits⟩ := ih
      { levels := cellLow p l.levels v, fifo := l.fifo ++ samples, bits := l.bits ++ [v], pos := l.pos + 1 }
      (cellLow_sck p _ v) hcsn'
    rw [bitFrames, driveFrames_append, hcell]
    exact ⟨hlevels, hbits.trans (by simp)⟩

theorem runPhase_levels (p : Params) (r : List Bool) (a : Lines × List Byte) (ph : Phase) :
    (runPhase p r a ph).1.levels = (driveFrames p r a.1 ph.frames).levels := rfl

theorem runPhase_bits (p : Params) (r : List Bool) (a : Lines × List Byte) (ph : Phase) :
    (runPhase p r a ph).1.bits = (driveFrames p r a.1 ph.frames).bits := rfl

/-- The chunks' phases: the target shifts in the chunks' bits, one chunk behind the other. -/
theorem foldl_chunkPhases_bits {p : Params} (hp : p.wf = true) (r : List Bool) {pins : Byte} (a : Lines × List Byte)
    (cs : List (List Byte)) (hpins : a.1.levels = pins) (hsck : pinLevel pins p.pinSck = false)
    (hcsn : pinLevel pins p.pinCsn = false) :
    ((chunkPhases p pins cs).foldl (runPhase p r) a).1.bits = a.1.bits ++ bufferBits cs.flatten := by
  induction cs generalizing pins a with
  | nil => exact (List.append_nil _).symm
  | cons c cs ih =>
    subst hpins
    obtain ⟨-, -, hSckCsn, -, hMosiCsn, -⟩ := params_distinct p hp
    obtain ⟨hlevels, hbits⟩ := driveFrames_bitFrames hp r a.1 (bufferBits c) hsck hcsn
    have hcsn' : pinLevel (pinsAfterBits p a.1.levels (bufferBits c)) p.pinCsn = false :=
      (pinsAfterBits_other _ _ _ _ hSckCsn.symm hMosiCsn.symm).trans hcsn
    rw [chunkPhases, List.foldl_cons, ih _ hlevels (pinsAfterBits_sck _ _ _ hsck) hcsn', runPhase_bits, hbits,
      List.flatten_cons, bufferBits_append, List.append_assoc]

/-- The chunks of a buffer are the buffer, where the bound on their number lets them reach its end. -/
theorem chunksOf_flatten {k : Nat} (hk : 1 ≤ k) : ∀ (n : Nat) (m : List Byte), m.length ≤ n → (chunksOf k n m).flatten = m
  | 0, m, h => (List.eq_nil_of_length_eq_zero (Nat.le_zero.mp h)).symm
  | _ + 1, [], _ => rfl
  | n + 1, b :: bs, h => by
    have hrest : ((b :: bs).drop k).length ≤ n := by
      rw [List.length_drop]
      omega
    rw [chunksOf, List.flatten_cons, chunksOf_flatten hk n _ hrest, List.take_append_drop]

theorem chunksOf_length_le (k : Nat) : ∀ (n : Nat) (m : List Byte), ∀ c ∈ chunksOf k n m, c.length ≤ k
  | 0, _, _, hc => absurd hc List.not_mem_nil
  | _ + 1, [], _, hc => absurd hc List.not_mem_nil
  | n + 1, b :: bs, c, hc => by
    obtain rfl | hc := List.mem_cons.mp hc
    · exact List.length_take_le _ _
    · exact chunksOf_length_le k n _ c hc

theorem selectedPins_csn (p : Params) (pins : Byte) : pinLevel (selectedPins p pins) p.pinCsn = false :=
  pinLevel_setPin_same _ _ _

theorem pinsAfterTransfer_csn (p : Params) (pins : Byte) (m : List Byte) :
    pinLevel (pinsAfterTransfer p pins m) p.pinCsn = true :=
  pinLevel_setPin_same _ _ _

/-- The leading frame, on idle pins: the falling chip-select starts a command with no bit shifted in. -/
theorem runPhase_select {p : Params} (r : List Bool) (l : Lines) (bs : List Byte) (n : Nat)
    (hcsn : pinLevel l.levels p.pinCsn = true) :
    (runPhase p r (l, bs) { frames := [selectedPins p l.levels], count := n }).1.levels = selectedPins p l.levels ∧
      (runPhase p r (l, bs) { frames := [selectedPins p l.levels], count := n }).1.bits = [] := by
  simp [runPhase, driveFrame, targetReact, selectedPins_csn, hcsn]

/-- A frame with chip-select high shifts nothing in. -/
theorem runPhase_released {p : Params} (r : List Bool) (a : Lines × List Byte) {f : Byte} (n : Nat)
    (h : pinLevel f p.pinCsn = true) : (runPhase p r a { frames := [f], count := n }).1.bits = a.1.bits := by
  simp [runPhase, driveFrame, targetReact, h]

/-- A transfer that starts from idle pins shifts in the bits of its buffer (R243, R244). -/
theorem runPhases_transfer_bits {p : Params} (hp : p.wf = true) (r : List Bool) {l : Lines} (m : List Byte)
    (hidle : betweenTransfers p l.levels) :
    (runPhases p r l (transferPhases p l.levels m)).1.bits = bufferBits m := by
  obtain ⟨-, -, hSckCsn, -⟩ := params_distinct p hp
  obtain ⟨hsck, hcsn, -⟩ := hidle
  obtain ⟨hlevels, hbits⟩ := runPhase_select r l [] 0 hcsn
  have hsck' : pinLevel (selectedPins p l.levels) p.pinSck = false :=
    (pinLevel_setPin_other _ _ _ _ hSckCsn).trans hsck
  rw [runPhases, transferPhases, List.foldl_cons, List.foldl_append, List.foldl_cons, List.foldl_nil,
    runPhase_released r _ _ (pinsAfterTransfer_csn _ _ _),
    foldl_chunkPhases_bits hp r _ _ hlevels hsck' (selectedPins_csn _ _), hbits,
    chunksOf_flatten (params_chunk_pos p hp) _ _ le_rfl, List.nil_append]

/-- R244: the target assembles the very bytes of the buffer. -/
theorem deliveredBytes_transfer {s : State} (m : List Byte) (hp : s.params.wf = true)
    (hidle : betweenTransfers s.params s.pins) :
    deliveredBytes s.params s.lines (transferPhases s.params s.pins m) = m := by
  rw [deliveredBytes]
  exact (congrArg bytesOfBits (runPhases_transfer_bits hp [] (l := s.lines) m hidle)).trans (bytesOfBits_bufferBits m)

/-! ## The phases of a transfer: how many samples and payload bytes each has (R242, R243) -/

theorem chunkPhases_count (p : Params) (pins : Byte) (cs : List (List Byte)) :
    (chunkPhases p pins cs).map Phase.count = cs.map List.length := by
  induction cs generalizing pins with
  | nil => rfl
  | cons c cs ih => exact congrArg (c.length :: ·) (ih _)

/-- The read phases of a transfer recover as many bytes as it sends. -/
theorem transferPhases_count_sum {p : Params} (hp : p.wf = true) (pins : Byte) (m : List Byte) :
    ((transferPhases p pins m).map Phase.count).sum = m.length := by
  have hflatten := congrArg List.length (chunksOf_flatten (params_chunk_pos p hp) m.length m le_rfl)
  simpa [transferPhases, chunkPhases_count, List.length_flatten] using hflatten

/-- Up to any phase, no more bytes are recovered than the transfer sends. -/
theorem transferPhases_take_count_le {p : Params} (hp : p.wf = true) (pins : Byte) (m : List Byte) (j : Nat) :
    (((transferPhases p pins m).take j).map Phase.count).sum ≤ m.length := by
  rw [← transferPhases_count_sum hp pins m]
  exact ((List.take_sublist _ _).map _).sum_le_sum fun _ _ => Nat.zero_le _

/-- Each phase recovers the bytes it counts. -/
theorem runPhases_recovered_length (p : Params) (r : List Bool) (l : Lines) (phs : List Phase) :
    (runPhases p r l phs).2.length = (phs.map Phase.count).sum := by
  have hfold : ∀ a : Lines × List Byte, (phs.foldl (runPhase p r) a).2.length = a.2.length + (phs.map Phase.count).sum := by
    induction phs with
    | nil => exact fun _ => rfl
    | cons ph phs ih =>
      intro a
      rw [List.foldl_cons, ih, List.map_cons, List.sum_cons, ← Nat.add_assoc]
      simp [runPhase]
  exact (hfold (l, [])).trans (Nat.zero_add _)

theorem chunkPhases_frames_length_le {p : Params} {k : Nat} (pins : Byte) (cs : List (List Byte))
    (hcs : ∀ c ∈ cs, c.length ≤ k) :
    ∀ ph ∈ chunkPhases p pins cs, ph.frames.length ≤ k * (8 * p.framesPerBit) := by
  induction cs generalizing pins with
  | nil => exact fun _ hph => absurd hph List.not_mem_nil
  | cons c cs ih =>
    intro ph hph
    obtain rfl | hph := List.mem_cons.mp hph
    · rw [bitFrames_length, bufferBits_length, Nat.mul_comm 8, Nat.mul_assoc]
      exact Nat.mul_le_mul_right _ (hcs c List.mem_cons_self)
    · exact ih _ (fun d hd => hcs d (List.mem_cons_of_mem _ hd)) ph hph

theorem params_admitted {p : Params} (h : p.admitted = true) :
    p.wf = true ∧ p.chunkBytes * (8 * p.framesPerBit) ≤ p.fifoCap := by
  simp only [Params.admitted, Bool.and_eq_true, decide_eq_true_eq] at h
  obtain ⟨⟨hwf, hfits⟩, -⟩ := h
  exact ⟨hwf, hfits⟩

/-- R242: with admitted parameters each write phase of a transfer fits the bridge's FIFO. -/
theorem transferPhases_frames_le {p : Params} (hp : p.admitted = true) (pins : Byte) (m : List Byte) :
    ∀ ph ∈ transferPhases p pins m, ph.frames.length ≤ p.fifoCap := by
  obtain ⟨hwf, hcap⟩ := params_admitted hp
  have hone : 1 ≤ p.fifoCap :=
    calc 1 ≤ p.chunkBytes * (8 * p.framesPerBit) :=
          Nat.mul_pos (params_chunk_pos p hwf) (Nat.mul_pos (by decide) (Nat.lt_of_lt_of_le (by decide) (framesPerBit_pos p)))
      _ ≤ p.fifoCap := hcap
  intro ph hph
  obtain rfl | hph := List.mem_cons.mp hph
  · exact hone
  obtain hph | hph := List.mem_append.mp hph
  · exact (chunkPhases_frames_length_le _ _ (chunksOf_length_le _ _ _) ph hph).trans hcap
  · obtain rfl := List.mem_singleton.mp hph
    exact hone

theorem begunPhases_subset (env : List EnvChoice) (phs : List Phase) : begunPhases env phs ⊆ phs := by
  unfold begunPhases
  split
  · exact fun _ h => h
  · exact List.take_subset _ _

theorem phasesFit_transfer {s : State} (m : List Byte) (hp : s.params.admitted = true) (hfifo : s.fifo = []) :
    phasesFit s (begunPhases s.env (transferPhases s.params s.pins m)) = true := by
  simp only [phasesFit, hfifo, List.length_nil, Nat.zero_add, List.all_eq_true, decide_eq_true_eq]
  exact fun ph hph => transferPhases_frames_le hp s.pins m ph (begunPhases_subset _ _ hph)

/-! ## A failing phase (R246): the outcome -/

/-- What the failing phase `j` of a transfer of `m` from `s` makes of the target's state `u`. -/
def afterFailingPhase (m : List Byte) (j : Nat) (write : Bool) (s u : State) : State :=
  (u.transferFailed (((transferPhases s.params s.pins m).take (j + 1)).flatMap Phase.frames)
    (runPhases s.params (bufferBits u.resp) s.lines ((transferPhases s.params s.pins m).take j)).2
    (lastFrameOf (transferPhases s.params s.pins m) j s.pins) m).raise (phaseError write)

theorem failingPhase_eq_some {env es : List EnvChoice} {n j : Nat} {write : Bool} (henv : env = .fail j write :: es)
    (hj : j < n) : failingPhase env n = some (j, write) := by
  subst henv
  exact if_pos hj

/-- A transfer with a failing phase: the target is interrupted over the buffer's own bytes. -/
theorem bitbangTransfer_failing {s : State} {m : List Byte} {j : Nat} {write : Bool} {es : List EnvChoice}
    (hp : s.params.admitted = true) (hidle : betweenTransfers s.params s.pins) (hfifo : s.fifo = [])
    (henv : s.env = .fail j write :: es) (hj : j < (transferPhases s.params s.pins m).length) :
    bitbangTransfer m s =
      andThen (interrupted m (reachedAt (transferPhases s.params s.pins m).length j write) s)
        fun u => .next (afterFailingPhase m j write s u) := by
  obtain ⟨hwf, -⟩ := params_admitted hp
  simp [bitbangTransfer, hwf, phasesFit_transfer m hp hfifo, failingPhase_eq_some henv hj,
    deliveredBytes_transfer m hwf hidle, afterFailingPhase]

/-- A transfer with a failing phase that ends: the target was cut short. -/
theorem bitbangTransfer_failing_next {s t : State} {m : List Byte} {j : Nat} {write : Bool} {es : List EnvChoice}
    (hidle : betweenTransfers s.params s.pins) (henv : s.env = .fail j write :: es)
    (hj : j < (transferPhases s.params s.pins m).length) (h : bitbangTransfer m s = .next t) :
    s.params.wf = true ∧ ∃ clocked, t = afterFailingPhase m j write s (cutShort m clocked s) := by
  have hfail := failingPhase_eq_some henv hj
  obtain ⟨hwf, -, ⟨hnone, -⟩ | ⟨j', write', u, hsome, hu, rfl⟩⟩ := bitbangTransfer_next _ _ _ h
  · exact absurd (hnone.symm.trans hfail) (by simp)
  · obtain ⟨rfl, rfl⟩ : j' = j ∧ write' = write := by simpa using hsome.symm.trans hfail
    rw [deliveredBytes_transfer m hwf hidle] at hu
    obtain ⟨rfl, -⟩ := interrupted_next _ _ _ _ hu
    exact ⟨hwf, _, rfl⟩

theorem two_le_transferPhases_length (p : Params) (pins : Byte) (m : List Byte) : 2 ≤ (transferPhases p pins m).length := by
  simp [transferPhases]

/-- Once chip-select is released, a command to which the target gives no meaning is refused (R279). -/
theorem interrupted_refused {m : List Byte} {n j : Nat} {s : State} {r : Refusal} (hn : 2 ≤ n) (hj : j + 1 = n)
    (h : receive m s = .refused r) : interrupted m (reachedAt n j false) s = .refused r := by
  obtain ⟨hzero, -⟩ | ⟨-, -, -, hreached⟩ | ⟨-, hne | hwrite, -⟩ := reachedAt_cases n j false
  · omega
  · rw [hreached, interrupted, h]
    rfl
  · exact absurd hj hne
  · cases hwrite

/-- Nothing is refused while chip-select is not released (R82, R246), nor a command that the target gives a meaning. -/
theorem interrupted_completes {m : List Byte} {n j : Nat} {write : Bool} {s : State}
    (h : j + 1 < n ∨ write = true ∨ ∃ u, receive m s = .next u) :
    ∃ u, interrupted m (reachedAt n j write) s = .next u := by
  obtain ⟨-, hreached⟩ | ⟨-, hlast, hread, hreached⟩ | ⟨-, -, hreached⟩ := reachedAt_cases n j write
  · exact ⟨_, interrupted_unreleased _ _ _ (by simp [hreached])⟩
  · obtain hbefore | hwrite | ⟨u, hu⟩ := h
    · omega
    · exact absurd (hread.symm.trans hwrite) (by decide)
    · exact ⟨cutShort m true s, by rw [hreached, interrupted, hu]; rfl⟩
  · exact ⟨_, interrupted_unreleased _ _ _ (by simp [hreached])⟩

/-! ## The FSR after a `PROGRAM` or an `ERASE_PAGE` in flight (R277) -/

/-- What a mutating command in flight may make `g` of the FSR `f`: only `RDYN` and `WEN` change, `WEN` is not set, and
without `WEN` nothing changes. -/
structure StatusCut (f g : Byte) : Prop where
  kept : ∀ j, j < 8 → j ∉ [4, 5] → g.getLsbD j = f.getLsbD j
  latch : fsrWen g = true → fsrWen f = true
  unlatched : fsrWen f = false → g = f

theorem StatusCut.refl (f : Byte) : StatusCut f f := ⟨fun _ _ _ => rfl, id, fun _ => rfl⟩

theorem StatusCut.infen {f g : Byte} (h : StatusCut f g) : fsrInfen g = fsrInfen f := h.kept 3 (by decide) (by decide)

theorem statusMutationCut_statusCut (f pick : Byte) : StatusCut f (statusMutationCut f f pick) where
  kept j hj hother := by
    simp only [List.mem_cons, List.not_mem_nil, or_false, not_or] at hother
    obtain ⟨hrdyn, hwen⟩ := hother
    rw [statusMutationCut_bit _ _ _ _ hj, if_neg hwen, if_neg hrdyn, ite_self]
  latch h := by
    rw [fsrWen, statusMutationCut_bit _ _ _ 5 (by decide)] at h
    by_contra hwen
    exact hwen (by rwa [if_neg hwen] at h)
  unlatched h := by simp [statusMutationCut, h]

theorem statusCut_program (addr : Half) (data : List Byte) (f pick : Byte) :
    StatusCut f (statusCut (.program addr data) f pick) := by
  rw [statusCut]
  split
  · exact .refl f
  · exact statusMutationCut_statusCut f pick

theorem statusCut_erasePage (page f pick : Byte) : StatusCut f (statusCut (.erasePage page) f pick) :=
  statusMutationCut_statusCut f pick

/-! ## The flash after a `PROGRAM` or an `ERASE_PAGE` in flight (R277) -/

/-- A byte programmed with any data: no bit set that was clear. -/
def ProgrammedByte (old new : Byte) : Prop := new &&& ~~~old = 0#8

/-- A byte erased. -/
def ErasedByte (_old new : Byte) : Prop := new = 0xFF#8

/-- From `s` to `t` only the selected region changed, only with `WEN` set and only in the `n` bytes from `base` on, and there
each byte is the old one or one that `may` allows. -/
structure RangeCut (may : Byte → Byte → Prop) (base n : Nat) (s t : State) : Prop where
  other : sameOtherRegion s t
  region : ∀ a, Memory.read t.region a = Memory.read s.region a ∨
    (fsrWen s.fsr = true ∧ base ≤ a ∧ a < base + n ∧ may (Memory.read s.region a) (Memory.read t.region a))

theorem RangeCut.refl (may : Byte → Byte → Prop) (base n : Nat) (s : State) : RangeCut may base n s s :=
  ⟨⟨fun _ _ => rfl, fun _ _ => rfl⟩, fun _ => .inl rfl⟩

theorem State.region_congr {s t : State} (hmain : t.main = s.main) (hinfo : t.info = s.info)
    (hinfen : fsrInfen t.fsr = fsrInfen s.fsr) : t.region = s.region := by
  rw [State.region, State.region, hmain, hinfo, hinfen]

theorem State.setRegion_region (s : State) (m : Memory) : (s.setRegion m).region = m := by
  cases h : fsrInfen s.fsr <;> simp [State.region, h]

theorem RangeCut.of_setRegion {may : Byte → Byte → Prop} {base n : Nat} {s : State} {m : Memory}
    (h : ∀ a, Memory.read m a = Memory.read s.region a ∨
      (fsrWen s.fsr = true ∧ base ≤ a ∧ a < base + n ∧ may (Memory.read s.region a) (Memory.read m a))) :
    RangeCut may base n s (s.setRegion m) := by
  refine ⟨⟨fun hinfen _ => ?_, fun hinfen _ => ?_⟩, ?_⟩
  · simp [hinfen]
  · simp [hinfen]
  · rwa [State.setRegion_region]

/-- A range cut looks at flash, `INFEN` and, before it, `WEN` alone. -/
theorem RangeCut.congr {may : Byte → Byte → Prop} {base n : Nat} {s s' t t' : State} (h : RangeCut may base n s t)
    (hs : FlashKept s s') (hfsr : s'.fsr = s.fsr) (ht : FlashKept t t') (hinfen : fsrInfen t'.fsr = fsrInfen t.fsr) :
    RangeCut may base n s' t' := by
  have hregion := State.region_congr hs.main hs.info (by rw [hfsr])
  have hregion' := State.region_congr ht.main ht.info hinfen
  obtain ⟨hother, hbytes⟩ := h
  refine ⟨?_, ?_⟩
  · simpa only [sameOtherRegion, sameMain, sameInfo, hs.main, hs.info, ht.main, ht.info, hfsr] using hother
  · simpa only [hregion, hregion', hfsr] using hbytes

theorem RangeCut.outside {may : Byte → Byte → Prop} {base n : Nat} {s t : State} (h : RangeCut may base n s t) {a : Nat}
    (ha : a < base ∨ base + n ≤ a) : Memory.read t.region a = Memory.read s.region a := by
  obtain heq | ⟨-, hlo, hhi, -⟩ := h.region a
  · exact heq
  · omega

theorem RangeCut.unlatched {may : Byte → Byte → Prop} {base n : Nat} {s t : State} (h : RangeCut may base n s t)
    (hinfen : fsrInfen t.fsr = fsrInfen s.fsr) (hwen : fsrWen s.fsr = false) : sameFlash s t := by
  have hregion : ∀ a, Memory.read t.region a = Memory.read s.region a := fun a =>
    (h.region a).resolve_right fun hcut => absurd (hwen.symm.trans hcut.1) (by decide)
  obtain ⟨hmain, hinfo⟩ := h.other
  cases hsel : fsrInfen s.fsr with
  | true => exact ⟨hmain hsel, by simpa [State.region, hinfen, hsel, sameInfo] using hregion⟩
  | false => exact ⟨by simpa [State.region, hinfen, hsel, sameMain] using hregion, hinfo hsel⟩

theorem RangeCut.programmed {may : Byte → Byte → Prop} {base n : Nat} {s t : State} (h : RangeCut may base n s t)
    (hmay : ∀ old new, may old new → ProgrammedByte old new) (a : Nat) :
    Memory.read t.region a &&& ~~~(Memory.read s.region a) = 0#8 := by
  obtain heq | ⟨-, -, -, hbyte⟩ := h.region a
  · rw [heq]
    exact BitVec.and_not_self _
  · exact hmay _ _ hbyte

theorem RangeCut.erased {may : Byte → Byte → Prop} {base n : Nat} {s t : State} (h : RangeCut may base n s t)
    (hmay : ∀ old new, may old new → ErasedByte old new) (a : Nat) :
    Memory.read t.region a = Memory.read s.region a ∨ Memory.read t.region a = 0xFF#8 :=
  (h.region a).imp_right fun ⟨_, _, _, hbyte⟩ => hmay _ _ hbyte

/-- Data that stop at the end of the region; with a base past it there are none, and nothing is written. -/
theorem Memory.read_andRange_clipped {size : Nat} {m : Memory} {base : Nat} {data : List Byte} (a : Nat)
    (hm : Memory.wf size m = true) (hlen : data.length ≤ size - base) :
    Memory.read (Memory.andRange m base data) a = Memory.read m a ∨
      (base ≤ a ∧ a < base + data.length ∧
        ProgrammedByte (Memory.read m a) (Memory.read (Memory.andRange m base data) a)) := by
  by_cases hbase : base ≤ size
  · rw [Memory.read_andRange size m base data a (by omega) hm]
    split
    · rename_i ha
      exact .inr ⟨ha.1, ha.2, and_gains_no_bit _ _⟩
    · exact .inl rfl
  · obtain rfl : data = [] := List.eq_nil_of_length_eq_zero (by omega)
    exact .inl rfl

theorem cutFlash_program (addr : Half) (data : List Byte) {s : State} (hs : flashWf s) :
    RangeCut ProgrammedByte addr.toNat data.length s (cutFlash (.program addr data) s) := by
  cases hwen : fsrWen s.fsr with
  | false =>
    rw [cutFlash, if_pos hwen]
    exact .refl _ _ _ s
  | true =>
    rw [cutFlash, if_neg (by simp [hwen])]
    refine (RangeCut.of_setRegion fun a =>
      (Memory.read_andRange_clipped a (State.region_wf hs) (by simp)).imp_right ?_).congr ⟨rfl, rfl⟩ rfl ⟨rfl, rfl⟩ rfl
    rintro ⟨hlo, hhi, hbyte⟩
    simp only [State.freeBytes_length] at hhi
    exact ⟨hwen, hlo, by omega, hbyte⟩

theorem cutFlash_erasePage (page : Byte) (s : State) :
    RangeCut ErasedByte (512 * page.toNat) 512 s (cutFlash (.erasePage page) s) := by
  obtain heq | ⟨hwen, ⟨_, _, hi, -⟩ | ⟨_, hi, -, heq⟩ | ⟨hi, -⟩⟩ := cutFlash_cases (.erasePage page) s
  · rw [heq]
    exact .refl _ _ _ s
  · cases hi
  · cases hi
    rw [heq]
    refine (RangeCut.of_setRegion fun a => (Memory.read_eraseSome _ _ _ _ a).imp_right ?_).congr
      ⟨rfl, rfl⟩ rfl ⟨rfl, rfl⟩ rfl
    rintro ⟨hlo, hhi, hbyte⟩
    exact ⟨hwen, hlo, hhi, hbyte⟩
  · cases hi

/-- Bytes in flight that have semantics: what `cutFlash` and `statusCut` leave of flash and FSR. -/
theorem cutShort_known {m : List Byte} {i : Instr} (clocked : Bool) (s : State) (h : knownCommand m = some i) :
    FlashKept (cutFlash i (s.answering m)) (cutShort m clocked s) ∧
      ∃ pick, (cutShort m clocked s).fsr = statusCut i s.fsr pick := by
  rw [cutShort, cutCommand_known m i clocked _ h]
  exact ⟨⟨rfl, rfl⟩, _, congrArg (statusCut i · _) (s.answering_fsr m)⟩

/-- A cut of a command's own flash and FSR is the cut of the transfer that carried it. -/
theorem cutShort_cuts {may : Byte → Byte → Prop} {base n : Nat} {m : List Byte} {i : Instr} (clocked : Bool) {s : State}
    (h : knownCommand m = some i) (hflash : RangeCut may base n (s.answering m) (cutFlash i (s.answering m)))
    (hstatus : ∀ pick, StatusCut s.fsr (statusCut i s.fsr pick)) :
    RangeCut may base n s (cutShort m clocked s) ∧ StatusCut s.fsr (cutShort m clocked s).fsr := by
  obtain ⟨hkept, pick, hfsr⟩ := cutShort_known clocked s h
  have hcut : StatusCut s.fsr (cutShort m clocked s).fsr := hfsr ▸ hstatus pick
  refine ⟨hflash.congr ⟨(s.answering_main m).symm, (s.answering_info m).symm⟩ (s.answering_fsr m).symm hkept ?_, hcut⟩
  rw [hcut.infen, cutFlash_fsr, State.answering_fsr]

theorem cutShort_program {m : List Byte} {addr : Half} {data : List Byte} (clocked : Bool) {s : State} (hs : flashWf s)
    (h : decodeWire m = .ok (.program addr data)) :
    RangeCut ProgrammedByte addr.toNat data.length s (cutShort m clocked s) ∧
      StatusCut s.fsr (cutShort m clocked s).fsr :=
  cutShort_cuts clocked ((knownCommand_some _ _).mpr ⟨h, by simp⟩)
    (cutFlash_program addr data (hs.of_flash_eq (s.answering_main m) (s.answering_info m)))
    (statusCut_program addr data s.fsr)

theorem cutShort_erasePage {m : List Byte} {page : Byte} (clocked : Bool) (s : State)
    (h : decodeWire m = .ok (.erasePage page)) :
    RangeCut ErasedByte (512 * page.toNat) 512 s (cutShort m clocked s) ∧ StatusCut s.fsr (cutShort m clocked s).fsr :=
  cutShort_cuts clocked ((knownCommand_some _ _).mpr ⟨h, by simp⟩) (cutFlash_erasePage page _)
    (statusCut_erasePage page s.fsr)

/-- Both commands at once: their range is cut, with the bytes their own kind allows. -/
theorem cutShort_programOrErase {m : List Byte} {i : Instr} {base n : Nat} (clocked : Bool) {s : State} (hs : flashWf s)
    (h : decodeWire m = .ok i)
    (hi : (∃ addr d, i = .program addr d ∧ base = addr.toNat ∧ n = d.length) ∨
      (∃ page, i = .erasePage page ∧ base = 512 * page.toNat ∧ n = 512)) :
    ∃ may, (RangeCut may base n s (cutShort m clocked s) ∧ StatusCut s.fsr (cutShort m clocked s).fsr) ∧
      ((∃ addr d, i = .program addr d) → ∀ old new, may old new → ProgrammedByte old new) ∧
      ((∃ page, i = .erasePage page) → ∀ old new, may old new → ErasedByte old new) := by
  obtain ⟨addr, data, rfl, rfl, rfl⟩ | ⟨page, rfl, rfl, rfl⟩ := hi
  · exact ⟨_, cutShort_program clocked hs h, fun _ _ _ => id, nofun⟩
  · exact ⟨_, cutShort_erasePage clocked s h, nofun, fun _ _ _ => id⟩

/-! ## The block's side of a failing phase (R245, R246) -/

theorem callersBuffer_transfer {tasks : List Task} (wire : List Byte)
    (h : ∀ op b ts, tasks ≠ .payload op b :: ts) : callersBuffer tasks wire = wire := by
  unfold callersBuffer
  split
  · exact absurd rfl (h _ _ _)
  · rfl

/-- The buffer with the bytes recovered before the rest as sent: as long as it was, and behind these bytes as it was. -/
theorem recovered_append_drop {recovered m : List Byte} (h : recovered.length ≤ m.length) :
    (recovered ++ m.drop recovered.length).length = m.length ∧
      ∀ k, recovered.length ≤ k → (recovered ++ m.drop recovered.length).getD k 0#8 = m.getD k 0#8 := by
  refine ⟨by simp [h], fun k hk => ?_⟩
  rw [List.getD_append_right _ _ _ _ hk, List.getD_eq_getElem?_getD, List.getElem?_drop, Nat.add_sub_cancel' hk,
    List.getD_eq_getElem?_getD]

/-- The buffer after the failing phase `j` of `transfer`: of the length sent, and as sent behind the completed chunks. -/
theorem afterFailingPhase_buffer {m : List Byte} {j : Nat} {write : Bool} {s u : State} (hwf : s.params.wf = true)
    (htasks : ∀ op b ts, u.tasks ≠ .payload op b :: ts) :
    (afterFailingPhase m j write s u).buffer.length = m.length ∧
      ∀ k, (((transferPhases s.params s.pins m).take j).map Phase.count).sum ≤ k →
        (afterFailingPhase m j write s u).buffer.getD k 0#8 = m.getD k 0#8 := by
  rw [afterFailingPhase, State.raise_buffer, State.transferFailed_buffer, callersBuffer_transfer _ htasks,
    ← runPhases_recovered_length s.params (bufferBits u.resp) s.lines]
  refine recovered_append_drop ?_
  rw [runPhases_recovered_length]
  exact transferPhases_take_count_le hwf _ _ _

/-- What follows the cut at the target, the block's own bookkeeping, moves neither FSR nor flash. -/
theorem afterFailingPhase_cuts {may : Byte → Byte → Prop} {base n : Nat} {m : List Byte} {j : Nat} {write : Bool}
    {s u : State} (hu : RangeCut may base n s u ∧ StatusCut s.fsr u.fsr) :
    RangeCut may base n s (afterFailingPhase m j write s u) ∧ StatusCut s.fsr (afterFailingPhase m j write s u).fsr := by
  obtain ⟨hflash, hstatus⟩ := hu
  exact ⟨hflash.congr ⟨rfl, rfl⟩ rfl ⟨rfl, rfl⟩ rfl, hstatus⟩

/-- In `transfer_scattered`, whose buffer rule is still to come, the caller's buffer is as it was (R245). -/
theorem afterFailingPhase_payload {m : List Byte} {j : Nat} {write : Bool} {s u : State} {op : Byte} {b : List Byte}
    {ts : List Task} (h : u.tasks = .payload op b :: ts) : (afterFailingPhase m j write s u).buffer = b := by
  rw [afterFailingPhase, State.raise_buffer, State.transferFailed_buffer, h]
  rfl

theorem cutShort_tasks (m : List Byte) (clocked : Bool) (s : State) : (cutShort m clocked s).tasks = s.tasks := by
  simp [cutShort]

theorem cutShort_env (m : List Byte) (clocked : Bool) (s : State) : (cutShort m clocked s).env = s.env := by
  simp [cutShort]

/-- Settles O43: a refusal waits for the release of chip-select; the command in flight is cut short within its own range and
FSR bits; the buffer keeps what the completed chunks did not overwrite. -/
theorem transportErrorAftermath : Obligations.TransportErrorAftermath := by
  refine ⟨fun s m j write es hp hidle hfifo henv hj => ⟨?_, ?_⟩, ?_⟩
  · rintro hlast rfl r hr
    rw [bitbangTransfer_failing hp hidle hfifo henv hj, interrupted_refused (two_le_transferPhases_length _ _ _) hlast hr]
    rfl
  · intro hcase
    obtain ⟨u, hu⟩ := interrupted_completes hcase
    exact ⟨afterFailingPhase m j write s u, by rw [bitbangTransfer_failing hp hidle hfifo henv hj, hu]; rfl, rfl, rfl⟩
  · intro s t m i j write es base n hs hidle _ henv hj hdecode hi h
    obtain ⟨hwf, clocked, rfl⟩ := bitbangTransfer_failing_next hidle henv hj h
    obtain ⟨-, -, hlink, -⟩ := (State.sessionView_eq_iff _ _).mp (cutShort_sessionView m clocked s)
    have htasks := cutShort_tasks m clocked s
    have henv' : (cutShort m clocked s).env.tail = es := by rw [cutShort_env, henv, List.tail_cons]
    obtain ⟨may, hcut, hprogram, herase⟩ := cutShort_programOrErase clocked hs hdecode hi
    obtain ⟨hflash, hstatus⟩ := afterFailingPhase_cuts (m := m) (j := j) (write := write) hcut
    exact ⟨rfl, rfl, rfl, hlink, henv', rfl, rfl, hstatus.kept, hstatus.latch, hflash.other,
      fun hwen => ⟨hstatus.unlatched hwen, hflash.unlatched hstatus.infen hwen⟩, fun _ => hflash.outside,
      fun hi => hflash.programmed (hprogram hi), fun hi => hflash.erased (herase hi),
      fun _ _ _ hhead => afterFailingPhase_payload (htasks.trans hhead),
      fun hhead => afterFailingPhase_buffer hwf (htasks ▸ hhead)⟩

end Sys2Proof.Machine

/-! SUPPORT and proofs of the family "hex decoder" (spec/40_hex_decoder.md): what each test of R111 finds on the
characters of a line, what an accepted line's record carries, and what the record's meaning does with destination and
clamp. -/

namespace Sys2Proof

/-! ## Characters that are no digits, and how many bytes characters make (R91) -/

theorem hexByte_eq_none {h l : Byte} (hbad : hexVal h = none ∨ hexVal l = none) : hexByte h l = none := by
  unfold hexByte
  split
  · simp_all
  · rfl

/-- One character that is no digit is enough, wherever it stands. -/
theorem hexBytes_eq_none {cs : List Byte} (hbad : ∃ c ∈ cs, hexVal c = none) : hexBytes cs = none := by
  fun_induction hexBytes cs with
  | case1 => simp at hbad
  | case2 => rfl
  | case3 h l rest b bs hbs hb ih =>
    obtain ⟨c, hc, hnone⟩ := hbad
    obtain rfl | rfl | hrest : c = h ∨ c = l ∨ c ∈ rest := by simpa using hc
    · cases hb.symm.trans (hexByte_eq_none (.inl hnone))
    · cases hb.symm.trans (hexByte_eq_none (.inr hnone))
    · cases hbs.symm.trans (ih ⟨c, hrest, hnone⟩)
  | case4 => rfl

theorem hexBytes_length {cs bs : List Byte} (h : hexBytes cs = some bs) : cs.length = 2 * bs.length := by
  fun_induction hexBytes cs generalizing bs with
  | case1 => cases h; rfl
  | case2 => cases h
  | case3 _ _ rest b bs' hbs _ ih =>
    cases h
    rw [List.length_cons, List.length_cons, List.length_cons, ih hbs, Nat.mul_succ]
  | case4 => cases h

/-! ## The sum of a line (R93, R116) -/

theorem addressOf_toNat (hi lo : Byte) : (addressOf hi lo).toNat = 256 * hi.toNat + lo.toNat := by
  simp only [addressOf, BitVec.toNat_ofNat]
  omega

/-- The payload's sum and the byte behind the payload make the sum of both. -/
theorem byteSum_take_add_getD {bs : List Byte} {n : Nat} (h : bs.length = n + 1) :
    byteSum (bs.take n) + (bs.getD n 0#8).toNat = byteSum bs := by
  induction bs generalizing n with
  | nil => simp at h
  | cons b bs ih =>
    cases n with
    | zero => simp [List.length_eq_zero_iff.mp (Nat.succ.inj h)]
    | succ n => simpa [Nat.add_assoc] using ih (Nat.succ.inj h)

/-- On the bytes of a line the checksum test is about their plain sum. -/
theorem checksumOk_lineBytes {bytes : List Byte} (cc ah al tt : Byte) (hlen : bytes.length = cc.toNat + 1) :
    checksumOk (addressOf ah al) tt.toNat (bytes.take cc.toNat) (bytes.getD cc.toNat 0#8) = true ↔
      (cc.toNat + ah.toNat + al.toNat + tt.toNat + (bytes.map BitVec.toNat).sum) % 256 = 0 := by
  have hcount : (bytes.take cc.toNat).length = cc.toNat := by
    rw [List.length_take]
    omega
  have hsum : (bytes.map BitVec.toNat).sum = byteSum (bytes.take cc.toNat) + (bytes.getD cc.toNat 0#8).toNat :=
    (byteSum_take_add_getD hlen).symm
  rw [hsum, checksumOk, recordSum, hcount, addressOf_toNat, beq_iff_eq]
  omega

/-- The checksum test leaves one byte: the one R93 gives the record. -/
theorem eq_recordChecksum {a : Half} {type : Nat} {d : List Byte} {k : Byte} (h : checksumOk a type d k = true) :
    k = recordChecksum a type d := by
  have hsum : (recordSum a type d + k.toNat) % 256 = 0 := beq_iff_eq.mp h
  apply BitVec.eq_of_toNat_eq
  rw [recordChecksum, BitVec.toNat_ofNat]
  omega

/-! ## The checksum, then the record type (R116, R119) -/

theorem classifyRecord_mismatch {a : Half} {type : Byte} {d : List Byte} {k : Byte}
    (h : checksumOk a type.toNat d k = false) : classifyRecord a type d k = .error .checksumMismatch := if_pos h

theorem classifyRecord_unsupported {a : Half} {type : Byte} {d : List Byte} {k : Byte} (htype : 2 ≤ type.toNat)
    (hsum : checksumOk a type.toNat d k = true) : classifyRecord a type d k = .error .unsupportedRecordType := by
  have h0 : type ≠ 0x00#8 := by rintro rfl; contradiction
  have h1 : type ≠ 0x01#8 := by rintro rfl; contradiction
  rw [classifyRecord, hsum, if_neg Bool.noConfusion, if_neg h0, if_neg h1]

/-- A record that is accepted has the right checksum and one of the two types. -/
theorem classifyRecord_ok {a : Half} {type : Byte} {d : List Byte} {k : Byte} {i : Instr}
    (h : classifyRecord a type d k = .ok i) :
    (checksumOk a 0 d k = true ∧ i = .hexData a d k) ∨ (checksumOk a 1 d k = true ∧ i = .hexEof a d k) := by
  unfold classifyRecord at h
  split at h
  · cases h
  · rename_i hsum
    replace hsum := Bool.eq_true_of_not_eq_false hsum
    split at h
    · subst type
      exact .inl ⟨hsum, (Except.ok.inj h).symm⟩
    · split at h
      · subst type
        exact .inr ⟨hsum, (Except.ok.inj h).symm⟩
      · cases h

/-! ## The tests of a line, one after the other (R111) -/

section LineTests

variable {cap : Nat} {rest bytes : List Byte} {cc ah al tt : Byte}

theorem decodeHex_noHeader (hlen : 9 ≤ rest.length + 1) (hheader : hexBytes (rest.take 8) = none) :
    decodeHex cap (startCode :: rest) = .error .malformedLine := by
  rw [Machine.decodeHex_start, if_neg (by omega), hheader]

/-- A header of four bytes is the eight characters that S1 asks for: S3 is next. -/
theorem decodeHex_of_header (hheader : hexBytes (rest.take 8) = some [cc, ah, al, tt]) :
    decodeHex cap (startCode :: rest) =
      decodeBody cap (rest.length + 1) cc.toNat (addressOf ah al) tt (rest.drop 8) := by
  have hlen : (rest.take 8).length = 8 := hexBytes_length hheader
  rw [List.length_take] at hlen
  rw [Machine.decodeHex_start, if_neg (by omega), hheader]

theorem decodeBody_noBytes {len count : Nat} {a : Half} {type : Byte} {body : List Byte} (hcap : count ≤ cap)
    (hlen : 11 + 2 * count ≤ len) (hbytes : hexBytes (body.take (2 * count + 2)) = none) :
    decodeBody cap len count a type body = .error .malformedLine := by
  rw [decodeBody, if_neg (by omega), if_neg (by omega), hbytes]

theorem decodeBody_bytes {len count : Nat} {a : Half} {type : Byte} {body : List Byte} (hcap : count ≤ cap)
    (hlen : 11 + 2 * count ≤ len) (hbytes : hexBytes (body.take (2 * count + 2)) = some bytes) :
    decodeBody cap len count a type body = classifyRecord a type (bytes.take count) (bytes.getD count 0#8) := by
  rw [decodeBody, if_neg (by omega), if_neg (by omega), hbytes]

/-- A line with all its digits holds the payload and one byte more. -/
theorem lineBytes_length {count : Nat} (hlen : 11 + 2 * count ≤ rest.length + 1)
    (hbytes : hexBytes ((rest.drop 8).take (2 * count + 2)) = some bytes) : bytes.length = count + 1 := by
  have h := hexBytes_length hbytes
  rw [List.length_take, List.length_drop] at h
  omega

/-- S5 on a complete line, in either letter case: a sum that is not 0 modulo 256. -/
theorem decodeHex_mismatch (hheader : hexBytes (rest.take 8) = some [cc, ah, al, tt]) (hcap : cc.toNat ≤ cap)
    (hlen : 11 + 2 * cc.toNat ≤ rest.length + 1)
    (hbytes : hexBytes ((rest.drop 8).take (2 * cc.toNat + 2)) = some bytes)
    (hsum : (cc.toNat + ah.toNat + al.toNat + tt.toNat + (bytes.map BitVec.toNat).sum) % 256 ≠ 0) :
    decodeHex cap (startCode :: rest) = .error .checksumMismatch := by
  rw [decodeHex_of_header hheader, decodeBody_bytes hcap hlen hbytes]
  exact classifyRecord_mismatch
    (Bool.eq_false_of_not_eq_true (mt (checksumOk_lineBytes cc ah al tt (lineBytes_length hlen hbytes)).mp hsum))

end LineTests

theorem decodeBody_ok {cap len count : Nat} {a : Half} {type : Byte} {body : List Byte} {i : Instr}
    (h : decodeBody cap len count a type body = .ok i) : ∃ d k, classifyRecord a type d k = .ok i := by
  unfold decodeBody at h
  split at h
  · cases h
  · split at h
    · cases h
    · split at h
      · cases h
      · exact ⟨_, _, h⟩

/-- An accepted line is a record that passed the checksum test and the test of its type. -/
theorem decodeHex_ok {cap : Nat} {line : List Byte} {i : Instr} (h : decodeHex cap line = .ok i) :
    ∃ a d k, (checksumOk a 0 d k = true ∧ i = .hexData a d k) ∨ (checksumOk a 1 d k = true ∧ i = .hexEof a d k) := by
  cases line with
  | nil => cases h
  | cons c rest =>
    simp only [decodeHex] at h
    split at h
    · cases h
    · split at h
      · cases h
      · split at h
        · obtain ⟨d, k, hrecord⟩ := decodeBody_ok h
          exact ⟨_, d, k, classifyRecord_ok hrecord⟩
        · cases h

/-- The characters of any record that fits the destination bring the decoder to its checksum and type. -/
theorem decodeHex_encodeLine_of_le {cap : Nat} (a : Half) (type : Byte) {d : List Byte} (k : Byte) (tail : List Byte)
    (hfits : d.length ≤ Config.hexMaxPayload) (hcap : d.length ≤ cap) :
    decodeHex cap (encodeLine a type d k ++ tail) = classifyRecord a type d k := by
  have hline : encodeLine a type d k ++ tail =
      startCode :: ([BitVec.ofNat 8 d.length, addressHi a, addressLo a, type].flatMap hexChars ++
        ((d ++ [k]).flatMap hexChars ++ tail)) := by
    simp [encodeLine]
  have hcount : (BitVec.ofNat 8 d.length).toNat = d.length := Nat.mod_eq_of_lt (Nat.lt_succ_of_le hfits)
  rw [hline, decodeHex_header, hcount, addressOf_hi_lo]
  refine decodeBody_hexChars _ _ _ _ _ hcap ?_
  rw [List.length_append, flatMap_hexChars_length, List.length_append, List.length_singleton]
  omega

/-! ## The obligations on the decoder -/

/-- Settles O5: the checksum test of an accepted record leaves no other byte. -/
theorem decodedRecordReencodesItsChecksum : Obligations.DecodedRecordReencodesItsChecksum := by
  refine fun cap line a d k => ⟨fun h => ?_, fun h => ?_⟩
  · obtain ⟨_, _, _, ⟨hsum, ⟨⟩⟩ | ⟨-, ⟨⟩⟩⟩ := decodeHex_ok h
    exact eq_recordChecksum hsum
  · obtain ⟨_, _, _, ⟨-, ⟨⟩⟩ | ⟨hsum, ⟨⟩⟩⟩ := decodeHex_ok h
    exact eq_recordChecksum hsum

/-- Settles O8: each test's outcome, first on the header's bytes, then on the bytes of the complete line. -/
theorem hexTestsInOrder : Obligations.HexTestsInOrder := by
  refine fun cap rest => ⟨fun hshort => ?_, fun hlen hbad => decodeHex_noHeader hlen (hexBytes_eq_none hbad),
    fun cc ah al tt hheader => ?_⟩
  · rw [Machine.decodeHex_start, if_pos hshort]
  refine ⟨fun hcap => ?_, fun hcap hshort => ?_, fun hcap hlen hbad => ?_, fun bytes hcap hlen hbytes => ?_⟩
  · rw [decodeHex_of_header hheader, decodeBody, if_pos hcap]
  · rw [decodeHex_of_header hheader, decodeBody, if_neg (by omega), if_pos hshort]
  · exact (decodeHex_of_header hheader).trans (decodeBody_noBytes hcap hlen (hexBytes_eq_none hbad))
  refine ⟨decodeHex_mismatch hheader hcap hlen hbytes, fun hsum => ?_⟩
  rw [decodeHex_of_header hheader, decodeBody_bytes hcap hlen hbytes]
  have hok := (checksumOk_lineBytes cc ah al tt (lineBytes_length hlen hbytes)).mpr hsum
  refine ⟨?_, ?_, fun htype => classifyRecord_unsupported htype hok⟩
  · rintro rfl
    exact classifyRecord_data hok
  · rintro rfl
    exact classifyRecord_eof hok

/-- Settles O9: the line's characters read back as the record, and the type is what is left to refuse. -/
theorem unsupportedRecordTypeFails : Obligations.UnsupportedRecordTypeFails :=
  fun _ a type _ k tail hfits hcap htype hsum =>
    (decodeHex_encodeLine_of_le a type k tail hfits hcap).trans (classifyRecord_unsupported htype hsum)

/-- Settles O7: an empty line and one with another first character are each turned down by the first test. -/
theorem lineWithoutColonIsMalformed : Obligations.LineWithoutColonIsMalformed := by
  intro cap line hcolon
  cases line with
  | nil => rfl
  | cons c rest => exact if_pos fun hc => hcolon (congrArg some hc)

end Sys2Proof

namespace Sys2Proof.Machine

/-! ## The meaning of a record on destination and clamp (R117, R118, R122) -/

/-- A record that fits the destination and has the right checksum passes S3 and S5. -/
theorem checkRecord_passes {s : State} {a : Half} {type : Nat} {d : List Byte} {k : Byte} (t : State)
    (hfits : d.length ≤ s.dest.length) (hsum : checksumOk a type d k = true) : checkRecord s a type d k t = t := by
  rw [checkRecord, if_neg (Nat.not_lt.mpr hfits), hsum, if_neg Bool.noConfusion]

theorem exec_hexData_stores {s : State} {a : Half} {d : List Byte} {k : Byte} (hfits : d.length ≤ s.dest.length)
    (hsum : checksumOk a 0 d k = true) (hclamp : clampExceeded s.clamp a d.length = false) :
    exec (.hexData a d k) s =
      .next ({ s with dest := storePayload s.dest d }.finish (.record (hexRecord a .data d k))) := by
  rw [exec, execHexData, checkRecord_passes _ hfits hsum, hclamp, if_neg Bool.noConfusion]

theorem exec_hexData_overrun {s : State} {a : Half} {d : List Byte} {k : Byte} (hfits : d.length ≤ s.dest.length)
    (hsum : checksumOk a 0 d k = true) (hclamp : clampExceeded s.clamp a d.length = true) :
    exec (.hexData a d k) s = .next (s.raise (.decode .bufferTooSmall)) := by
  rw [exec, execHexData, checkRecord_passes _ hfits hsum, if_pos hclamp]

/-- A stored payload stands at the start, and behind it the destination is as long and as it was. -/
theorem storePayload_spec {dest d : List Byte} (h : d.length ≤ dest.length) :
    (storePayload dest d).length = dest.length ∧ (∀ j, j < d.length → (storePayload dest d).getD j 0#8 = d.getD j 0#8) ∧
      ∀ j, d.length ≤ j → (storePayload dest d).getD j 0#8 = dest.getD j 0#8 := by
  obtain ⟨hlength, hrest⟩ := recovered_append_drop h
  exact ⟨hlength, fun _ hj => List.getD_append _ _ _ _ hj, hrest⟩

/-- R123: a record's meaning is a decode error, which is raised, or a result that is no error. -/
theorem checkRecord_outcome {s t : State} {a : Half} {type : Nat} {d : List Byte} {k : Byte}
    (ht : (∃ e, t = s.raise (.decode e)) ∨ ∃ v, t.outcome = some (.ok v)) :
    (∃ e, checkRecord s a type d k t = s.raise (.decode e)) ∨
      ∃ v, (checkRecord s a type d k t).outcome = some (.ok v) := by
  obtain ⟨heq, -⟩ | ⟨heq, -⟩ | ⟨heq, -⟩ := checkRecord_cases s a type d k t
  · exact .inl ⟨_, heq⟩
  · exact .inl ⟨_, heq⟩
  · rw [heq]
    exact ht

theorem exec_hex_outcome {i : Instr} {s t : State} (hi : i.isWire = false) (h : exec i s = .next t) :
    (∃ e, t = s.raise (.decode e)) ∨ ∃ v, t.outcome = some (.ok v) := by
  cases i with
  | hexData a d k =>
    cases h
    refine checkRecord_outcome ?_
    split
    · exact .inl ⟨_, rfl⟩
    · exact .inr ⟨_, rfl⟩
  | hexEof a d k =>
    cases h
    exact checkRecord_outcome (.inr ⟨_, rfl⟩)
  | _ => cases hi

/-! ## One call of `decode_line` (R111, R123) -/

/-- The call's operands and one line more, in the state as the model keeps them (log entry 16). -/
def State.called (s : State) (dest : List Byte) (clamp : Clamp) : State :=
  { s with dest := dest, clamp := clamp, cursor := s.cursor + 1 }

theorem decodeLineStep_ok {line dest : List Byte} {clamp : Clamp} {s : State} {i : Instr}
    (h : decodeHex dest.length line = .ok i) :
    decodeLineStep line dest clamp s = exec i (s.called dest clamp) := by
  rw [decodeLineStep, h]
  rfl

theorem decodeLineStep_error {line dest : List Byte} {clamp : Clamp} {s : State} {e : DecodeError}
    (h : decodeHex dest.length line = .error e) :
    decodeLineStep line dest clamp s = .next ((s.called dest clamp).raise (.decode e)) := by
  rw [decodeLineStep, h]
  rfl

/-- A call whose outcome is an error has raised it, whether the line is no record or the record's meaning failed. -/
theorem decodeLineStep_raises {line dest : List Byte} {clamp : Clamp} {s t : State} {e : OpError}
    (h : decodeLineStep line dest clamp s = .next t) (he : t.outcome = some (.error e)) :
    ∃ e', e = .decode e' ∧ t = (s.called dest clamp).raise e := by
  have hraised : ∃ e', t = (s.called dest clamp).raise (.decode e') := by
    obtain ⟨i, hi, hexec⟩ | ⟨e', -, rfl⟩ := decodeLineStep_next _ _ _ _ _ h
    · obtain hraised | ⟨v, hv⟩ := exec_hex_outcome (decodeHex_isWire hi) hexec
      · exact hraised
      · cases hv.symm.trans he
    · exact ⟨e', rfl⟩
  obtain ⟨e', rfl⟩ := hraised
  cases he
  exact ⟨e', rfl, rfl⟩

/-- Where it is the block's turn, a step is the meaning of the task at the head. -/
theorem step_eq_runTask {s : State} {task : Task} {ts : List Task} (henv : s.env.head? ≠ some .ready)
    (htasks : s.tasks = task :: ts) : step s = runTask task { s with tasks := ts } := by
  have hturn : step s = blockStep s := by
    unfold step systemStep
    split
    · simp_all
    · rfl
  rw [hturn, blockStep, htasks]

/-! ## The obligations on records and calls -/

/-- Settles O6: the checksum test comes before the record's meaning; every error of the call is a `raise`. -/
theorem decodeErrorsLeaveDestination : Obligations.DecodeErrorsLeaveDestination := by
  refine ⟨fun rest dest bytes cc ah al tt clamp s hheader hcap hlen hbytes hsum => ?_,
    fun line dest clamp s t e h he => ?_⟩
  · exact ⟨_, decodeLineStep_error (decodeHex_mismatch hheader hcap hlen hbytes hsum), rfl, rfl⟩
  · obtain ⟨e', rfl, rfl⟩ := decodeLineStep_raises h he
    exact ⟨⟨e', rfl⟩, rfl, rfl⟩

/-- Settles O10: the checks passed, the payload replaces the destination's first bytes. -/
theorem hexDataStoresPayload : Obligations.HexDataStoresPayload := by
  intro a d k s hfits hsum hclamp
  obtain ⟨hlength, hpayload, hrest⟩ := storePayload_spec hfits
  exact ⟨_, exec_hexData_stores hfits hsum hclamp, hlength, hpayload, hrest, rfl, rfl⟩

/-- Settles O11: behind the checks, the record is the result and nothing else moves. -/
theorem hexEofTerminates : Obligations.HexEofTerminates := by
  intro a d k s hfits hsum
  rw [exec, execHexEof, checkRecord_passes _ hfits hsum]
  rfl

/-- Settles O12: the clamp compares the record's end with the maximum size, and only a record past it fails. -/
theorem clampRejectsOverrun : Obligations.ClampRejectsOverrun := by
  intro a d k offset maxSize s hs hfits hsum
  have hclamp : clampExceeded s.clamp a d.length = decide (maxSize < a.toNat + offset + d.length) := by
    rw [hs, clampExceeded]
  refine ⟨fun hover => ?_, fun hin => ?_⟩
  · exact exec_hexData_overrun hfits hsum (hclamp.trans (decide_eq_true hover))
  · exact exec_hexData_stores hfits hsum (hclamp.trans (decide_eq_false (Nat.not_lt.mpr hin)))

/-- Settles O36: the head task is the call, and the call is its line's record or that line's error. -/
theorem stepRunsDecodedLine : Obligations.StepRunsDecodedLine := by
  intro s line dest clamp ts henv htasks
  have hstep : step s = decodeLineStep line dest clamp { s with tasks := ts } := step_eq_runTask henv htasks
  exact ⟨fun i hi => hstep.trans (decodeLineStep_ok hi), fun e he => hstep.trans (decodeLineStep_error he)⟩

end Sys2Proof.Machine

/-! SUPPORT and proofs of the family "flash commands" (spec/41_flash_commands.md): what every wire command that completes
keeps, the meaning of each command on an accepting target, what the gates refuse, the ready step and fair runs, and the
step that carries one command over the bit-banged frames. -/

namespace Sys2Proof.Machine

/-! ## What every completed wire command keeps -/

/-- The command kept everything outside the target, `T.FPCR` and `T.PROGMODE`, and answered one byte for each of its own. -/
structure Answered (i : Instr) (s t : State) : Prop where
  frame : commandFrame s t
  length : t.resp.length = i.encodedLength

theorem Answered.reply {i : Instr} (s : State) {r : List Byte} (n : Nat) (h : r.length = i.encodedLength) :
    Answered i s (s.reply r n) := ⟨s.reply_commandFrame r n, h⟩

theorem Answered.setFsr {i : Instr} {s u : State} (h : Answered i s u) (f : Byte) : Answered i s (u.setFsr f) :=
  ⟨h.frame, h.length⟩

theorem Answered.mutated {i : Instr} {s u : State} (h : Answered i s u) : Answered i s u.mutated :=
  ⟨h.frame, h.length⟩

theorem Answered.massErased {i : Instr} {s u : State} (h : Answered i s u) : Answered i s u.massErased :=
  ⟨h.frame, h.length⟩

theorem Answered.setRegion {i : Instr} {s u : State} (h : Answered i s u) (m : Memory) : Answered i s (u.setRegion m) := by
  unfold State.setRegion
  split
  · exact ⟨h.frame, h.length⟩
  · exact ⟨h.frame, h.length⟩

theorem State.readData_length (s : State) (addr k : Nat) : (s.readData addr k).length = k := by
  unfold State.readData
  split
  · simp
  · exact Memory.readRange_length _ _ _

/-- Every wire command that completes keeps the frame of R140 and answers one byte for each of its own (R82). -/
theorem exec_answered {i : Instr} {s t : State} (hi : i.isWire = true) (h : exec i s = .next t) : Answered i s t := by
  have hfree : ∀ {k : Nat} (n : Nat), k = i.encodedLength → Answered i s (s.reply (s.freeBytes k) n) :=
    fun n hk => .reply s n ((s.freeBytes_length _).trans hk)
  cases i with
  | wrsr v =>
    obtain ⟨-, -, rfl⟩ := execWrsr_next _ _ _ h
    exact (hfree 3 rfl).setFsr _
  | program addr data =>
    obtain ⟨-, -, ⟨rfl, -⟩ | ⟨-, -, -, -, rfl⟩⟩ := execProgram_next _ _ _ _ h
    · exact hfree _ rfl
    · exact ((hfree _ rfl).setRegion _).mutated
  | read addr fill =>
    obtain ⟨-, -, -, rfl⟩ := execRead_next _ _ _ _ h
    exact .reply s _ (by simp [State.freeBytes_length, State.readData_length, Instr.encodedLength])
  | wrdis =>
    obtain ⟨-, -, rfl⟩ := execWrdis_next _ _ h
    exact (hfree 1 rfl).setFsr _
  | rdsr fill =>
    obtain ⟨-, rfl⟩ := execRdsr_next fill _ _ h
    exact .reply s 3 rfl
  | wren =>
    obtain ⟨-, -, rfl⟩ := execWren_next _ _ h
    exact (hfree 1 rfl).setFsr _
  | erasePage page =>
    obtain ⟨-, -, ⟨-, rfl⟩ | ⟨-, -, rfl⟩⟩ := execErasePage_next _ _ _ h
    · exact hfree 2 rfl
    · exact ((hfree 2 rfl).setRegion _).mutated
  | eraseAll =>
    obtain ⟨-, -, ⟨-, rfl⟩ | ⟨-, rfl⟩⟩ := execEraseAll_next _ _ h
    · exact hfree 2 rfl
    · exact ((hfree 2 rfl).massErased.setFsr _).mutated
  | cmdRdismb =>
    obtain ⟨-, -, ⟨-, rfl⟩ | ⟨-, rfl⟩⟩ := execCmdRdismb_next _ _ h
    · exact hfree 1 rfl
    · exact ((hfree 1 rfl).setFsr _).mutated
  | cmdEndebug => cases h
  | rdfpcr fill =>
    obtain ⟨-, -, rfl⟩ := execRdfpcr_next fill _ _ h
    exact .reply s 1 rfl
  | hexData _ _ _ => cases hi
  | hexEof _ _ _ => cases hi

/-! ## The meanings on an accepting target -/

/-- An honoured `PROGRAM` of at least one byte (R149). -/
theorem execProgram_honoured {addr : Half} {data : List Byte} {s : State} (h : acceptsCommand s)
    (hwen : fsrWen s.fsr = true) (hdata : data ≠ []) (hin : addr.toNat + data.length ≤ s.regionSize)
    (hpage : addr.toNat / 512 = (addr.toNat + data.length - 1) / 512) :
    execProgram addr data s =
      .next ((s.reply (s.freeBytes (3 + data.length)) (3 + data.length)).setRegion
        (Memory.andRange s.region addr.toNat data)).mutated := by
  rw [execProgram, whenReady_of_acceptsCommand h]
  simp [hwen, hdata, State.inRegion, hin, inOnePage, Config.pageSize, hpage]

/-- An honoured `ERASE_PAGE` (R150). -/
theorem execErasePage_honoured {page : Byte} {s : State} (h : acceptsCommand s) (hwen : fsrWen s.fsr = true)
    (hpage : page.toNat < s.pageCount) :
    execErasePage page s =
      .next ((s.reply (s.freeBytes 2) 2).setRegion
        (Memory.eraseRange s.region (pageBase page.toNat) Config.pageSize)).mutated := by
  rw [execErasePage, whenReady_of_acceptsCommand h]
  simp [hwen, hpage]

/-- An honoured `ERASE_ALL` (R151). -/
theorem execEraseAll_honoured {s : State} (h : acceptsCommand s) (hwen : fsrWen s.fsr = true) :
    execEraseAll s =
      .next ((s.reply (s.freeBytes 1) 2).massErased.setFsr
        (setRdismb s.fsr (fsrRdismb s.fsr && s.freeBit 1))).mutated := by
  rw [execEraseAll, whenReady_of_acceptsCommand h]
  simp [hwen]

/-- An honoured `CMD_RDISMB` (R152). -/
theorem execCmdRdismb_honoured {s : State} (h : acceptsCommand s) (hwen : fsrWen s.fsr = true) :
    execCmdRdismb s = .next ((s.reply (s.freeBytes 1) 1).setFsr (setRdismb s.fsr true)).mutated := by
  rw [execCmdRdismb, whenReady_of_acceptsCommand h]
  simp [hwen]

/-- A `READ` inside the region (R148). -/
theorem execRead_inside {addr : Half} {fill : List Byte} {s : State} (h : acceptsCommand s)
    (hin : addr.toNat + fill.length ≤ s.regionSize) :
    execRead addr fill s =
      .next (s.reply (s.freeBytes 3 ++ s.readData addr.toNat fill.length) (3 + fill.length)) := by
  rw [execRead, whenReady_of_acceptsCommand h]
  simp [State.inRegion, hin]

/-! ## The latch and status commands -/

/-- `WREN` and `WRDIS`: a command that answers one byte and writes `b` to the latch alone. -/
theorem latchCommand_completes {i : Instr} {s : State} {b : Bool} (hi : i.isWire = true)
    (h : exec i s = .next ((s.reply (s.freeBytes 1) 1).setFsr (setWen s.fsr b))) :
    ∃ t, exec i s = .next t ∧ fsrWen t.fsr = b ∧ statusKeptBut [5] s t ∧ t.resp.length = i.encodedLength ∧
      commandFrame s t ∧ sameFlash s t := by
  obtain ⟨hframe, hlength⟩ := exec_answered hi h
  refine ⟨_, h, setWen_bit _ _ 5 (by decide), fun j hj hne => ?_, hlength, hframe, FlashKept.sameFlash ⟨rfl, rfl⟩⟩
  have hj5 : j ≠ 5 := by simpa using hne
  exact (setWen_bit _ _ j hj).trans (if_neg hj5)

/-- Settles O13: behind the gates, `WREN` writes 1 to the latch. -/
theorem wrenSetsLatch : Obligations.WrenSetsLatch :=
  fun _ hs => latchCommand_completes rfl (whenReady_of_acceptsCommand hs _)

/-- Settles O14: behind the gates, `WRDIS` writes 0 to the latch. -/
theorem wrdisClearsLatch : Obligations.WrdisClearsLatch :=
  fun _ hs => latchCommand_completes rfl (whenReady_of_acceptsCommand hs _)

theorem execRdsr_inProgramMode (fill : Byte) {s : State} (h : s.progmode = true) :
    execRdsr fill s = .next (s.reply [s.freeByte 0, statusRead s.fsr (s.freeBit 1) (s.freeBit 2)] 3) := by
  simp [execRdsr, inProgramMode, h]

/-- Settles O15: the answer draws bits 1 and 0 alone, and nothing but the answer is written. -/
theorem rdsrReadsStatus : Obligations.RdsrReadsStatus := by
  intro fill s hmode
  have hexec : exec (.rdsr fill) s = _ := execRdsr_inProgramMode fill hmode
  obtain ⟨hframe, hlength⟩ := exec_answered rfl hexec
  refine ⟨_, hexec, hlength, fun j hlo hhi => ?_, rfl, hframe, FlashKept.sameFlash ⟨rfl, rfl⟩⟩
  have hdrawn := statusRead_bit s.fsr (s.freeBit 1) (s.freeBit 2) j hhi
  rwa [if_neg (by omega), if_neg (by omega)] at hdrawn

/-- Settles O16: the select byte of `WRSR` always holds bit 3 and never bit 4. -/
theorem wrsrWritesInfen : Obligations.WrsrWritesInfen := by
  intro v s hs
  have hexec : exec (.wrsr v) s = _ := whenReady_of_acceptsCommand hs _
  obtain ⟨hframe, hlength⟩ := exec_answered rfl hexec
  exact ⟨_, hexec, statusWritten_infen _ _ _, statusWritten_rdyn _ _ _, fun j _ => statusWritten_bit _ _ _ j, hlength,
    hframe, FlashKept.sameFlash ⟨rfl, rfl⟩⟩

/-- Settles O22: the answer's second byte is the register, and nothing but the answer is written. -/
theorem rdfpcrReadsFpcr : Obligations.RdfpcrReadsFpcr := by
  intro fill s hs
  have hexec : exec (.rdfpcr fill) s = _ := whenReady_of_acceptsCommand hs _
  obtain ⟨hframe, hlength⟩ := exec_answered rfl hexec
  exact ⟨_, hexec, hlength, rfl, rfl, hframe, FlashKept.sameFlash ⟨rfl, rfl⟩⟩

/-! ## `READ` -/

/-- The info page and unlocked main flash give their own bytes (R148). -/
theorem State.readData_unlocked {s : State} (h : fsrInfen s.fsr = true ∨ fsrRdismb s.fsr = false) (addr k : Nat) :
    s.readData addr k = Memory.readRange s.region addr k := by
  have hopen : s.readLocked = false := by
    obtain h | h := h
    · simp [State.readLocked, h]
    · simp [State.readLocked, h]
  simp [State.readData, hopen]

/-- Settles O17: behind the three header bytes the answer is the range of the region, unless the lock hides it. -/
theorem readAnswersRegion : Obligations.ReadAnswersRegion := by
  intro addr fill s hs hin
  have hexec : exec (.read addr fill) s = _ := execRead_inside hs hin
  obtain ⟨hframe, hlength⟩ := exec_answered rfl hexec
  refine ⟨_, hexec, hlength, fun hopen i hi => ?_, rfl, hframe, FlashKept.sameFlash ⟨rfl, rfl⟩⟩
  rw [State.reply_resp, State.readData_unlocked hopen,
    List.getD_append_right _ _ _ _ (by rw [State.freeBytes_length]; omega), State.freeBytes_length,
    Nat.add_sub_cancel_left]
  exact Memory.readRange_getD _ _ _ _ _ hi

/-! ## The mutating commands -/

/-- An honoured mutating command moves only `RDYN` and `WEN` (R159). -/
theorem statusMutated_other (f : Byte) (busy keep : Bool) {j : Nat} (hj : j < 8) (h : j ∉ [4, 5]) :
    (statusMutated f busy keep).getLsbD j = f.getLsbD j := by
  obtain ⟨h4, h5⟩ : j ≠ 4 ∧ j ≠ 5 := by simpa using h
  rw [statusMutated_bit _ _ _ _ hj, if_neg h5, if_neg h4]

theorem State.mutated_region (s : State) : s.mutated.region = s.region :=
  State.region_congr rfl rfl (statusMutated_other _ _ _ (j := 3) (by decide) (by decide))

theorem State.setRegion_sameOtherRegion (s : State) (m : Memory) : sameOtherRegion s (s.setRegion m) :=
  ⟨fun hinfen _ => by rw [State.setRegion_main, if_pos hinfen], fun hinfen _ => by simp [hinfen]⟩

/-- The state after an honoured `PROGRAM` or `ERASE_PAGE` that makes `m` of the selected region: that region is `m`, the
other one and the FSR but for `RDYN` and `WEN` are as before. -/
theorem State.regionWritten (s : State) (r : List Byte) (n : Nat) (m : Memory) :
    ((s.reply r n).setRegion m).mutated.region = m ∧ sameOtherRegion s ((s.reply r n).setRegion m).mutated ∧
      statusKeptBut [4, 5] s ((s.reply r n).setRegion m).mutated := by
  refine ⟨(State.mutated_region _).trans (State.setRegion_region _ _), (s.reply r n).setRegion_sameOtherRegion m,
    fun j hj hne => ?_⟩
  rw [State.mutated_fsr, State.setRegion_fsr, State.reply_fsr]
  exact statusMutated_other _ _ _ hj hne

/-- Settles O18: the region takes the AND of the addressed bytes, which lie inside it. -/
theorem programAndsBytes : Obligations.ProgramAndsBytes := by
  intro addr data s hs hwf hwen hdata hin hpage
  have hexec : exec (.program addr data) s = _ := execProgram_honoured hs hwen hdata hin hpage
  obtain ⟨hframe, hlength⟩ := exec_answered rfl hexec
  obtain ⟨hregion, hother, hkept⟩ :=
    s.regionWritten (s.freeBytes (3 + data.length)) (3 + data.length) (Memory.andRange s.region addr.toNat data)
  have hread := fun a => Memory.read_andRange s.regionSize s.region addr.toNat data a hin (State.region_wf hwf)
  refine ⟨_, hexec, fun i hi => ?_, fun a ha => ?_, hother, hkept, hlength, hframe⟩
  · rw [hregion, hread, if_pos (by omega), Nat.add_sub_cancel_left, List.getD_eq_getElem _ _ hi,
      List.getD_eq_getElem _ _ hi]
  · rw [hregion, hread, if_neg (by omega)]

/-- Settles O19: the region takes the erased page. -/
theorem erasePageSetsBytes : Obligations.ErasePageSetsBytes := by
  intro page s hs hwen hpage
  have hexec : exec (.erasePage page) s = _ := execErasePage_honoured hs hwen hpage
  obtain ⟨hframe, hlength⟩ := exec_answered rfl hexec
  obtain ⟨hregion, hother, hkept⟩ :=
    s.regionWritten (s.freeBytes 2) 2 (Memory.eraseRange s.region (pageBase page.toNat) Config.pageSize)
  have hread : ∀ a, Memory.read (Memory.eraseRange s.region (pageBase page.toNat) Config.pageSize) a =
      if 512 * page.toNat ≤ a ∧ a < 512 * page.toNat + 512 then 0xFF#8 else Memory.read s.region a :=
    Memory.read_eraseRange _ _ _
  refine ⟨_, hexec, fun a hlo hhi => ?_, fun a ha => ?_, hother, hkept, hlength, hframe⟩
  · rw [hregion, hread, if_pos ⟨hlo, hhi⟩]
  · rw [hregion, hread, if_neg (by omega)]

/-- An honoured command that also writes `RDISMB` moves only that bit, `RDYN` and `WEN` (R151, R152). -/
theorem rdismbWritten_other (f : Byte) (b busy keep : Bool) {j : Nat} (hj : j < 8) (h : j ∉ [2, 4, 5]) :
    (statusMutated (setRdismb f b) busy keep).getLsbD j = f.getLsbD j := by
  obtain ⟨h2, h45⟩ : j ≠ 2 ∧ j ∉ [4, 5] := by simpa using h
  rw [statusMutated_other _ _ _ hj h45, setRdismb_bit _ _ _ hj, if_neg h2]

theorem rdismbWritten_rdismb (f : Byte) (b busy keep : Bool) :
    fsrRdismb (statusMutated (setRdismb f b) busy keep) = b :=
  (statusMutated_other _ _ _ (j := 2) (by decide) (by decide)).trans (setRdismb_bit f b 2 (by decide))

/-- Settles O20: main flash is one erased range; the info page is another where `INFEN` and the parameter say so. -/
theorem eraseAllSetsMain : Obligations.EraseAllSetsMain := by
  intro s hs hwen
  have hexec : exec .eraseAll s = _ := execEraseAll_honoured hs hwen
  obtain ⟨hframe, hlength⟩ := exec_answered rfl hexec
  have herased : ∀ (m : Memory) (size a : Nat), a < size → Memory.read (Memory.eraseRange m 0 size) a = 0xFF#8 :=
    fun m size a ha => (Memory.read_eraseRange m 0 size a).trans (if_pos ⟨Nat.zero_le a, by omega⟩)
  refine ⟨_, hexec, herased s.main 16384, fun hinfo a ha => ?_, fun hinfo a => ?_, fun hlocked => ?_,
    fun j hj hne => rdismbWritten_other _ _ _ _ hj hne, hlength, hframe⟩
  · exact (congrArg (Memory.read · a) (if_pos hinfo)).trans (herased s.info 512 a ha)
  · exact congrArg (Memory.read · a) (if_neg (Bool.eq_false_iff.mp hinfo))
  · have hkept := (rdismbWritten_rdismb _ _ _ _).symm.trans hlocked
    exact (Bool.and_eq_true_iff.mp hkept).1

/-- Settles O21: `RDISMB` is written 1 before `RDYN` and `WEN` are drawn. -/
theorem lockCommandSetsRdismb : Obligations.LockCommandSetsRdismb := by
  intro s hs hwen
  have hexec : exec .cmdRdismb s = _ := execCmdRdismb_honoured hs hwen
  obtain ⟨hframe, hlength⟩ := exec_answered rfl hexec
  exact ⟨_, hexec, rdismbWritten_rdismb _ _ _ _, fun j hj hne => rdismbWritten_other _ _ _ _ hj hne, hlength, hframe,
    FlashKept.sameFlash ⟨rfl, rfl⟩⟩

/-! ## What the gates refuse -/

/-- Settles O23: the meaning is the refusal itself. -/
theorem endebugIsRefused : Obligations.EndebugIsRefused := fun _ => rfl

/-- Every wire command but `CMD_ENDEBUG` and `RDSR` stands behind both gates (R141, R142). -/
theorem exec_gated {i : Instr} (hi : i.isWire = true) (s : State) :
    i = .cmdEndebug ∨ (∃ x, i = .rdsr x) ∨ ∃ k, exec i s = whenReady s k := by
  cases i with
  | cmdEndebug => exact .inl rfl
  | rdsr x => exact .inr (.inl ⟨x, rfl⟩)
  | hexData _ _ _ => cases hi
  | hexEof _ _ _ => cases hi
  | _ => exact .inr (.inr ⟨_, rfl⟩)

theorem inProgramMode_outside {s : State} (h : s.progmode = false) (k : Host.Outcome State Fault Refusal) :
    inProgramMode s k = .refused .notInProgramMode := by
  simp [inProgramMode, h]

theorem whenReady_busy {s : State} (hmode : s.progmode = true) (hbusy : fsrRdyn s.fsr = true)
    (k : Host.Outcome State Fault Refusal) : whenReady s k = .refused .targetBusy := by
  simp [whenReady, inProgramMode, hmode, hbusy]

/-- Settles O25: `RDSR` has the mode's gate alone, the others have it as the first of two. -/
theorem outsideProgramModeIsRefused : Obligations.OutsideProgramModeIsRefused := by
  intro i s hi hmode
  obtain rfl | ⟨x, rfl⟩ | ⟨k, hk⟩ := exec_gated hi s
  · exact ⟨_, endebugIsRefused s, fun h => absurd rfl h⟩
  · exact ⟨_, inProgramMode_outside hmode _, fun _ => rfl⟩
  · exact ⟨_, hk.trans (inProgramMode_outside hmode _), fun _ => rfl⟩

/-- Settles O26: the second gate stops every command but `RDSR`, which does not have it. -/
theorem busyTargetAnswersOnlyRdsr : Obligations.BusyTargetAnswersOnlyRdsr := by
  refine fun i s hi hmode hbusy => ⟨?_, fun hrdsr => ?_⟩
  · rintro ⟨x, rfl⟩
    exact ⟨_, execRdsr_inProgramMode x hmode⟩
  · obtain rfl | ⟨x, rfl⟩ | ⟨k, hk⟩ := exec_gated hi s
    · exact ⟨_, endebugIsRefused s, fun h => absurd rfl h⟩
    · exact absurd rfl (hrdsr x)
    · exact ⟨_, hk.trans (whenReady_busy hmode hbusy k), fun _ => rfl⟩

/-! ## The ready step (R155) -/

theorem step_ready {s : State} {es : List EnvChoice} (h : s.env = .ready :: es) : step s = .next s.spendEnv.readyStep := by
  rw [step, systemStep, h]

/-- The ready step writes the FSR and counts its draw, and nothing else. -/
theorem State.readyStep_eq (s : State) : s.readyStep = { s with fsr := s.readyStep.fsr, draws := s.readyStep.draws } := by
  unfold State.readyStep
  split
  · rfl
  · rfl

theorem State.readyStep_of_busy {s : State} (h : fsrRdyn s.fsr = true) :
    s.readyStep.fsr = statusReady s.fsr (s.freeBit 0) :=
  s.readyStep_fsr.trans (if_pos h)

theorem State.readyStep_of_ready {s : State} (h : fsrRdyn s.fsr = false) : s.readyStep.fsr = s.fsr :=
  s.readyStep_fsr.trans (if_neg (Bool.eq_false_iff.mp h))

/-- After the ready step the target is ready, whatever it was. -/
theorem State.readyStep_rdyn (s : State) : fsrRdyn s.readyStep.fsr = false := by
  cases h : fsrRdyn s.fsr with
  | true => exact (congrArg fsrRdyn (State.readyStep_of_busy h)).trans (statusReady_bit _ _ 4 (by decide))
  | false => exact (congrArg fsrRdyn (State.readyStep_of_ready h)).trans h

/-- On a busy target the ready step clears `RDYN`, may clear `WEN`, and keeps every other bit. -/
theorem State.readyStep_ends_busy {s : State} (h : fsrRdyn s.fsr = true) :
    (fsrWen s.readyStep.fsr = true → fsrWen s.fsr = true) ∧ statusKeptBut [4, 5] s s.readyStep := by
  have hbit := fun j hj => statusReady_bit s.fsr (s.freeBit 0) j hj
  rw [statusKeptBut, State.readyStep_of_busy h]
  refine ⟨fun hwen => ?_, fun j hj hne => ?_⟩
  · exact (Bool.and_eq_true_iff.mp ((hbit 5 (by decide)).symm.trans hwen)).1
  · obtain ⟨h4, h5⟩ : j ≠ 4 ∧ j ≠ 5 := by simpa using hne
    rw [hbit j hj, if_neg h5, if_neg h4]

/-- In a run, a ready step chosen at `k` has the target ready at `k + 1`. -/
theorem InfiniteRun.ready_next {states : Nat → State} {choices : Nat → EnvChoice} (h : InfiniteRun states choices) {k : Nat}
    (hk : choices k = .ready) : fsrRdyn (states (k + 1)).fsr = false := by
  have hstep := (h k).2
  rw [hk, envStep, step_ready rfl] at hstep
  exact Host.Outcome.next.inj hstep ▸ State.readyStep_rdyn _

/-- Settles O30: the step is the ready step; and a target busy for ever would, by fairness, have taken it. -/
theorem readyStepEndsBusy : Obligations.ReadyStepEndsBusy := by
  refine ⟨fun s es henv => ?_, fun states choices hrun n => ?_⟩
  · have hes : s.spendEnv = { s with env := es } := by rw [State.spendEnv, henv, List.tail_cons]
    refine ⟨_, step_ready henv, ?_, fun hbusy => ?_, fun hready => ?_⟩
    · rw [hes]
      exact State.readyStep_eq _
    · exact ⟨State.readyStep_rdyn _, State.readyStep_ends_busy (s := s.spendEnv) hbusy⟩
    · exact State.readyStep_of_ready (s := s.spendEnv) hready
  · by_contra hnever
    have hbusy : ∀ k, n ≤ k → fsrRdyn (states k).fsr = true :=
      fun k hk => Bool.eq_true_of_not_eq_false fun hready => hnever ⟨k, hk, hready⟩
    obtain ⟨hinfinite, hfair⟩ := hrun
    obtain ⟨k, hk, hchosen⟩ := hfair n hbusy
    exact absurd ((hbusy (k + 1) (by omega)).symm.trans (hinfinite.ready_next hchosen)) (by decide)

end Sys2Proof.Machine

/-! SUPPORT and proof for the step over the bit-banged frames: what the block reads back out of the samples (R239, R241,
R244), and the transfer as the meaning of its command with the frames around it. -/

namespace Sys2Proof.Machine

/-! ## The samples of the bits' frames -/

/-- The samples of a sequence of bits, with the chip selected and the clock low: one response bit for each bit sent, in the
sample behind frame `B` of its cell (R241, R248). -/
theorem driveFrames_bitFrames_samples {p : Params} (hp : p.wf = true) (r : List Bool) (l : Lines) (bits : List Bool)
    (hsck : pinLevel l.levels p.pinSck = false) (hcsn : pinLevel l.levels p.pinCsn = false) :
    ∃ samples, (driveFrames p r l (bitFrames p l.levels bits)).fifo = l.fifo ++ samples ∧
      (driveFrames p r l (bitFrames p l.levels bits)).pos = l.pos + bits.length ∧
      ∀ t, t < bits.length →
        pinLevel (samples.getD (t * p.framesPerBit + 1 + (if p.sampleLag then 1 else 0)) 0#8) p.pinMiso =
          r.getD (l.pos + t) false := by
  induction bits generalizing l with
  | nil => exact ⟨[], (List.append_nil _).symm, rfl, fun t ht => absurd ht (Nat.not_lt_zero t)⟩
  | cons v vs ih =>
    obtain ⟨-, -, hSckCsn, -, hMosiCsn, -⟩ := params_distinct p hp
    obtain ⟨first, hcell, hlength, hfirst⟩ := drive_bitCell p hp r l v hsck hcsn
    have hcsn' : pinLevel (cellLow p l.levels v) p.pinCsn = false :=
      (cellLow_other p _ v _ hSckCsn.symm hMosiCsn.symm).trans hcsn
    obtain ⟨rest, hfifo, hpos, hrest⟩ := ih
      { levels := cellLow p l.levels v, fifo := l.fifo ++ first, bits := l.bits ++ [v], pos := l.pos + 1 }
      (cellLow_sck p _ v) hcsn'
    rw [bitFrames, driveFrames_append, hcell]
    refine ⟨first ++ rest, hfifo.trans (List.append_assoc _ _ _), hpos.trans ?_, fun t ht => ?_⟩
    · simp only [List.length_cons]
      omega
    · have hfpb := framesPerBit_pos p
      cases t with
      | zero =>
        have hinside : 0 * p.framesPerBit + 1 + (if p.sampleLag then 1 else 0) < first.length := by
          rw [hlength]
          split <;> omega
        rw [List.getD_append _ _ _ _ hinside, Nat.zero_mul, Nat.zero_add]
        exact hfirst
      | succ t =>
        have hindex : (t + 1) * p.framesPerBit + 1 + (if p.sampleLag then 1 else 0) =
            first.length + (t * p.framesPerBit + 1 + (if p.sampleLag then 1 else 0)) := by
          rw [hlength, Nat.add_mul]
          omega
        rw [hindex, List.getD_append_right _ _ _ _ (Nat.le_add_right _ _), Nat.add_sub_cancel_left,
          hrest t (by simpa using ht)]
        exact congrArg (r.getD · false) (by simp only; omega)

/-- Bit `t` of byte `k` of a buffer, in wire order (R54). -/
theorem bufferBits_getD {m : List Byte} {k t : Nat} (hk : k < m.length) (ht : t < 8) :
    (bufferBits m).getD (8 * k + t) false = (bitsMsb (m.getD k 0#8)).getD t false := by
  induction m generalizing k with
  | nil => exact absurd hk (Nat.not_lt_zero k)
  | cons b m ih =>
    rw [bufferBits_cons]
    cases k with
    | zero =>
      rw [Nat.mul_zero, Nat.zero_add, List.getD_cons_zero]
      exact List.getD_append _ _ _ _ (by rwa [bitsMsb_length])
    | succ k =>
      rw [List.getD_append_right _ _ _ _ (by rw [bitsMsb_length]; omega), bitsMsb_length,
        show 8 * (k + 1) + t - 8 = 8 * k + t by omega, List.getD_cons_succ]
      exact ih (by simpa using hk)

theorem bitsMsb_eq_map (b : Byte) : (List.range 8).map (fun t => (bitsMsb b).getD t false) = bitsMsb b := rfl

/-! ## The bytes the block recovers -/

/-- Samples that hold the eight response bits of byte `k` where the block looks for its byte `j` give that byte. -/
theorem sampledByte_response {p : Params} {samples r : List Byte} {j k : Nat} (hk : k < r.length)
    (hsamples : ∀ t, t < 8 →
      pinLevel (samples.getD (sampleIndex p j t) 0#8) p.pinMiso = (bufferBits r).getD (8 * k + t) false) :
    sampledByte p samples j = r.getD k 0#8 := by
  have hbits : ∀ t ∈ List.range 8, pinLevel (samples.getD (sampleIndex p j t) 0#8) p.pinMiso =
      (bitsMsb (r.getD k 0#8)).getD t false :=
    fun t ht => (hsamples t (List.mem_range.mp ht)).trans (bufferBits_getD hk (List.mem_range.mp ht))
  rw [sampledByte, List.map_congr_left hbits, bitsMsb_eq_map, byteOfBits_bitsMsb]

/-- The phase of one chunk, the response at byte `k`: the block recovers the response's next bytes, as many as it sends, and
the target stands behind them. -/
theorem runPhase_chunk {p : Params} (hp : p.wf = true) {r : List Byte} {k : Nat} {l : Lines} (got c : List Byte)
    (hfifo : l.fifo = []) (hpos : l.pos = 8 * k) (hroom : k + c.length ≤ r.length)
    (hsck : pinLevel l.levels p.pinSck = false) (hcsn : pinLevel l.levels p.pinCsn = false) :
    (runPhase p (bufferBits r) (l, got) { frames := bitFrames p l.levels (bufferBits c), count := c.length }).2 =
        got ++ (r.drop k).take c.length ∧
      (runPhase p (bufferBits r) (l, got) { frames := bitFrames p l.levels (bufferBits c), count := c.length }).1.pos =
        8 * (k + c.length) := by
  obtain ⟨samples, hall, hend, hbit⟩ := driveFrames_bitFrames_samples hp (bufferBits r) l (bufferBits c) hsck hcsn
  have hlength : samples.length = (bitFrames p l.levels (bufferBits c)).length := by
    simpa [hfifo, hall] using driveFrames_fifo_length p (bufferBits r) l (bitFrames p l.levels (bufferBits c))
  have hbyte : ∀ j, j < c.length → sampledByte p samples j = r.getD (k + j) 0#8 := by
    intro j hj
    refine sampledByte_response (by omega) fun t ht => ?_
    rw [sampleIndex, hbit _ (by rw [bufferBits_length]; omega), hpos]
    exact congrArg ((bufferBits r).getD · false) (by omega)
  refine ⟨congrArg (got ++ ·) ?_, hend.trans (by rw [bufferBits_length]; omega)⟩
  have hread : (driveFrames p (bufferBits r) l (bitFrames p l.levels (bufferBits c))).fifo.take
      (bitFrames p l.levels (bufferBits c)).length = samples := by
    rw [hall, hfifo, List.nil_append, ← hlength, List.take_length]
  simp only [hread]
  refine List.ext_getElem (by simp; omega) fun j hj _ => ?_
  have hjc : j < c.length := by simpa using hj
  rw [List.getElem_map, List.getElem_range, hbyte j hjc, List.getElem_take, List.getElem_drop, List.getD_eq_getElem]

/-- The chunks' phases recover the response from byte `k` on, one chunk behind the other. -/
theorem foldl_chunkPhases_recovered {p : Params} (hp : p.wf = true) {r : List Byte} {k : Nat} {pins : Byte}
    (a : Lines × List Byte) (cs : List (List Byte)) (hpins : a.1.levels = pins) (hfifo : a.1.fifo = [])
    (hpos : a.1.pos = 8 * k) (hroom : k + cs.flatten.length ≤ r.length) (hsck : pinLevel pins p.pinSck = false)
    (hcsn : pinLevel pins p.pinCsn = false) :
    ((chunkPhases p pins cs).foldl (runPhase p (bufferBits r)) a).2 = a.2 ++ (r.drop k).take cs.flatten.length ∧
      ((chunkPhases p pins cs).foldl (runPhase p (bufferBits r)) a).1.pos = 8 * (k + cs.flatten.length) := by
  induction cs generalizing pins a k with
  | nil => exact ⟨(List.append_nil _).symm, hpos⟩
  | cons c cs ih =>
    subst hpins
    obtain ⟨l, got⟩ := a
    obtain ⟨-, -, hSckCsn, -, hMosiCsn, -⟩ := params_distinct p hp
    simp only [List.flatten_cons, List.length_append] at hroom ⊢
    obtain ⟨hgot, hend⟩ := runPhase_chunk (r := r) hp got c hfifo hpos (by omega) hsck hcsn
    obtain ⟨hlevels, -⟩ := driveFrames_bitFrames hp (bufferBits r) l (bufferBits c) hsck hcsn
    have hcsn' : pinLevel (pinsAfterBits p l.levels (bufferBits c)) p.pinCsn = false :=
      (pinsAfterBits_other _ _ _ _ hSckCsn.symm hMosiCsn.symm).trans hcsn
    obtain ⟨hrest, hpos'⟩ := ih _ hlevels (runPhase_fifo _ hfifo) hend (by omega) (pinsAfterBits_sck _ _ _ hsck) hcsn'
    rw [chunkPhases, List.foldl_cons, hrest, hpos', hgot]
    refine ⟨?_, by omega⟩
    rw [List.append_assoc, ← List.drop_drop, ← List.take_add]

/-- The leading frame, on idle pins: the response starts at its first bit, and the control frame recovers no byte. -/
theorem runPhase_select_pos {p : Params} (r : List Bool) (l : Lines) (hcsn : pinLevel l.levels p.pinCsn = true) :
    (runPhase p r (l, []) { frames := [selectedPins p l.levels], count := 0 }).1.pos = 0 ∧
      (runPhase p r (l, []) { frames := [selectedPins p l.levels], count := 0 }).2 = [] := by
  simp [runPhase, driveFrame, targetReact, selectedPins_csn, hcsn]

/-- A control frame with chip-select high moves no response bit and recovers no byte. -/
theorem runPhase_released_pos {p : Params} (r : List Bool) (a : Lines × List Byte) {f : Byte}
    (h : pinLevel f p.pinCsn = true) :
    (runPhase p r a { frames := [f], count := 0 }).1.pos = a.1.pos ∧
      (runPhase p r a { frames := [f], count := 0 }).2 = a.2 := by
  simp [runPhase, driveFrame, targetReact, h]

/-- From idle pins, with a response as long as the buffer sent, the block reads the whole response back. -/
theorem runPhases_transfer_recovered {p : Params} (hp : p.wf = true) {l : Lines} {m r : List Byte}
    (hidle : betweenTransfers p l.levels) (hfifo : l.fifo = []) (hlength : r.length = m.length) :
    (runPhases p (bufferBits r) l (transferPhases p l.levels m)).2 = r ∧
      (runPhases p (bufferBits r) l (transferPhases p l.levels m)).1.pos = 8 * m.length := by
  obtain ⟨-, -, hSckCsn, -⟩ := params_distinct p hp
  obtain ⟨hsck, hcsn, -⟩ := hidle
  have hsck' : pinLevel (selectedPins p l.levels) p.pinSck = false :=
    (pinLevel_setPin_other _ _ _ _ hSckCsn).trans hsck
  have hchunks : (chunksOf p.chunkBytes m.length m).flatten.length = r.length :=
    (congrArg List.length (chunksOf_flatten (params_chunk_pos p hp) m.length m le_rfl)).trans hlength.symm
  obtain ⟨hselected, -⟩ := runPhase_select (bufferBits r) l [] 0 hcsn
  obtain ⟨hstart, hnone⟩ := runPhase_select_pos (bufferBits r) l hcsn
  obtain ⟨hgot, hend⟩ := foldl_chunkPhases_recovered (r := r) (k := 0) hp _ (chunksOf p.chunkBytes m.length m) hselected
    (runPhase_fifo _ hfifo) hstart (by omega) hsck' (selectedPins_csn _ _)
  obtain ⟨hpos, hsame⟩ := runPhase_released_pos (bufferBits r) _ (pinsAfterTransfer_csn p l.levels m)
  rw [runPhases, transferPhases, List.foldl_cons, List.foldl_append, List.foldl_cons, List.foldl_nil, hsame, hpos, hgot,
    hend, hnone, hchunks, List.drop_zero, List.take_length, List.nil_append, Nat.zero_add, hlength]
  exact ⟨rfl, rfl⟩

/-- A transfer from idle pins with an empty FIFO: the lines after it, and the whole response in the block's buffer (R244). -/
theorem runPhases_transfer {p : Params} (hp : p.wf = true) {l : Lines} {m r : List Byte} (hidle : betweenTransfers p l.levels)
    (hfifo : l.fifo = []) (hlength : r.length = m.length) :
    runPhases p (bufferBits r) l (transferPhases p l.levels m) =
      ({ levels := pinsAfterTransfer p l.levels m, fifo := [], bits := bufferBits m, pos := 8 * m.length }, r) := by
  obtain ⟨hgot, hpos⟩ := runPhases_transfer_recovered hp hidle hfifo hlength
  rw [← runPhases_transfer_levels p (bufferBits r) l, ← runPhases_fifo p (bufferBits r) l _ hfifo,
    ← runPhases_transfer_bits hp (bufferBits r) m hidle, ← hpos]
  exact Prod.ext rfl hgot

/-! ## The step on a transfer -/

theorem encode_length (i : Instr) : (encode i).length = i.encodedLength := by
  cases i with
  | wrsr v => exact Laws.EncodedLength.wrsr v
  | program addr data => exact Laws.EncodedLength.program addr data
  | read addr fill => exact Laws.EncodedLength.read addr fill
  | hexData address payload checksum => exact Laws.EncodedLength.hexData address payload checksum
  | hexEof address payload checksum => exact Laws.EncodedLength.hexEof address payload checksum
  | _ => rfl

/-- Bytes that are a command are received as that command (R140, R158). -/
theorem receive_command {m : List Byte} {i : Instr} (h : decodeWire m = .ok i) (s : State) :
    receive m s = exec i (s.arrive (m.getD 0 0#8)) := by
  cases m with
  | nil => cases h
  | cons op rest => simp only [receive, h, List.getD_cons_zero]

/-- A transfer with nothing in its way: the target receives the buffer's own bytes, and the frames are driven around that. -/
theorem bitbangTransfer_ready {s : State} (m : List Byte) (h : transferReady s) :
    bitbangTransfer m s = andThen (receive m s) fun t =>
      .next (t.transferred (transferFrames s.params s.pins m)
        (runPhases s.params (bufferBits t.resp) s.lines (transferPhases s.params s.pins m))) := by
  obtain ⟨-, -, hp, hidle, hfifo, henv⟩ := h
  obtain ⟨hwf, -⟩ := params_admitted hp
  have hnone : failingPhase s.env (transferPhases s.params s.pins m).length = none := by
    rw [henv]
    rfl
  simp [bitbangTransfer, hwf, phasesFit_transfer m hp hfifo, hnone, deliveredBytes_transfer m hwf hidle, transferFrames]

/-- The state after a transfer whose command was executed: the frames' marks around the command's own result. -/
theorem transferred_eq {s t : State} {m : List Byte} (h : transferReady s) (hlength : t.resp.length = m.length)
    (henv : t.env = s.env) :
    t.transferred (transferFrames s.params s.pins m)
        (runPhases s.params (bufferBits t.resp) s.lines (transferPhases s.params s.pins m)) =
      { t with
        pins := pinsAfterTransfer s.params s.pins m, buffer := t.resp, fifo := [], shiftIn := bufferBits m,
        shiftPos := 8 * m.length, frames := transferFrames s.params s.pins m } := by
  obtain ⟨-, -, hp, hidle, hfifo, hgo⟩ := h
  have htail : t.env.tail = t.env := by rw [henv, hgo, List.tail_nil]
  have hrun := runPhases_transfer (l := s.lines) (params_admitted hp).1 hidle hfifo hlength
  simp only [State.lines] at hrun ⊢
  rw [hrun]
  simp only [State.transferred, State.setLines, State.spendEnv, htail]

theorem commandFrame.env {s t : State} (h : commandFrame s t) : t.env = s.env := by
  simp only [commandFrame, sameOutsideTarget] at h
  tauto

/-- Settles O35: the frames deliver the command's bytes, the target executes it, and the samples give its answer back. -/
theorem stepRunsDecodedCommand : Obligations.StepRunsDecodedCommand := by
  intro s m ts i hready hbackend htasks hdecode
  have hready' : transferReady { s with tasks := ts } := hready
  obtain ⟨hlink, hlost, -, -, -, henv⟩ := hready
  obtain ⟨hwire, -, rfl⟩ := wireBytesHaveOneMeaning m i hdecode
  have hturn : s.env.head? ≠ some .ready := by rw [henv]; exact nofun
  have hstep : step s = bitbangTransfer (encode i) { s with tasks := ts } := by
    rw [step_eq_runTask hturn htasks, runTask, transferStep]
    simp [hlink, hlost, hbackend]
  rw [hstep, bitbangTransfer_ready _ hready', receive_command hdecode]
  refine ⟨fun t hexec => ?_, fun r hexec => ?_⟩
  · obtain ⟨hframe, hresp⟩ := exec_answered hwire hexec
    have hrun := transferred_eq hready' (hresp.trans (encode_length i).symm) hframe.env
    exact (congrArg (andThen · _) hexec).trans (congrArg Host.Outcome.next hrun)
  · exact congrArg (andThen · _) hexec

end Sys2Proof.Machine

/-! SUPPORT and proofs of the family "FSR controller" (spec/42_fsr_controller.md): the transfers that the steps of an
operation add, and the runs of FSRCTL's operations over the bit-banged driver, one status read after the other. -/

namespace Sys2Proof.Machine

/-! ## The transfers a step adds (R184) -/

/-- The opcodes of the transfers that FSRCTL issues (R184). -/
def fsrctlOpcodes : List Byte := [0x01#8, 0x02#8, 0x03#8, 0x05#8, 0x06#8, 0x52#8, 0x62#8, 0x85#8]

/-- The task is no transfer, or a transfer of an opcode that FSRCTL issues (R184). -/
def Task.issued : Task → Bool
  | .xfer [] => false
  | .xfer (op :: _) => decide (op ∈ fsrctlOpcodes)
  | _ => true

theorem Task.issued_xfer {m : List Byte} (h : (Task.xfer m).issued = true) :
    ∃ op rest, m = op :: rest ∧ op ∈ fsrctlOpcodes := by
  cases m with
  | nil => cases h
  | cons op rest => exact ⟨op, rest, rfl, of_decide_eq_true h⟩

/-- From `s` to `t` the operation ended, or tasks that FSRCTL may issue were put in front of the others. -/
def AddsIssued (s t : State) : Prop :=
  t.tasks = [] ∨ ∃ ts, ts.all Task.issued = true ∧ t.tasks = ts ++ s.tasks

theorem AddsIssued.of_tasks_eq {s t : State} (h : t.tasks = s.tasks) : AddsIssued s t := .inr ⟨[], rfl, h⟩

theorem AddsIssued.refl (s : State) : AddsIssued s s := .of_tasks_eq rfl

theorem AddsIssued.of_next {s t u : State} (hu : AddsIssued s u)
    (h : (.next u : Host.Outcome State Fault Refusal) = .next t) : AddsIssued s t :=
  Host.Outcome.next.inj h ▸ hu

theorem AddsIssued.of_next_tasks_eq {s t u : State} (h : (.next u : Host.Outcome State Fault Refusal) = .next t)
    (hu : u.tasks = s.tasks) : AddsIssued s t :=
  .of_next (.of_tasks_eq hu) h

theorem State.push_addsIssued (s : State) {ts : List Task} (h : ts.all Task.issued = true) : AddsIssued s (s.push ts) :=
  .inr ⟨ts, h, rfl⟩

/-- An error ends the operation, whatever came before it in the step (R276). -/
theorem State.raise_addsIssued (s u : State) (e : OpError) : AddsIssued s (u.raise e) := .inl rfl

theorem State.finish_addsIssued (s : State) (v : Value) : AddsIssued s (s.finish v) := .of_tasks_eq rfl

theorem commandFrame.tasks {s t : State} (h : commandFrame s t) : t.tasks = s.tasks := by
  simp only [commandFrame, sameOutsideTarget] at h
  tauto

theorem receive_tasks {m : List Byte} {s t : State} (h : receive m s = .next t) : t.tasks = s.tasks := by
  obtain ⟨-, rfl⟩ | ⟨op, rest, i, -, hdecode, hexec⟩ := receive_next _ _ _ h
  · rfl
  · obtain ⟨hwire, -⟩ := wireBytesHaveOneMeaning _ i hdecode
    exact (exec_answered hwire hexec).frame.tasks

/-- A transfer adds no task: it completes, or a phase's error ends the operation. -/
theorem transferStep_addsIssued {m : List Byte} {s t : State} (h : transferStep m s = .next t) : AddsIssued s t := by
  obtain ⟨-, -, ⟨-, htransfer⟩ | ⟨-, htransfer⟩⟩ := transferStep_next _ _ _ h
  · obtain ⟨-, -, ⟨-, u, hu, rfl⟩ | ⟨j, write, u, -, -, rfl⟩⟩ := bitbangTransfer_next _ _ _ htransfer
    · have hkept := receive_tasks hu
      exact .of_tasks_eq hkept
    · exact s.raise_addsIssued _ _
  · obtain ⟨u, hu, rfl⟩ | ⟨write, u, -, rfl⟩ := emulatorTransfer_next _ _ _ htransfer
    · have hkept := receive_tasks hu
      exact .of_tasks_eq hkept
    · exact s.raise_addsIssued _ _

theorem scatteredStep_addsIssued {op : Byte} {address : Nat} {buffer : List Byte} {s t : State}
    (h : scatteredStep op address buffer s = .next t) : AddsIssued s t := by
  obtain ⟨rfl | rfl, -, rfl⟩ := scatteredStep_next _ _ _ _ _ h
  · exact s.push_addsIssued rfl
  · exact s.push_addsIssued rfl

theorem State.entered_addsIssued (s : State) (trace : List Byte) (pins : Byte) : AddsIssued s (s.entered trace pins) :=
  .inr ⟨[.settle], rfl, rfl⟩

theorem openStep_addsIssued {bus port : Nat} {s t : State} (h : openStep bus port s = .next t) : AddsIssued s t := by
  obtain ⟨-, rfl⟩ | ⟨-, rfl | ⟨-, hentry⟩ | ⟨-, rfl⟩⟩ := openStep_next _ _ _ _ h
  · exact .refl _
  · exact s.raise_addsIssued _ _
  · obtain ⟨-, rfl | ⟨trace, pins, e, rfl⟩⟩ := bitbangEntry_next hentry
    · exact s.entered_addsIssued _ _
    · exact s.raise_addsIssued _ _
  · exact s.entered_addsIssued _ _

theorem closeStep_tasks (s : State) : (closeStep s).tasks = s.tasks := by
  unfold closeStep
  split
  · rfl
  · rfl

theorem checkRecord_addsIssued {s k : State} (a : Half) (type : Nat) (d : List Byte) (c : Byte) (hk : AddsIssued s k) :
    AddsIssued s (checkRecord s a type d c k) := by
  obtain ⟨heq, -⟩ | ⟨heq, -⟩ | ⟨heq, -⟩ := checkRecord_cases s a type d c k
  · rw [heq]
    exact s.raise_addsIssued _ _
  · rw [heq]
    exact s.raise_addsIssued _ _
  · rw [heq]
    exact hk

theorem exec_hex_addsIssued {i : Instr} {s t : State} (hi : i.isWire = false) (h : exec i s = .next t) :
    AddsIssued s t := by
  cases i with
  | hexData a d c =>
    refine .of_next (checkRecord_addsIssued a 0 d c ?_) h
    split
    · exact s.raise_addsIssued _ _
    · exact .of_tasks_eq rfl
  | hexEof a d c => exact .of_next (checkRecord_addsIssued a 1 d c (s.finish_addsIssued _)) h
  | _ => cases hi

theorem decodeLineStep_addsIssued {line dest : List Byte} {clamp : Clamp} {s t : State}
    (h : decodeLineStep line dest clamp s = .next t) : AddsIssued s t := by
  obtain ⟨i, hi, hexec⟩ | ⟨e, -, rfl⟩ := decodeLineStep_next _ _ _ _ _ h
  · exact exec_hex_addsIssued (s := s.called dest clamp) (decodeHex_isWire hi) hexec
  · exact s.raise_addsIssued _ _

theorem planStep_addsIssued {lines : List (List Byte)} {placement : Placement} {s t : State}
    (h : planStep lines placement s = .next t) : AddsIssued s t := by
  obtain ⟨st, -, rfl⟩ | ⟨e, -, rfl⟩ := planStep_next _ _ _ _ h
  · exact .of_tasks_eq rfl
  · exact s.raise_addsIssued _ _

theorem latchTestStep_addsIssued (s : State) : AddsIssued s (latchTestStep s) := by
  unfold latchTestStep
  split
  · exact .refl s
  · exact s.push_addsIssued rfl

theorem latchCheckStep_addsIssued (s : State) : AddsIssued s (latchCheckStep s) := by
  unfold latchCheckStep
  split
  · exact .refl s
  · exact s.raise_addsIssued _ _

theorem infoTestStep_addsIssued (want : Bool) (s : State) : AddsIssued s (infoTestStep want s) := by
  unfold infoTestStep
  split
  · exact .refl s
  · exact s.push_addsIssued rfl

theorem infoCheckStep_addsIssued (before : Bool) (s : State) : AddsIssued s (infoCheckStep before s) := by
  unfold infoCheckStep
  split
  · exact s.raise_addsIssued _ _
  · exact .refl s

theorem readyTestStep_addsIssued (polls : Nat) (s : State) : AddsIssued s (readyTestStep polls s) := by
  unfold readyTestStep
  split
  · exact .refl s
  · split
    · exact s.raise_addsIssued _ _
    · exact s.push_addsIssued rfl

theorem unlockedTestStep_addsIssued (s : State) : AddsIssued s (unlockedTestStep s) := by
  unfold unlockedTestStep
  split
  · exact s.raise_addsIssued _ _
  · exact .refl s

theorem readFlashStep_addsIssued (address count : Nat) (gate : Bool) (s : State) :
    AddsIssued s (readFlashStep address count gate s) := by
  cases gate with
  | true => exact s.push_addsIssued rfl
  | false => exact s.push_addsIssued rfl

/-! The smart writer sends nothing itself: it asks for the operations above. -/

theorem smartReadStep_addsIssued (plan : PagePlan) (page : Nat) (target : List Byte) (backup isInfo : Bool) (s : State) :
    AddsIssued s (smartReadStep plan page target backup isInfo s) := by
  refine s.push_addsIssued ?_
  split
  · rfl
  · rfl

theorem smartTasks_issued (plan : PagePlan) (page : Nat) (current target : List Byte) (backup isInfo : Bool) :
    (smartTasks plan page current target backup isInfo).all Task.issued = true := by
  rw [smartTasks, List.all_append, List.all_append, Bool.and_eq_true, Bool.and_eq_true]
  refine ⟨⟨?_, ?_⟩, rfl⟩
  · split
    · rfl
    · rfl
  · split
    · rfl
    · rfl

theorem smartDecideStep_addsIssued (plan : PagePlan) (page : Nat) (target : List Byte) (backup isInfo : Bool)
    (s : State) : AddsIssued s (smartDecideStep plan page target backup isInfo s) := by
  have hkept := s.mutatePlan_tasks page isInfo plan (analysePlan plan s.buffer target)
  obtain ⟨-, hstep⟩ | ⟨-, hstep⟩ := smartDecideStep_cases plan page target backup isInfo s
  · rw [hstep]
    exact .inr ⟨_, smartTasks_issued _ _ _ _ _ _, congrArg (_ ++ ·) hkept⟩
  · rw [hstep]
    exact .of_tasks_eq hkept

theorem smartVerifyStep_addsIssued (merged : List Byte) (s : State) : AddsIssued s (smartVerifyStep merged s) := by
  unfold smartVerifyStep
  split
  · exact .refl s
  · exact s.raise_addsIssued _ _

theorem imagePagesStep_addsIssued (pages : List Nat) (backup : Bool) (s : State) :
    AddsIssued s (imagePagesStep pages backup s) := by
  cases pages with
  | nil => exact .refl s
  | cons p ps =>
    simp only [imagePagesStep]
    split
    · exact s.push_addsIssued rfl
    · exact s.push_addsIssued rfl

theorem infoConfigStep_addsIssued (offset : Nat) (config : InfoPageConfig) (backup : Bool) (s : State) :
    AddsIssued s (infoConfigStep offset config backup s) := by
  unfold infoConfigStep
  split
  · exact s.raise_addsIssued _ _
  · exact s.push_addsIssued rfl

theorem runTask_addsIssued {task : Task} {s t : State} (h : runTask task s = .next t) : AddsIssued s t := by
  cases task with
  | openLink bus port => exact openStep_addsIssued (bus := bus) (port := port) h
  | settle => exact .of_next_tasks_eq h rfl
  | closeLink => exact .of_next (.of_tasks_eq (closeStep_tasks s)) h
  | xfer _ => exact transferStep_addsIssued h
  | scattered _ _ _ => exact scatteredStep_addsIssued h
  | payload _ _ => exact .of_next_tasks_eq h rfl
  | decodeLine _ _ _ => exact decodeLineStep_addsIssued h
  | latch => exact .of_next (s.push_addsIssued rfl) h
  | latchTest => exact .of_next (latchTestStep_addsIssued s) h
  | latchCheck => exact .of_next (latchCheckStep_addsIssued s) h
  | infoPage _ => exact .of_next (s.push_addsIssued rfl) h
  | infoTest _ => exact .of_next (infoTestStep_addsIssued _ s) h
  | infoCheck _ => exact .of_next (infoCheckStep_addsIssued _ s) h
  | waitReady _ => exact .of_next (s.push_addsIssued rfl) h
  | readyTest _ => exact .of_next (readyTestStep_addsIssued _ s) h
  | checkUnlocked => exact .of_next (s.push_addsIssued rfl) h
  | unlockedTest => exact .of_next (unlockedTestStep_addsIssued s) h
  | erasePage _ => exact .of_next (s.push_addsIssued rfl) h
  | eraseAll => exact .of_next (s.push_addsIssued rfl) h
  | program _ _ => exact .of_next (s.push_addsIssued rfl) h
  | readFlash _ _ _ => exact .of_next (readFlashStep_addsIssued _ _ _ s) h
  | lock => exact .of_next (s.push_addsIssued rfl) h
  | planFile _ _ => exact planStep_addsIssued h
  | smartRead _ _ _ _ _ => exact .of_next (smartReadStep_addsIssued _ _ _ _ _ s) h
  | smartDecide _ _ _ _ _ => exact .of_next (smartDecideStep_addsIssued _ _ _ _ _ s) h
  | smartBackup _ => exact .of_next_tasks_eq h rfl
  | smartVerify _ => exact .of_next (smartVerifyStep_addsIssued _ s) h
  | imagePages _ _ => exact .of_next (imagePagesStep_addsIssued _ _ s) h
  | discardPlan _ => exact .of_next_tasks_eq h rfl
  | infoConfig _ _ _ => exact .of_next (infoConfigStep_addsIssued _ _ _ s) h
  | ret _ => exact .of_next (s.finish_addsIssued _) h

/-- Settles O45: a transfer among the tasks after the step was there before, or is among the ones put in front. -/
theorem controllerOpcodes : Obligations.ControllerOpcodes := by
  intro task s t m h hm
  obtain hended | ⟨ts, hissued, htasks⟩ := runTask_addsIssued h
  · exact absurd (hended ▸ hm) List.not_mem_nil
  · obtain hnew | hold := List.mem_append.mp (htasks ▸ hm)
    · exact .inr (Task.issued_xfer (List.all_eq_true.mp hissued _ hnew))
    · exact .inl hold

/-! ## Commands exchanged inside a session -/

/-- A session over the bit-banged driver in which a transfer can take place, the target in program mode. -/
structure InSession (s : State) : Prop where
  ready : transferReady s
  backend : s.params.backend = .bitbang
  mode : s.progmode = true

/-- From `s` to `t` the target received the opcodes `ops`, latest first; the session goes on and no flash byte changed. -/
structure Exchanged (ops : List Byte) (s t : State) : Prop where
  session : InSession t
  params : t.params = s.params
  received : t.received = ops ++ s.received
  flash : sameFlash s t

theorem Exchanged.trans {first second : List Byte} {s t u : State} (h : Exchanged first s t)
    (h' : Exchanged second t u) : Exchanged (second ++ first) s u where
  session := h'.session
  params := h'.params.trans h.params
  received := by rw [h'.received, h.received, List.append_assoc]
  flash := ⟨fun a => (h'.flash.1 a).trans (h.flash.1 a), fun a => (h'.flash.2 a).trans (h.flash.2 a)⟩

/-- What the operation's own bookkeeping writes does not matter to the exchange. -/
theorem Exchanged.bookkeeping {ops : List Byte} {s t : State} (h : Exchanged ops s t) (ts : List Task)
    (o : Option OpResult) : Exchanged ops s { t with tasks := ts, outcome := o } :=
  ⟨⟨h.session.ready, h.session.backend, h.session.mode⟩, h.params, h.received, h.flash⟩

theorem InSession.exchanged_nil {s : State} (h : InSession s) : Exchanged [] s s :=
  ⟨h, rfl, rfl, fun _ => rfl, fun _ => rfl⟩

theorem InSession.bookkeeping {s : State} (h : InSession s) (ts : List Task) : InSession { s with tasks := ts } :=
  (h.exchanged_nil.bookkeeping ts s.outcome).session

/-- In a session it is always the block's turn: a step is the task at the head. -/
theorem InSession.step_eq {s : State} (h : InSession s) {task : Task} {ts : List Task} (htasks : s.tasks = task :: ts) :
    step s = runTask task { s with tasks := ts } := by
  obtain ⟨-, -, -, -, -, henv⟩ := h.ready
  exact step_eq_runTask (by simp [henv]) htasks

/-- The state as the command of the transfer `m` finds it, `ts` being left of the operation. -/
def State.hearing (s : State) (m : List Byte) (ts : List Task) : State :=
  { s with tasks := ts, received := m.getD 0 0#8 :: s.received }

/-- The step on a transfer whose command completes without touching flash: the FSR is the command's, the buffer its
answer. -/
theorem InSession.step_command {s t : State} {m : List Byte} {ts : List Task} {i : Instr} (h : InSession s)
    (htasks : s.tasks = .xfer m :: ts) (hdecode : decodeWire m = .ok i) (hexec : exec i (s.hearing m ts) = .next t)
    (hflash : sameFlash (s.hearing m ts) t) :
    ∃ u, step s = .next u ∧ u.tasks = ts ∧ u.fsr = t.fsr ∧ u.buffer = t.resp ∧ u.outcome = s.outcome ∧
      Exchanged [m.getD 0 0#8] s u := by
  obtain ⟨hstep, -⟩ := stepRunsDecodedCommand s m ts i h.ready h.backend htasks hdecode
  obtain ⟨hwire, -⟩ := wireBytesHaveOneMeaning m i hdecode
  obtain ⟨houtside, -, hmode⟩ := (exec_answered hwire hexec).frame
  obtain ⟨hparams, -, -, hlink, -, hlost, -, -, hreceived, -, htasks', -, -, -, -, houtcome, -, -, -, henv⟩ :=
    houtside
  obtain ⟨hopen, hintact, hadmitted, hidle, -, hgo⟩ := h.ready
  have hidle' := pinsAfterTransfer_between m (params_admitted hadmitted).1 hidle
  refine ⟨_, hstep t hexec, htasks', rfl, rfl, houtcome, ?_, hparams, hreceived, hflash⟩
  refine ⟨⟨hlink.trans hopen, hlost.trans hintact, ?_, hparams ▸ hidle', rfl, henv.trans hgo⟩, hparams ▸ h.backend,
    hmode.trans h.mode⟩
  exact (congrArg Params.admitted hparams).trans hadmitted

/-! ## Reading the status (R172) -/

/-- From `s` to `t` one `RDSR` was exchanged: the status read is the FSR but for its bits 1 and 0 (R28). -/
structure StatusRead (s t : State) : Prop where
  exchanged : Exchanged [0x05#8] s t
  fsr : t.fsr = s.fsr
  outcome : t.outcome = s.outcome
  status : ∀ j, 2 ≤ j → j < 8 → t.status.getLsbD j = s.fsr.getLsbD j

theorem StatusRead.of_bookkeeping {s t : State} {ts : List Task} (h : StatusRead { s with tasks := ts } t) :
    StatusRead s t :=
  ⟨⟨h.exchanged.session, h.exchanged.params, h.exchanged.received, h.exchanged.flash⟩, h.fsr, h.outcome, h.status⟩

theorem StatusRead.wen {s t : State} (h : StatusRead s t) : fsrWen t.status = fsrWen s.fsr :=
  h.status 5 (by decide) (by decide)

theorem StatusRead.rdyn {s t : State} (h : StatusRead s t) : fsrRdyn t.status = fsrRdyn s.fsr :=
  h.status 4 (by decide) (by decide)

theorem StatusRead.infen {s t : State} (h : StatusRead s t) : fsrInfen t.status = fsrInfen s.fsr :=
  h.status 3 (by decide) (by decide)

theorem StatusRead.rdismb {s t : State} (h : StatusRead s t) : fsrRdismb t.status = fsrRdismb s.fsr :=
  h.status 2 (by decide) (by decide)

theorem StatusRead.acceptsCommand {s t : State} (h : StatusRead s t) (hs : acceptsCommand s) : acceptsCommand t :=
  ⟨h.exchanged.session.mode, h.fsr ▸ hs.2⟩

theorem InSession.step_rdsr {s : State} {ts : List Task} (h : InSession s) (htasks : s.tasks = .xfer rdsrBytes :: ts) :
    ∃ t, step s = .next t ∧ t.tasks = ts ∧ StatusRead s t := by
  obtain ⟨t, hexec, -, hstatus, hfsr, -, hflash⟩ := rdsrReadsStatus 0x00#8 (s.hearing rdsrBytes ts) h.mode
  obtain ⟨u, hstep, hleft, hufsr, hbuffer, houtcome, hexchanged⟩ := h.step_command htasks rfl hexec hflash
  refine ⟨u, hstep, hleft, hexchanged, hufsr.trans hfsr, houtcome, ?_⟩
  rw [State.status, hbuffer]
  exact hstatus

/-! ## Runs of a few steps -/

theorem runSteps_add {j : Nat} {s t : State} (h : runSteps j s = .next t) (k : Nat) :
    runSteps (j + k) s = runSteps k t := by
  induction j generalizing s with
  | zero =>
    cases h
    rw [Nat.zero_add]
  | succ j ih =>
    obtain ⟨u, hstep, hrest⟩ := (andThen_next _ _ _).mp h
    rw [Nat.add_right_comm, runSteps, hstep]
    exact ih hrest

theorem runSteps_succ {s t : State} (h : step s = .next t) (k : Nat) : runSteps (k + 1) s = runSteps k t := by
  rw [runSteps, h]
  rfl

theorem runSteps_one (s : State) : runSteps 1 s = step s := by
  rw [runSteps]
  cases step s <;> rfl

/-- A status read and the test behind it, in two steps. -/
theorem InSession.run_read_test {s : State} {test : Task} {ts : List Task} (h : InSession s)
    (htasks : s.tasks = .xfer rdsrBytes :: test :: ts) :
    ∃ t, runSteps 2 s = runTask test t ∧ t.tasks = ts ∧ StatusRead s t := by
  obtain ⟨u, hstep, hleft, hread⟩ := h.step_rdsr htasks
  have hexchanged := hread.exchanged.bookkeeping ts u.outcome
  refine ⟨{ u with tasks := ts }, ?_, rfl, hexchanged, hread.fsr, hread.outcome, hread.status⟩
  rw [runSteps_succ hstep, runSteps_one, hread.exchanged.session.step_eq hleft]

/-- The task `ask` of an operation of FSRCTL is a status read and the test behind it. -/
def Task.AsksStatus (ask test : Task) : Prop := ∀ s, runTask ask s = .next (s.push [.xfer rdsrBytes, test])

/-- Such a task takes three steps, the last of which is the test on the status read. -/
theorem InSession.run_ask {s : State} {ask test : Task} {ts : List Task} (h : InSession s) (hask : ask.AsksStatus test)
    (htasks : s.tasks = ask :: ts) : ∃ t, runSteps 3 s = runTask test t ∧ t.tasks = ts ∧ StatusRead s t := by
  have hstep : step s = .next { s with tasks := .xfer rdsrBytes :: test :: ts } := (h.step_eq htasks).trans (hask _)
  obtain ⟨t, hrun, hleft, hread⟩ := (h.bookkeeping (.xfer rdsrBytes :: test :: ts)).run_read_test rfl
  exact ⟨t, (runSteps_succ hstep 2).trans hrun, hleft, hread.of_bookkeeping⟩

/-- Where the test is passed, the task costs one `RDSR` and changes nothing. -/
theorem InSession.run_ask_passed {s : State} {ask test : Task} {ts : List Task} (h : InSession s)
    (hask : ask.AsksStatus test) (htasks : s.tasks = ask :: ts)
    (hpass : ∀ t, StatusRead s t → runTask test t = .next t) :
    ∃ t, runSteps 3 s = .next t ∧ t.tasks = ts ∧ t.fsr = s.fsr ∧ t.received = 0x05#8 :: s.received ∧
      t.outcome = s.outcome ∧ transferReady t ∧ sameFlash s t := by
  obtain ⟨t, hrun, hleft, hread⟩ := h.run_ask hask htasks
  exact ⟨t, hrun.trans (hpass t hread), hleft, hread.fsr, hread.exchanged.received, hread.outcome,
    hread.exchanged.session.ready, hread.exchanged.flash⟩

/-- Where the test puts further tasks in front, these are next, on the status just read. -/
theorem InSession.run_ask_pushed {s : State} {ask test : Task} {ts : List Task} {more : Byte → List Task}
    (h : InSession s) (hask : ask.AsksStatus test) (htasks : s.tasks = ask :: ts)
    (hpush : ∀ t, StatusRead s t → runTask test t = .next (t.push (more t.status))) :
    ∃ t, runSteps 3 s = .next t ∧ t.tasks = more t.status ++ ts ∧ StatusRead s t := by
  obtain ⟨t, hrun, hleft, hread⟩ := h.run_ask hask htasks
  have hexchanged := hread.exchanged.bookkeeping (more t.status ++ t.tasks) t.outcome
  exact ⟨t.push (more t.status), hrun.trans (hpush t hread), congrArg (more t.status ++ ·) hleft, hexchanged, hread.fsr,
    hread.outcome, hread.status⟩

/-- From `s` to `t` the command with opcode `op` and a status read were exchanged, with nothing failing. -/
structure CommandChecked (op : Byte) (s t : State) : Prop where
  exchanged : Exchanged [0x05#8, op] s t
  outcome : t.outcome = s.outcome

/-- A command that completes without touching flash, a status read and its check that is passed: three steps. -/
theorem InSession.run_command_check {s t : State} {op : Byte} {rest : List Byte} {check : Task} {ts : List Task}
    {i : Instr} (h : InSession s) (htasks : s.tasks = [.xfer (op :: rest), .xfer rdsrBytes, check] ++ ts)
    (hdecode : decodeWire (op :: rest) = .ok i)
    (hexec : exec i (s.hearing (op :: rest) (.xfer rdsrBytes :: check :: ts)) = .next t)
    (hflash : sameFlash (s.hearing (op :: rest) (.xfer rdsrBytes :: check :: ts)) t)
    (hpass : ∀ u v, u.fsr = t.fsr → StatusRead u v → runTask check v = .next v) :
    ∃ v, runSteps 3 s = .next v ∧ v.tasks = ts ∧ v.fsr = t.fsr ∧ CommandChecked op s v := by
  obtain ⟨u, hstep, hleft, hfsr, -, houtcome, hexchanged⟩ := h.step_command htasks hdecode hexec hflash
  obtain ⟨v, hrun, hrest, hread⟩ := hexchanged.session.run_read_test hleft
  exact ⟨v, (runSteps_succ hstep 2).trans (hrun.trans (hpass u v hfsr hread)), hrest, hread.fsr.trans hfsr,
    hexchanged.trans hread.exchanged, hread.outcome.trans houtcome⟩

/-- A status read, a command and its check, as the claims on FSRCTL see them: three commands, and ready for the next. -/
theorem StatusRead.then_command {op : Byte} {s u t : State} (hread : StatusRead s u) (h : CommandChecked op u t) :
    t.received = 0x05#8 :: op :: 0x05#8 :: s.received ∧ t.outcome = s.outcome ∧ transferReady t ∧ sameFlash s t :=
  have hboth := hread.exchanged.trans h.exchanged
  ⟨hboth.received, h.outcome.trans hread.outcome, hboth.session.ready, hboth.flash⟩

/-! ## `enable_write_latch` (R173) -/

/-- `WREN` and the read behind it: the latch is set, and the check finds it so. -/
theorem InSession.run_wren_check {s : State} {ts : List Task} (h : InSession s) (haccepts : acceptsCommand s)
    (htasks : s.tasks = [.xfer [0x06#8], .xfer rdsrBytes, .latchCheck] ++ ts) :
    ∃ t, runSteps 3 s = .next t ∧ t.tasks = ts ∧ fsrWen t.fsr = true ∧ statusKeptBut [5] s t ∧
      CommandChecked 0x06#8 s t := by
  obtain ⟨w, hexec, hwen, hkept, -, -, hflash⟩ :=
    wrenSetsLatch (s.hearing [0x06#8] (.xfer rdsrBytes :: .latchCheck :: ts)) haccepts
  have hpass : ∀ u v, u.fsr = w.fsr → StatusRead u v → runTask .latchCheck v = .next v :=
    fun u v hfsr hread => congrArg Host.Outcome.next (if_pos (by rw [hread.wen, hfsr, hwen]))
  obtain ⟨t, hrun, hleft, hfsr, hchecked⟩ := h.run_command_check htasks rfl hexec hflash hpass
  refine ⟨t, hrun, hleft, hfsr ▸ hwen, ?_, hchecked⟩
  rw [statusKeptBut, hfsr]
  exact hkept

/-- Settles O46: the status read shows `WEN`, and where it is clear the task puts `WREN` and a second read in front. -/
theorem enableWriteLatchSetsWen : Obligations.EnableWriteLatchSetsWen := by
  intro s ts hready hbackend haccepts htasks
  have h : InSession s := ⟨hready, hbackend, haccepts.1⟩
  have hask : Task.latch.AsksStatus .latchTest := fun _ => rfl
  refine ⟨fun hwen => h.run_ask_passed hask htasks fun t hread => ?_, fun hwen => ?_⟩
  · exact congrArg Host.Outcome.next (if_pos (hread.wen.trans hwen))
  · have hpush : ∀ t, StatusRead s t →
        runTask .latchTest t = .next (t.push [.xfer [0x06#8], .xfer rdsrBytes, .latchCheck]) :=
      fun t hread => congrArg Host.Outcome.next (if_neg (by simp [hread.wen, hwen]))
    obtain ⟨u, hrun, hnext, hread⟩ := h.run_ask_pushed (more := fun _ => _) hask htasks hpush
    obtain ⟨t, hrest, hleft, hset, hkept, hchecked⟩ :=
      hread.exchanged.session.run_wren_check (hread.acceptsCommand haccepts) hnext
    refine ⟨t, (runSteps_add hrun 3).trans hrest, hleft, hset, ?_, hread.then_command hchecked⟩
    rw [statusKeptBut, ← hread.fsr]
    exact hkept

/-! ## `enable_info_page` and `disable_info_page` (R174) -/

theorem flipInfen_infen (f : Byte) : fsrInfen (flipInfen f) = !fsrInfen f := flipInfen_bit f 3 (by decide)

/-- `WRSR` of a byte that is the FSR in all but `INFEN` and bits 1 and 0, and the read behind it: `INFEN` is the written
one, which differs from the one before, as the check demands. -/
theorem InSession.run_wrsr_check {s : State} {v : Byte} {before : Bool} {ts : List Task} (h : InSession s)
    (haccepts : acceptsCommand s) (htasks : s.tasks = [.xfer [0x01#8, v], .xfer rdsrBytes, .infoCheck before] ++ ts)
    (hnew : fsrInfen v ≠ before) (hv : ∀ j, j < 8 → j ∉ [0, 1, 3] → v.getLsbD j = s.fsr.getLsbD j) :
    ∃ t, runSteps 3 s = .next t ∧ t.tasks = ts ∧ fsrInfen t.fsr = fsrInfen v ∧ statusKeptBut [0, 1, 3] s t ∧
      CommandChecked 0x01#8 s t := by
  obtain ⟨w, hexec, hinfen, -, hbits, -, -, hflash⟩ :=
    wrsrWritesInfen v (s.hearing [0x01#8, v] (.xfer rdsrBytes :: .infoCheck before :: ts)) haccepts
  have hpass : ∀ u x, u.fsr = w.fsr → StatusRead u x → runTask (.infoCheck before) x = .next x :=
    fun u x hfsr hread => congrArg Host.Outcome.next (if_neg (by rw [hread.infen, hfsr, hinfen]; exact hnew))
  obtain ⟨t, hrun, hleft, hfsr, hchecked⟩ := h.run_command_check htasks rfl hexec hflash hpass
  refine ⟨t, hrun, hleft, hfsr ▸ hinfen, fun j hj hne => ?_, hchecked⟩
  rw [hfsr]
  obtain hold | hwritten := hbits j hj
  · exact hold
  · exact hwritten.trans (hv j hj hne)

/-- What `set_info_page` puts in front where the status read shows the other `INFEN` (R174). -/
def infoToggleTasks (status : Byte) : List Task :=
  [.xfer [0x01#8, flipInfen status], .xfer rdsrBytes, .infoCheck (fsrInfen status)]

/-- Settles O47: the byte written is the status read with `INFEN` flipped; its bits 7 to 2 are the FSR's own. -/
theorem setInfoPageTogglesInfen : Obligations.SetInfoPageTogglesInfen := by
  intro s want ts hready hbackend haccepts htasks
  have h : InSession s := ⟨hready, hbackend, haccepts.1⟩
  have hask : (Task.infoPage want).AsksStatus (.infoTest want) := fun _ => rfl
  refine ⟨fun hinfen => h.run_ask_passed hask htasks fun t hread => ?_, fun hinfen => ?_⟩
  · exact congrArg Host.Outcome.next (if_pos (hread.infen.trans hinfen))
  · have hpush : ∀ t, StatusRead s t → runTask (.infoTest want) t = .next (t.push (infoToggleTasks t.status)) :=
      fun t hread => congrArg Host.Outcome.next (if_neg (by rwa [hread.infen]))
    obtain ⟨u, hrun, hnext, hread⟩ := h.run_ask_pushed hask htasks hpush
    have hflipped : fsrInfen (flipInfen u.status) = !fsrInfen s.fsr := by rw [flipInfen_infen, hread.infen]
    have hother : ∀ j, j < 8 → j ∉ [0, 1, 3] → (flipInfen u.status).getLsbD j = u.fsr.getLsbD j := by
      intro j hj hne
      obtain ⟨h0, h1, h3⟩ : j ≠ 0 ∧ j ≠ 1 ∧ j ≠ 3 := by simpa using hne
      rw [flipInfen_bit _ _ hj, if_neg h3, hread.status j (by omega) hj, hread.fsr]
    obtain ⟨t, hrest, hleft, hset, hkept, hchecked⟩ :=
      hread.exchanged.session.run_wrsr_check (hread.acceptsCommand haccepts) hnext (by simp [flipInfen_infen]) hother
    refine ⟨t, (runSteps_add hrun 3).trans hrest, hleft, ?_, ?_, hread.then_command hchecked⟩
    · rw [hset, hflipped]
      exact (Bool.eq_not_of_ne (Ne.symm hinfen)).symm
    · rw [statusKeptBut, ← hread.fsr]
      exact hkept

/-! ## `wait_ready` (R175, R275) -/

theorem waitReady_asksStatus (polls : Nat) : (Task.waitReady polls).AsksStatus (.readyTest polls) := fun _ => rfl

theorem readyTestStep_again {s : State} {polls : Nat} (hbusy : fsrRdyn s.status = true)
    (hlimit : pollLimitReached s.params.readyPollLimit (polls + 1) = false) :
    readyTestStep polls s = s.push [.waitReady (polls + 1)] := by
  simp [readyTestStep, hbusy, hlimit]

theorem readyTestStep_timeout {s : State} {polls : Nat} (hbusy : fsrRdyn s.status = true)
    (hlimit : pollLimitReached s.params.readyPollLimit (polls + 1) = true) :
    readyTestStep polls s = s.raise (.protocol .timeout) := by
  simp [readyTestStep, hbusy, hlimit]

/-- On a target that stays busy, with `n` polls to go before the last one: each poll is one `RDSR`, the last one fails. -/
theorem InSession.run_busy_polls {n polls : Nat} {s : State} {ts : List Task} (h : InSession s)
    (hbusy : fsrRdyn s.fsr = true) (hlimit : s.params.readyPollLimit = some (polls + n + 1))
    (htasks : s.tasks = .waitReady polls :: ts) :
    ∃ t, runSteps (3 * (n + 1)) s = .next t ∧ t.tasks = [] ∧ t.outcome = some (.error (.protocol .timeout)) ∧
      t.fsr = s.fsr ∧ Exchanged (List.replicate (n + 1) 0x05#8) s t := by
  induction n generalizing polls s with
  | zero =>
    obtain ⟨t, hrun, -, hread⟩ := h.run_ask (waitReady_asksStatus polls) htasks
    have hreached : pollLimitReached t.params.readyPollLimit (polls + 1) = true := by
      simp [hread.exchanged.params, hlimit, pollLimitReached]
    have htimeout := readyTestStep_timeout (hread.rdyn.trans hbusy) hreached
    exact ⟨_, hrun.trans (congrArg Host.Outcome.next htimeout), rfl, rfl, hread.fsr, hread.exchanged.bookkeeping _ _⟩
  | succ n ih =>
    have hpush : ∀ t, StatusRead s t → runTask (.readyTest polls) t = .next (t.push [.waitReady (polls + 1)]) := by
      intro t hread
      have hgo : pollLimitReached t.params.readyPollLimit (polls + 1) = false := by
        simp [hread.exchanged.params, hlimit, pollLimitReached]
      exact congrArg Host.Outcome.next (readyTestStep_again (hread.rdyn.trans hbusy) hgo)
    obtain ⟨u, hrun, hnext, hread⟩ := h.run_ask_pushed (more := fun _ => _) (waitReady_asksStatus polls) htasks hpush
    have hlimit' : u.params.readyPollLimit = some (polls + 1 + n + 1) := by
      rw [hread.exchanged.params, hlimit]
      exact congrArg some (by omega)
    obtain ⟨t, hrest, hend, herror, hfsr, hpolls⟩ :=
      ih hread.exchanged.session (hread.fsr ▸ hbusy) hlimit' hnext
    refine ⟨t, ?_, hend, herror, hfsr.trans hread.fsr, ?_⟩
    · rw [Nat.mul_succ, Nat.add_comm, runSteps_add hrun]
      exact hrest
    · rw [List.replicate_succ']
      exact hread.exchanged.trans hpolls

/-- Settles O48: a ready target passes the first test; on a busy one every poll but the last asks for another. -/
theorem waitReadyPolls : Obligations.WaitReadyPolls := by
  intro s ts hready hbackend hmode htasks
  have h : InSession s := ⟨hready, hbackend, hmode⟩
  refine ⟨fun hidle => h.run_ask_passed (waitReady_asksStatus 0) htasks fun t hread => ?_, fun n hbusy hlimit => ?_⟩
  · exact congrArg Host.Outcome.next (if_pos (hread.rdyn.trans hidle))
  · obtain ⟨t, hrun, hend, herror, hfsr, hexchanged⟩ :=
      h.run_busy_polls (n := n) hbusy (by rw [hlimit, Nat.zero_add]) htasks
    exact ⟨t, hrun, hend, herror, hexchanged.received, hfsr, hexchanged.session.ready, hexchanged.flash⟩

/-! ## The gate of `flash_read` (R177, R181) -/

/-- The step on a gated `flash_read`: the lock's check first, then the `READ`. -/
theorem InSession.step_gatedRead {s : State} {address count : Nat} {ts : List Task} (h : InSession s)
    (htasks : s.tasks = .readFlash address count true :: ts) :
    step s = .next { s with
      tasks := .checkUnlocked :: .scattered 0x03#8 address (List.replicate count 0x00#8) :: ts } :=
  h.step_eq htasks

/-- Settles O49: the check's test on the one status read raises the error, or leaves the `READ` at the head. -/
theorem gatedReadChecksLock : Obligations.GatedReadChecksLock := by
  intro s address count ts hready hbackend hmode htasks
  have h : InSession s := ⟨hready, hbackend, hmode⟩
  obtain ⟨u, hrun, hleft, hchecked⟩ := (h.bookkeeping _).run_ask (ask := .checkUnlocked) (fun _ => rfl) rfl
  have hread : StatusRead s u := hchecked.of_bookkeeping
  have hsteps : runSteps 4 s = runTask .unlockedTest u := (runSteps_succ (h.step_gatedRead htasks) 3).trans hrun
  cases hlock : fsrRdismb s.fsr with
  | true =>
    have hraise : unlockedTestStep u = u.raise (.protocol .deviceLocked) := if_pos (hread.rdismb.trans hlock)
    have hend : Exchanged [0x05#8] s (u.raise (.protocol .deviceLocked)) := hread.exchanged.bookkeeping _ _
    exact ⟨_, hsteps.trans (congrArg Host.Outcome.next hraise), hend.received, hread.fsr, hend.session.ready, hend.flash,
      fun _ => ⟨rfl, rfl⟩, nofun⟩
  | false =>
    have hpass : unlockedTestStep u = u := if_neg (by simp [hread.rdismb, hlock])
    exact ⟨u, hsteps.trans (congrArg Host.Outcome.next hpass), hread.exchanged.received, hread.fsr,
      hread.exchanged.session.ready, hread.exchanged.flash, nofun, fun _ => ⟨hleft, hread.outcome⟩⟩

end Sys2Proof.Machine

/-! SUPPORT and proofs of the family "page planner" (spec/43_page_planner.md): what one merge of `compact_writes` changes,
the loop that merges, and the parts of a data record in the plans and in the image. -/

namespace Sys2Proof.Machine

/-! ## The count at an offset -/

theorem runAt_eq_zero {runs : List Nat} {i : Nat} (h : runs.length ≤ i) : runAt runs i = 0 :=
  List.getD_eq_default runs 0 h

theorem lt_length_of_runAt {runs : List Nat} {i : Nat} (h : runAt runs i ≠ 0) : i < runs.length :=
  Nat.lt_of_not_le fun hpast => h (runAt_eq_zero hpast)

theorem runAt_set_self {runs : List Nat} {i : Nat} (h : i < runs.length) (v : Nat) : runAt (runs.set i v) i = v := by
  simp [runAt, h]

theorem runAt_set_ne {runs : List Nat} {i k : Nat} (h : k ≠ i) (v : Nat) : runAt (runs.set i v) k = runAt runs k := by
  simp [runAt, List.getElem?_set_ne h.symm]

/-- A count overwritten takes its place in the sum. -/
theorem runAt_add_sum_set {runs : List Nat} {i : Nat} (h : i < runs.length) (v : Nat) :
    runAt runs i + (runs.set i v).sum = v + runs.sum := by
  have hperm := (runs.getD_set_perm_cons i v).sum_nat
  simpa [runAt, h] using hperm

/-! ## One merge (R204) -/

/-- The offset right behind the run at `i`. -/
def runEnd (runs : List Nat) (i : Nat) : Nat := i + runAt runs i

/-- A run starts at `i`, and another one right where it ends. -/
def Adjacent (runs : List Nat) (i : Nat) : Prop := runAt runs i ≠ 0 ∧ runAt runs (runEnd runs i) ≠ 0

/-- The run at `i` takes over the count of the run behind it (R204). -/
def absorb (runs : List Nat) (i : Nat) : List Nat :=
  (runs.set i (runAt runs i + runAt runs (runEnd runs i))).set (runEnd runs i) 0

theorem lt_runEnd {runs : List Nat} {i : Nat} (h : runAt runs i ≠ 0) : i < runEnd runs i :=
  Nat.lt_add_of_pos_right (Nat.pos_of_ne_zero h)

theorem Adjacent.ne {runs : List Nat} {i : Nat} (h : Adjacent runs i) : i ≠ runEnd runs i := (lt_runEnd h.1).ne

theorem Adjacent.runAt_absorb_self {runs : List Nat} {i : Nat} (h : Adjacent runs i) :
    runAt (absorb runs i) i = runAt runs i + runAt runs (runEnd runs i) := by
  rw [absorb, runAt_set_ne h.ne, runAt_set_self (lt_length_of_runAt h.1)]

theorem Adjacent.runEnd_lt_runEnd_absorb {runs : List Nat} {i : Nat} (h : Adjacent runs i) :
    runEnd runs i < runEnd (absorb runs i) i := by
  calc
    runEnd runs i < runEnd runs i + runAt runs (runEnd runs i) := lt_runEnd h.2
    _ = runEnd (absorb runs i) i := (Nat.add_assoc ..).trans (congrArg (i + ·) h.runAt_absorb_self.symm)

theorem Adjacent.runAt_absorb_end {runs : List Nat} {i : Nat} (h : Adjacent runs i) :
    runAt (absorb runs i) (runEnd runs i) = 0 :=
  runAt_set_self (by simpa using lt_length_of_runAt h.2) 0

theorem runAt_absorb_ne {runs : List Nat} {i k : Nat} (hi : k ≠ i) (hend : k ≠ runEnd runs i) :
    runAt (absorb runs i) k = runAt runs k := by
  rw [absorb, runAt_set_ne hend, runAt_set_ne hi]

@[simp] theorem absorb_length (runs : List Nat) (i : Nat) : (absorb runs i).length = runs.length := by
  simp [absorb]

theorem Adjacent.absorb_sum {runs : List Nat} {i : Nat} (h : Adjacent runs i) : (absorb runs i).sum = runs.sum := by
  have hfirst := runAt_add_sum_set (lt_length_of_runAt h.1) (runAt runs i + runAt runs (runEnd runs i))
  have hsecond := runAt_add_sum_set (runs := runs.set i (runAt runs i + runAt runs (runEnd runs i)))
    (by simpa using lt_length_of_runAt h.2) 0
  rw [runAt_set_ne h.ne.symm] at hsecond
  unfold absorb
  omega

/-- A run that the merge leaves is the merged one, or an old one at another offset. -/
theorem Adjacent.run_of_absorb {runs : List Nat} {i k : Nat} (h : Adjacent runs i) (hk : runAt (absorb runs i) k ≠ 0) :
    (k = i ∧ runAt (absorb runs i) k = runAt runs i + runAt runs (runEnd runs i)) ∨
      (k ≠ i ∧ k ≠ runEnd runs i ∧ runAt (absorb runs i) k = runAt runs k) := by
  by_cases hi : k = i
  · subst hi
    exact .inl ⟨rfl, h.runAt_absorb_self⟩
  · have hend : k ≠ runEnd runs i := by
      rintro rfl
      exact hk h.runAt_absorb_end
    exact .inr ⟨hi, hend, runAt_absorb_ne hi hend⟩

/-- The merged run covers what the two runs covered (R205). -/
theorem Adjacent.pending_absorb {runs : List Nat} {i : Nat} (h : Adjacent runs i) (o : Nat) :
    pending (absorb runs i) o ↔ pending runs o := by
  have hself := h.runAt_absorb_self
  have hend : runEnd runs i = i + runAt runs i := rfl
  constructor
  · rintro ⟨k, hle, hlt⟩
    obtain ⟨rfl, hrun⟩ | ⟨-, -, hrun⟩ := h.run_of_absorb (k := k) (by omega)
    · by_cases hfirst : o < runEnd runs k
      · exact ⟨k, hle, hfirst⟩
      · exact ⟨runEnd runs k, by omega, by omega⟩
    · exact ⟨k, hle, hrun ▸ hlt⟩
  · rintro ⟨k, hle, hlt⟩
    by_cases hfirst : k = i
    · subst hfirst
      exact ⟨k, hle, by omega⟩
    · by_cases hsecond : k = runEnd runs i
      · subst hsecond
        exact ⟨i, by omega, by omega⟩
      · exact ⟨k, hle, by rwa [runAt_absorb_ne hfirst hsecond]⟩

theorem Adjacent.runsDisjoint_absorb {runs : List Nat} {i : Nat} (h : Adjacent runs i) (hdisjoint : runsDisjoint runs) :
    runsDisjoint (absorb runs i) := by
  have hbehind := hdisjoint _ h.2
  intro k hk
  obtain ⟨rfl, hrun⟩ | ⟨hi, hend, hrun⟩ := h.run_of_absorb hk
  · have hsum : k + runAt (absorb runs k) k = runEnd runs k + runAt runs (runEnd runs k) := by
      rw [hrun, runEnd, Nat.add_assoc]
    rw [hsum, absorb_length]
    refine ⟨hbehind.1, fun l hlt hl => ?_⟩
    obtain ⟨rfl, -⟩ | ⟨-, hne, hold⟩ := h.run_of_absorb hl
    · omega
    · have hl' : runAt runs l ≠ 0 := hold ▸ hl
      have hafter : runEnd runs k ≤ l := (hdisjoint k h.1).2 l hlt hl'
      exact hbehind.2 l (by omega) hl'
  · rw [hrun, absorb_length]
    obtain ⟨hinside, hapart⟩ := hdisjoint k (hrun ▸ hk)
    refine ⟨hinside, fun l hlt hl => ?_⟩
    obtain ⟨rfl, -⟩ | ⟨-, -, hold⟩ := h.run_of_absorb hl
    · exact hapart l hlt h.1
    · exact hapart l hlt (hold ▸ hl)

/-! ## The loop of `compact_writes` (R204) -/

/-- What every merge keeps, the loop keeps. -/
theorem compactLoop_keeps {P : List Nat → Prop} (hmerge : ∀ runs i, Adjacent runs i → P runs → P (absorb runs i))
    (fuel i : Nat) (runs : List Nat) (h : P runs) : P (compactLoop fuel i runs) := by
  fun_induction compactLoop fuel i runs with
  | case1 i runs => exact h
  | case2 fuel i runs hpast => exact h
  | case3 fuel i runs hinside hfree ih => exact ih h
  | case4 fuel i runs hinside hrun j hnext ih => exact ih (hmerge runs i ⟨hrun, hnext.2⟩ h)
  | case5 fuel i runs hinside hrun j hnext ih => exact ih h

/-- The loop changes nothing in front of where it stands. -/
theorem compactLoop_runAt_of_lt {k : Nat} (fuel i : Nat) (runs : List Nat) (h : k < i) :
    runAt (compactLoop fuel i runs) k = runAt runs k := by
  fun_induction compactLoop fuel i runs with
  | case1 i runs => rfl
  | case2 fuel i runs hpast => rfl
  | case3 fuel i runs hinside hfree ih => exact ih (by omega)
  | case4 fuel i runs hinside hrun j hnext ih =>
    have hend : i < runEnd runs i := lt_runEnd hrun
    exact (ih h).trans (runAt_absorb_ne (by omega) (by omega))
  | case5 fuel i runs hinside hrun j hnext ih => exact ih (by omega)

/-- An offset without a run where the loop stands stays one. -/
theorem compactLoop_runAt_of_free (fuel i : Nat) (runs : List Nat) (h : runAt runs i = 0) :
    runAt (compactLoop fuel i runs) i = 0 := by
  fun_cases compactLoop fuel i runs with
  | case1 => exact h
  | case2 fuel hpast => exact h
  | case3 fuel hinside hfree => rw [compactLoop_runAt_of_lt fuel (i + 1) runs (by omega), h]
  | case4 => contradiction
  | case5 => contradiction

/-- The loop's walk from an offset finds nothing to merge: it scans free offsets, and each run it meets ends at a free one. -/
inductive Settled (runs : List Nat) : Nat → Prop
  | past {i : Nat} (hpast : runs.length ≤ i) : Settled runs i
  | free {i : Nat} (hfree : runAt runs i = 0) (hnext : Settled runs (i + 1)) : Settled runs i
  | run {i : Nat} (hrun : runAt runs i ≠ 0) (hfree : runAt runs (runEnd runs i) = 0)
      (hnext : Settled runs (runEnd runs i)) : Settled runs i

/-- Where nothing is to merge the loop changes nothing, whatever its fuel. -/
theorem compactLoop_of_settled (fuel i : Nat) (runs : List Nat) (h : Settled runs i) : compactLoop fuel i runs = runs := by
  induction fuel generalizing i with
  | zero => rfl
  | succ fuel ih =>
    cases h with
    | past hpast => simp [compactLoop, hpast]
    | free hfree hnext => simp [compactLoop, hfree, ih _ hnext]
    | run hrun hfree hnext =>
      unfold runEnd at hfree hnext
      simp [compactLoop, hrun, hfree, ih _ hnext]

/-- With fuel for the offsets behind `i` and behind its run, the loop leaves nothing to merge: scanning on shortens the first
rest, a merge the second. -/
theorem compactLoop_settled (fuel i : Nat) (runs : List Nat)
    (h : (runs.length - i) + (runs.length - runEnd runs i) ≤ fuel) : Settled (compactLoop fuel i runs) i := by
  fun_induction compactLoop fuel i runs with
  | case1 i runs => exact .past (by omega)
  | case2 fuel i runs hpast => exact .past hpast
  | case3 fuel i runs hinside hfree ih =>
    refine .free ((compactLoop_runAt_of_lt fuel (i + 1) runs (by omega)).trans hfree) (ih ?_)
    unfold runEnd at *
    omega
  | case4 fuel i runs hinside hrun j hnext ih =>
    have hmerge : Adjacent runs i := ⟨hrun, hnext.2⟩
    have hgrown : runEnd runs i < runEnd (absorb runs i) i := hmerge.runEnd_lt_runEnd_absorb
    have hend : runEnd runs i < runs.length := hnext.1
    refine ih ?_
    change (absorb runs i).length - i + ((absorb runs i).length - runEnd (absorb runs i) i) ≤ fuel
    rw [absorb_length]
    omega
  | case5 fuel i runs hinside hrun j hnext ih =>
    have hkept : runAt (compactLoop fuel j runs) i = runAt runs i := compactLoop_runAt_of_lt fuel j runs (by omega)
    have hend : runEnd (compactLoop fuel j runs) i = j := congrArg (i + ·) hkept
    have hfree : runAt runs j = 0 := by
      by_contra hne
      exact hnext ⟨lt_length_of_runAt hne, hne⟩
    have hsettled : Settled (compactLoop fuel j runs) j := ih (by unfold runEnd at *; omega)
    exact .run (by rwa [hkept]) (by rw [hend]; exact compactLoop_runAt_of_free fuel j runs hfree) (by rwa [hend])

/-- Runs that do not overlap and leave nothing to merge have no two adjacent ones: the offsets the walk leaves out lie
inside a run. -/
theorem Settled.not_adjacent {runs : List Nat} {i : Nat} (h : Settled runs i) (hdisjoint : runsDisjoint runs) {k : Nat}
    (hk : i ≤ k) : ¬ Adjacent runs k := by
  rintro ⟨hrun, hnext⟩
  induction h with
  | past hpast => exact hrun (runAt_eq_zero (by omega))
  | @free i hfree _ ih =>
    have hne : k ≠ i := by
      rintro rfl
      exact hrun hfree
    exact ih (by omega)
  | @run i hstart hfree _ ih =>
    have hne : k ≠ i := by
      rintro rfl
      exact hnext hfree
    exact ih ((hdisjoint i hstart).2 k (by omega) hrun)

/-! ## `compact_writes` (R205) -/

theorem compactRuns_keeps {P : List Nat → Prop} (hmerge : ∀ runs i, Adjacent runs i → P runs → P (absorb runs i))
    {runs : List Nat} (h : P runs) : P (compactRuns runs) :=
  compactLoop_keeps hmerge _ _ _ h

theorem compactRuns_settled (runs : List Nat) : Settled (compactRuns runs) 0 :=
  compactLoop_settled _ _ _ (by omega)

/-- Settles O50: a compacted list leaves the second pass nothing to merge. -/
theorem compactionIsIdempotent : Obligations.CompactionIsIdempotent := fun runs =>
  compactLoop_of_settled _ _ _ (compactRuns_settled runs)

/-- Settles O51: merging keeps the runs disjoint, and disjoint runs that leave nothing to merge are nowhere adjacent. -/
theorem compactionLeavesNoAdjacentRuns : Obligations.CompactionLeavesNoAdjacentRuns := by
  intro runs i hdisjoint hrun
  have hkept : runsDisjoint (compactRuns runs) := compactRuns_keeps (fun _ _ hmerge => hmerge.runsDisjoint_absorb) hdisjoint
  by_contra hnext
  exact (compactRuns_settled runs).not_adjacent hkept (Nat.zero_le i) ⟨hrun, hnext⟩

/-- Settles O52: no merge changes the sum, the length or the covered offsets. -/
theorem compactionKeepsPendingBytes : Obligations.CompactionKeepsPendingBytes := fun runs =>
  ⟨compactRuns_keeps (P := fun out => out.sum = runs.sum) (fun _ _ hmerge h => hmerge.absorb_sum.trans h) rfl,
    compactRuns_keeps (P := fun out => out.length = runs.length) (fun out i _ h => (absorb_length out i).trans h) rfl,
    fun o => compactRuns_keeps (P := fun out => pending out o ↔ pending runs o)
      (fun _ _ hmerge h => (hmerge.pending_absorb o).trans h) Iff.rfl⟩

/-! ## One part of a record (R203) -/

/-- What placing one part of a record does: its run and its bytes are there, and everything else is as it was (R203). -/
structure PartPlaced (page off : Nat) (bytes : List Byte) (st st' : Planned) : Prop where
  run : runAt (st'.plans.getD page emptyPlan).runs off = bytes.length
  otherRuns : ∀ o, o ≠ off → runAt (st'.plans.getD page emptyPlan).runs o = runAt (st.plans.getD page emptyPlan).runs o
  bytesToWrite : (st'.plans.getD page emptyPlan).bytesToWrite = (st.plans.getD page emptyPlan).bytesToWrite + bytes.length
  otherPlans : ∀ p, p ≠ page → st'.plans.getD p emptyPlan = st.plans.getD p emptyPlan
  cells : ∀ k, k < bytes.length → (pageBase page + off + k, bytes.getD k 0#8) ∈ st'.image
  image : ∀ c ∈ st.image, c ∈ st'.image

theorem placePart_nil (st : Planned) (page off : Nat) : placePart st page off [] = st := if_pos rfl

theorem mem_partCells {page off k : Nat} {bytes : List Byte} (h : k < bytes.length) :
    (pageBase page + off + k, bytes.getD k 0#8) ∈ partCells page off bytes :=
  List.mem_mapIdx.2 ⟨k, h, by rw [List.getD_eq_getElem _ _ h]⟩

theorem modify_getD_self {plans : List PagePlan} {page : Nat} (f : PagePlan → PagePlan) (h : page < plans.length) :
    (plans.modify page f).getD page emptyPlan = f (plans.getD page emptyPlan) := by
  simp [h]

theorem modify_getD_ne {plans : List PagePlan} {page p : Nat} (f : PagePlan → PagePlan) (h : p ≠ page) :
    (plans.modify page f).getD p emptyPlan = plans.getD p emptyPlan := by
  simp [List.getElem?_modify_ne _ _ h.symm]

theorem getD_runs_length {plans : List PagePlan} (h : ∀ plan ∈ plans, plan.runs.length = 512) (page : Nat) :
    (plans.getD page emptyPlan).runs.length = 512 := by
  by_cases hpage : page < plans.length
  · rw [List.getD_eq_getElem _ _ hpage]
    exact h _ (List.getElem_mem hpage)
  · rw [List.getD_eq_default _ _ (by omega)]
    exact List.length_replicate

@[simp] theorem placePart_plans_length (st : Planned) (page off : Nat) (bytes : List Byte) :
    (placePart st page off bytes).plans.length = st.plans.length := by
  unfold placePart
  split <;> simp

theorem placePart_placed {st : Planned} {page off : Nat} {bytes : List Byte} (hbytes : bytes ≠ [])
    (hpage : page < st.plans.length) (hoff : off < (st.plans.getD page emptyPlan).runs.length) :
    PartPlaced page off bytes st (placePart st page off bytes) := by
  rw [placePart, if_neg hbytes]
  have hplan := modify_getD_self (fun plan => recordRun plan off bytes.length) hpage
  exact {
    run := (congrArg (fun plan => runAt plan.runs off) hplan).trans (runAt_set_self hoff _)
    otherRuns := fun o ho => (congrArg (fun plan => runAt plan.runs o) hplan).trans (runAt_set_ne ho _)
    bytesToWrite := congrArg PagePlan.bytesToWrite hplan
    otherPlans := fun p hp => modify_getD_ne _ hp
    cells := fun k hk => List.mem_append_right _ (mem_partCells hk)
    image := fun c hc => List.mem_append_left _ hc }

/-! ## One data record (R201, R202) -/

/-- The model's range test in explicit numbers. -/
theorem outsideFlash_iff (addr count : Nat) :
    (Config.pagesCnt ≤ addr / Config.pageSize ∨
        (0 < addr % Config.pageSize + count - Config.pageSize ∧ Config.pagesCnt ≤ addr / Config.pageSize + 1)) ↔
      32 ≤ addr / 512 ∨ (512 < addr % 512 + count ∧ 32 ≤ addr / 512 + 1) := by
  simp only [Config.pageSize, Config.pagesCnt]
  omega

section Record
variable {offset addr count : Nat} {st : Planned} {r : HexRecord}

theorem placeRecord_empty (hcount : r.payload.length = 0) : placeRecord offset st r = .ok st := if_pos hcount

theorem placeRecord_outside (haddr : addr = r.address.toNat + offset) (hcount : count = r.payload.length) (hpos : 0 < count)
    (hrange : 32 ≤ addr / 512 ∨ (512 < addr % 512 + count ∧ 32 ≤ addr / 512 + 1)) :
    placeRecord offset st r = .error (.error .bufferTooSmall) := by
  subst haddr hcount
  exact (if_neg hpos.ne').trans (if_pos ((outsideFlash_iff _ _).2 hrange))

/-- A record inside flash of which no byte is planned: `cut` bytes at its offset, and the rest on the next page. -/
theorem placeRecord_inside {cut : Nat} (haddr : addr = r.address.toNat + offset) (hcount : count = r.payload.length)
    (hpos : 0 < count) (hrange : ¬ (32 ≤ addr / 512 ∨ (512 < addr % 512 + count ∧ 32 ≤ addr / 512 + 1)))
    (hfree : alreadyPlanned st addr count = false) (hcut : count - (addr % 512 + count - 512) = cut) :
    placeRecord offset st r =
      .ok (placePart (placePart st (addr / 512) (addr % 512) (r.payload.take cut)) (addr / 512 + 1) 0
        (r.payload.drop cut)) := by
  subst haddr hcount hcut
  exact (if_neg hpos.ne').trans ((if_neg ((outsideFlash_iff _ _).not.2 hrange)).trans (if_neg (by simp [hfree])))

end Record

/-- A record on one page is one part of it (R201). -/
theorem placeRecord_onePage {offset addr : Nat} {st : Planned} {r : HexRecord} (haddr : addr = r.address.toNat + offset)
    (hpos : 0 < r.payload.length) (hpage : addr / 512 < 32) (hfits : addr % 512 + r.payload.length ≤ 512)
    (hfree : alreadyPlanned st addr r.payload.length = false) (hlength : st.plans.length = 32)
    (hruns : ∀ plan ∈ st.plans, plan.runs.length = 512) :
    ∃ st', placeRecord offset st r = .ok st' ∧ PartPlaced (addr / 512) (addr % 512) r.payload st st' := by
  refine ⟨placePart st (addr / 512) (addr % 512) r.payload, ?_, ?_⟩
  · rw [placeRecord_inside haddr rfl hpos (by omega) hfree (cut := r.payload.length) (by omega), List.take_length,
      List.drop_length, placePart_nil]
  · exact placePart_placed (List.ne_nil_of_length_pos hpos) (by omega) (by rw [getD_runs_length hruns]; omega)

/-- A record over a page boundary is one part at the end of its page and one at the start of the next (R202). -/
theorem placeRecord_twoPages {offset addr : Nat} {st : Planned} {r : HexRecord} (haddr : addr = r.address.toNat + offset)
    (hpage : addr / 512 + 1 < 32) (hspills : 512 < addr % 512 + r.payload.length)
    (hfree : alreadyPlanned st addr r.payload.length = false) (hlength : st.plans.length = 32)
    (hruns : ∀ plan ∈ st.plans, plan.runs.length = 512) :
    ∃ st₁ st₂, placeRecord offset st r = .ok st₂ ∧
      PartPlaced (addr / 512) (addr % 512) (r.payload.take (512 - addr % 512)) st st₁ ∧
      PartPlaced (addr / 512 + 1) 0 (r.payload.drop (512 - addr % 512)) st₁ st₂ := by
  have hfirst := placePart_placed (st := st) (page := addr / 512) (off := addr % 512)
    (bytes := r.payload.take (512 - addr % 512)) (List.ne_nil_of_length_pos (by rw [List.length_take]; omega)) (by omega)
    (by rw [getD_runs_length hruns]; omega)
  refine ⟨_, _, placeRecord_inside haddr rfl (by omega) (by omega) hfree (by omega), hfirst, placePart_placed ?_ ?_ ?_⟩
  · exact List.ne_nil_of_length_pos (by rw [List.length_drop]; omega)
  · rw [placePart_plans_length]
    omega
  · rw [hfirst.otherPlans _ (by omega), getD_runs_length hruns]
    omega

/-- The bytes of a list cut in two stand at consecutive addresses. -/
theorem PartPlaced.cells_append {addr cut : Nat} {bytes : List Byte} {st st₁ st₂ : Planned}
    (hfirst : PartPlaced (addr / 512) (addr % 512) (bytes.take cut) st st₁)
    (hsecond : PartPlaced (addr / 512 + 1) 0 (bytes.drop cut) st₁ st₂) (hcut : addr % 512 + cut = 512) {k : Nat}
    (hk : k < bytes.length) : (addr + k, bytes.getD k 0#8) ∈ st₂.image := by
  by_cases hbefore : k < cut
  · have hcell := hsecond.image _ (hfirst.cells k (by rw [List.length_take]; omega))
    have haddr : pageBase (addr / 512) + addr % 512 + k = addr + k := by rw [pageBase, Config.pageSize, Nat.div_add_mod]
    rwa [haddr, List.getD_eq_getElem?_getD, List.getElem?_take_of_lt hbefore, ← List.getD_eq_getElem?_getD] at hcell
  · have hcell := hsecond.cells (k - cut) (by rw [List.length_drop]; omega)
    have haddr : pageBase (addr / 512 + 1) + 0 + (k - cut) = addr + k := by
      simp only [pageBase, Config.pageSize]
      omega
    rwa [haddr, List.getD_eq_getElem?_getD, List.getElem?_drop, Nat.add_sub_cancel' (by omega),
      ← List.getD_eq_getElem?_getD] at hcell

/-- Settles O53: each clause is a branch of the record's placing, and the parts of a placed one say the rest. -/
theorem recordIsPlannedByPage : Obligations.RecordIsPlannedByPage := by
  rintro offset st r addr count page off hlength hruns - hcount - haddr rfl rfl
  refine ⟨fun hempty => ?_, fun hpos hrange => ?_, fun hpos hpage hfits hfree => ?_, fun hpage hspills hfree => ?_⟩
  · exact placeRecord_empty (hcount ▸ hempty)
  · exact placeRecord_outside haddr hcount hpos hrange
  · subst hcount
    obtain ⟨st', hplaced, hpart⟩ := placeRecord_onePage haddr hpos hpage hfits hfree hlength hruns
    refine ⟨st', hplaced, hpart.run, hpart.otherRuns, hpart.bytesToWrite, hpart.otherPlans, fun k hk => ?_, hpart.image⟩
    have hcell := hpart.cells k hk
    rwa [pageBase, Config.pageSize, Nat.div_add_mod] at hcell
  · subst hcount
    obtain ⟨st₁, st₂, hplaced, hfirst, hsecond⟩ := placeRecord_twoPages haddr hpage hspills hfree hlength hruns
    have hleft : (r.payload.take (512 - addr % 512)).length = 512 - addr % 512 := by
      rw [List.length_take]
      omega
    have hright := List.length_drop (l := r.payload) (i := 512 - addr % 512)
    have hpageKept := hsecond.otherPlans (addr / 512) (by omega)
    have hnextKept := hfirst.otherPlans (addr / 512 + 1) (by omega)
    refine ⟨st₂, hplaced, ?_, ?_, ?_, hsecond.run.trans hright, ?_, ?_, fun p hpage hnext => ?_, fun k hk => ?_,
      fun c hc => hsecond.image c (hfirst.image c hc)⟩
    · rw [hpageKept, hfirst.run, hleft]
    · rw [hpageKept]
      exact hfirst.otherRuns
    · rw [hpageKept, hfirst.bytesToWrite, hleft]
    · rw [← hnextKept]
      exact hsecond.otherRuns
    · rw [hsecond.bytesToWrite, hnextKept, hright]
    · exact (hsecond.otherPlans p hnext).trans (hfirst.otherPlans p hpage)
    · exact hfirst.cells_append hsecond (by omega) hk

end Sys2Proof.Machine

/-! SUPPORT and proofs of the family "smart writer" (spec/44_smart_writer.md): which offsets the writer looks at, what the
analysis of a page answers, and the bytes of the merged page. -/

namespace Sys2Proof.Machine

/-! ## The offsets of a plan's runs (R215) -/

/-- The offsets the writer walks over are those the runs cover. -/
theorem mem_coveredOffsets {runs : List Nat} {o : Nat} : o ∈ coveredOffsets runs ↔ pending runs o := by
  simp only [coveredOffsets, List.mem_flatMap, List.mem_map, List.mem_range]
  constructor
  · rintro ⟨i, -, k, hk, rfl⟩
    exact ⟨i, by omega, by omega⟩
  · rintro ⟨i, hfrom, hto⟩
    exact ⟨i, lt_length_of_runAt (by omega), o - i, by omega, by omega⟩

/-! ## One byte (R218, R222) -/

theorem eraseBit_eq_true_iff {current target : Byte} :
    eraseBit current target = true ↔ ~~~current &&& target ≠ 0#8 := decide_eq_true_iff

/-- A byte needs no erase exactly where ANDing the target's byte into it leaves the target's byte. -/
theorem eraseBit_eq_false_iff {current target : Byte} :
    eraseBit current target = false ↔ current &&& target = target := by
  rw [eraseBit, decide_eq_false_iff_not, not_not, BitVec.eq_of_getLsbD_eq_iff, BitVec.eq_of_getLsbD_eq_iff]
  refine forall₂_congr fun i hi => ?_
  simp only [BitVec.getLsbD_and, BitVec.getLsbD_not, BitVec.getLsbD_zero, hi, decide_true, Bool.true_and]
  cases current.getLsbD i <;> simp

/-- A byte that is to stay as it is needs no erase. -/
@[simp] theorem eraseBit_self (b : Byte) : eraseBit b b = false := eraseBit_eq_false_iff.mpr BitVec.and_self

/-! ## The analysis of a page (R217, R218) -/

theorem analysePlan_eraseNeeded_iff {plan : PagePlan} {current target : List Byte} :
    (analysePlan plan current target).eraseNeeded = true ↔
      plan.eraseNeeded = true ∨ ∃ o, pending plan.runs o ∧ eraseBit (pageByte current o) (pageByte target o) = true := by
  simp only [analysePlan, Bool.or_eq_true, List.any_eq_true, mem_coveredOffsets]

theorem analysePlan_writeNeeded_iff {plan : PagePlan} {current target : List Byte} :
    (analysePlan plan current target).writeNeeded = true ↔
      plan.writeNeeded = true ∨ ∃ o, pending plan.runs o ∧ pageByte target o ≠ pageByte current o := by
  simp only [analysePlan, Bool.or_eq_true, List.any_eq_true, mem_coveredOffsets, decide_eq_true_eq]

/-- Where the planned bytes are all there already, the analysis leaves the plan as it is. -/
theorem analysePlan_eq_self {plan : PagePlan} {current target : List Byte}
    (hequal : ∀ o, pending plan.runs o → pageByte target o = pageByte current o) :
    analysePlan plan current target = plan := by
  have herase : (analysePlan plan current target).eraseNeeded = plan.eraseNeeded := by
    refine Bool.eq_iff_iff.mpr (analysePlan_eraseNeeded_iff.trans (or_iff_left ?_))
    rintro ⟨o, ho, hbit⟩
    rw [hequal o ho, eraseBit_self] at hbit
    cases hbit
  have hwrite : (analysePlan plan current target).writeNeeded = plan.writeNeeded := by
    refine Bool.eq_iff_iff.mpr (analysePlan_writeNeeded_iff.trans (or_iff_left ?_))
    rintro ⟨o, ho, hdiffers⟩
    exact hdiffers (hequal o ho)
  calc analysePlan plan current target
      = { plan with
          eraseNeeded := (analysePlan plan current target).eraseNeeded
          writeNeeded := (analysePlan plan current target).writeNeeded } := rfl
    _ = plan := by rw [herase, hwrite]

/-- Settles O54: a byte that needs an erase differs from its target, as a byte that stays needs none. -/
theorem necessityAnalysis : Obligations.NecessityAnalysis := by
  intro plan current target herase hwrite
  simp only [analysePlan_eraseNeeded_iff, analysePlan_writeNeeded_iff, herase, hwrite, Bool.false_eq_true, false_or]
  refine ⟨by simp only [eraseBit_eq_true_iff], trivial, ?_⟩
  rintro ⟨o, ho, hbit⟩
  refine ⟨o, ho, fun hequal => ?_⟩
  rw [hequal, eraseBit_self] at hbit
  cases hbit

/-! ## The merged page (R221) -/

/-- The target's byte laid over one offset of the page. -/
def layByte (target page : List Byte) (i : Nat) : List Byte := page.set i (pageByte target i)

@[simp] theorem layByte_length (target page : List Byte) (i : Nat) : (layByte target page i).length = page.length :=
  List.length_set

theorem pageByte_layByte {target page : List Byte} {i o : Nat} (ho : o < page.length) :
    pageByte (layByte target page i) o = if o = i then pageByte target o else pageByte page o := by
  split
  · next h =>
    subst h
    simp [layByte, pageByte, ho]
  · next h => simp [layByte, pageByte, List.getElem?_set_ne (Ne.symm h)]

/-- Laying the target over several offsets: the order does not matter, nor how often an offset comes. -/
theorem pageByte_foldl_layByte {target : List Byte} (offsets : List Nat) {page : List Byte} {o : Nat}
    (ho : o < page.length) :
    pageByte (offsets.foldl (layByte target) page) o =
      if o ∈ offsets then pageByte target o else pageByte page o := by
  induction offsets generalizing page with
  | nil => rfl
  | cons i offsets ih =>
    rw [List.foldl_cons, ih (by rwa [layByte_length]), pageByte_layByte ho]
    by_cases hlater : o ∈ offsets <;> simp [hlater]

theorem mergedPage_eq_foldl (runs : List Nat) (current target : List Byte) :
    mergedPage runs current target = (coveredOffsets runs).foldl (layByte target) current := rfl

theorem pageByte_mergedPage_of_pending {runs : List Nat} {current target : List Byte} {o : Nat}
    (ho : o < current.length) (hpending : pending runs o) :
    pageByte (mergedPage runs current target) o = pageByte target o := by
  rw [mergedPage_eq_foldl, pageByte_foldl_layByte _ ho, if_pos (mem_coveredOffsets.mpr hpending)]

theorem pageByte_mergedPage_of_not_pending {runs : List Nat} {current target : List Byte} {o : Nat}
    (ho : o < current.length) (hfree : ¬ pending runs o) :
    pageByte (mergedPage runs current target) o = pageByte current o := by
  rw [mergedPage_eq_foldl, pageByte_foldl_layByte _ ho, if_neg (hfree ∘ mem_coveredOffsets.mp)]

/-- Settles O55: a pending byte that needs no erase ANDs to the target's, any other byte ANDs with itself. -/
theorem mergeAndProgram : Obligations.MergeAndProgram := by
  intro plan current target o ho
  refine ⟨pageByte_mergedPage_of_pending ho, pageByte_mergedPage_of_not_pending ho, fun herase => ?_⟩
  by_cases hpending : pending plan.runs o
  · rw [pageByte_mergedPage_of_pending ho hpending, ← eraseBit_eq_false_iff]
    by_contra hbit
    have hneeded := analysePlan_eraseNeeded_iff.mpr (.inr ⟨o, hpending, Bool.eq_true_of_not_eq_false hbit⟩)
    exact Bool.false_ne_true (herase.symm.trans hneeded)
  · rw [pageByte_mergedPage_of_not_pending ho hpending, BitVec.and_self]

/-! ## The skip (R217) -/

/-- Settles O56: the analysis leaves the plan as it is, so no write is needed and the mutation changes nothing. -/
theorem equalPageIsSkipped : Obligations.EqualPageIsSkipped := by
  intro plan page target backup isInfo s hwrite hequal
  have hplan := analysePlan_eq_self hequal
  obtain ⟨hneeded, -⟩ | ⟨-, hskip⟩ := smartDecideStep_cases plan page target backup isInfo s
  · rw [hplan, hwrite] at hneeded
    cases hneeded
  · rw [runTask, hskip, hplan, s.mutatePlan_self]

end Sys2Proof.Machine

/-! SUPPORT and proofs of the family "SPI sequencer" (spec/45_spi_sequencer.md): the frames of a transfer written out, what
each of them and each change between two of them does to the lines, how the buffer is cut into chunks, that both transports
mean the same, and the session operations. -/

namespace Sys2Proof.Machine

/-! ## Frame level and wire level (R244) -/

/-- Settles O31: the target assembles the buffer out of the bits the frames shift in, and the block the response out of the
samples. -/
theorem frameLevelDeliversWireLevel : Obligations.FrameLevelDeliversWireLevel := by
  intro p l m r hp hidle hfifo hlength
  have hbits := congrArg bytesOfBits (runPhases_transfer_bits hp [] m hidle)
  obtain ⟨hresponse, -⟩ := runPhases_transfer_recovered hp hidle hfifo hlength
  exact ⟨hbits.trans (bytesOfBits_bufferBits m), hresponse⟩

/-! ## The frames of a transfer, written out (R240, R242, R243) -/

theorem bitFrames_append (p : Params) (pins : Byte) (bits more : List Bool) :
    bitFrames p pins (bits ++ more) = bitFrames p pins bits ++ bitFrames p (pinsAfterBits p pins bits) more := by
  induction bits generalizing pins with
  | nil => rfl
  | cons v vs ih =>
    calc bitCell p pins v ++ bitFrames p (cellLow p pins v) (vs ++ more)
        = bitCell p pins v ++ (bitFrames p (cellLow p pins v) vs ++
            bitFrames p (pinsAfterBits p (cellLow p pins v) vs) more) := by rw [ih]
      _ = _ := (List.append_assoc _ _ _).symm

/-- Cutting the buffer into chunks leaves no trace in the frames: they are those of the bits in one row. -/
theorem chunkPhases_flatMap_frames (p : Params) (pins : Byte) (cs : List (List Byte)) :
    (chunkPhases p pins cs).flatMap Phase.frames = bitFrames p pins (bufferBits cs.flatten) := by
  induction cs generalizing pins with
  | nil => rfl
  | cons c cs ih => rw [chunkPhases, List.flatMap_cons, ih, List.flatten_cons, bufferBits_append, bitFrames_append]

/-- The leading chip-select frame, the frames of the buffer's bits, the trailing chip-select frame. -/
theorem transferFrames_eq {p : Params} (hp : p.wf = true) (pins : Byte) (m : List Byte) :
    transferFrames p pins m =
      selectedPins p pins :: (bitFrames p (selectedPins p pins) (bufferBits m) ++ [pinsAfterTransfer p pins m]) := by
  have hwhole := chunksOf_flatten (params_chunk_pos p hp) m.length m le_rfl
  simp [transferFrames, transferPhases, chunkPhases_flatMap_frames, hwhole]

theorem transferPhases_getLast? (p : Params) (pins : Byte) (m : List Byte) :
    (transferPhases p pins m).getLast? = some { frames := [pinsAfterTransfer p pins m], count := 0 } := by
  rw [transferPhases, ← List.cons_append, List.getLast?_concat]

/-! ## The levels of a transfer's lines (R243, R247) -/

theorem mem_bitCell {p : Params} {pins f : Byte} {v : Bool} :
    f ∈ bitCell p pins v ↔ f = cellSetup p pins v ∨ f = cellHigh p pins v ∨ f = cellLow p pins v := by
  cases hhold : p.hold <;> simp [bitCell, hhold]

theorem bitCell_other {p : Params} {pins f : Byte} {v : Bool} {a : Fin 8} (hsck : a ≠ p.pinSck) (hmosi : a ≠ p.pinMosi)
    (hf : f ∈ bitCell p pins v) : pinLevel f a = pinLevel pins a := by
  have hsetup : pinLevel (cellSetup p pins v) a = pinLevel pins a := pinLevel_setPin_other _ _ _ _ hmosi
  have hhigh : pinLevel (cellHigh p pins v) a = pinLevel pins a := (pinLevel_setPin_other _ _ _ _ hsck).trans hsetup
  obtain rfl | rfl | rfl := mem_bitCell.mp hf
  · exact hsetup
  · exact hhigh
  · exact cellLow_other p pins v a hsck hmosi

/-- No frame of a row of bits moves a line that is neither the clock nor `MOSI`. -/
theorem bitFrames_other {p : Params} {pins f : Byte} {bits : List Bool} {a : Fin 8} (hsck : a ≠ p.pinSck)
    (hmosi : a ≠ p.pinMosi) (hf : f ∈ bitFrames p pins bits) : pinLevel f a = pinLevel pins a := by
  induction bits generalizing pins with
  | nil => exact absurd hf List.not_mem_nil
  | cons v vs ih =>
    obtain hcell | hrest := List.mem_append.mp hf
    · exact bitCell_other hsck hmosi hcell
    · exact (ih hrest).trans (cellLow_other p pins v a hsck hmosi)

theorem cellLow_mosi {p : Params} (hp : p.wf = true) (pins : Byte) (v : Bool) :
    pinLevel (cellLow p pins v) p.pinMosi = v := by
  obtain ⟨hSckMosi, -⟩ := params_distinct p hp
  simp [cellLow, cellHigh, cellSetup, pinLevel_setPin, hSckMosi.symm]

/-- `MOSI` stays at the last bit sent. -/
theorem pinsAfterBits_mosi {p : Params} (hp : p.wf = true) (pins : Byte) (bits : List Bool) :
    pinLevel (pinsAfterBits p pins bits) p.pinMosi = bits.getLastD (pinLevel pins p.pinMosi) := by
  induction bits generalizing pins with
  | nil => rfl
  | cons v vs ih =>
    calc pinLevel (pinsAfterBits p (cellLow p pins v) vs) p.pinMosi
        = vs.getLastD (pinLevel (cellLow p pins v) p.pinMosi) := ih _
      _ = (v :: vs).getLastD (pinLevel pins p.pinMosi) := by rw [cellLow_mosi hp, List.getLastD_cons]

theorem selectedPins_other {p : Params} {a : Fin 8} (pins : Byte) (h : a ≠ p.pinCsn) :
    pinLevel (selectedPins p pins) a = pinLevel pins a := pinLevel_setPin_other _ _ _ _ h

theorem pinsAfterTransfer_mosi {p : Params} (hp : p.wf = true) (pins : Byte) (m : List Byte) :
    pinLevel (pinsAfterTransfer p pins m) p.pinMosi = (bufferBits m).getLastD (pinLevel pins p.pinMosi) := by
  obtain ⟨-, -, -, -, hMosiCsn, -⟩ := params_distinct p hp
  rw [pinsAfterTransfer, pinLevel_setPin_other _ _ _ _ hMosiCsn, pinsAfterBits_mosi hp, selectedPins_other _ hMosiCsn]

theorem pinsAfterTransfer_other {p : Params} {a : Fin 8} (pins : Byte) (m : List Byte) (hsck : a ≠ p.pinSck)
    (hmosi : a ≠ p.pinMosi) (hcsn : a ≠ p.pinCsn) : pinLevel (pinsAfterTransfer p pins m) a = pinLevel pins a := by
  rw [pinsAfterTransfer, pinLevel_setPin_other _ _ _ _ hcsn, pinsAfterBits_other _ _ _ _ hsck hmosi,
    selectedPins_other _ hcsn]

/-- R247: no frame of a transfer moves a line other than the clock, `MOSI` and chip-select. -/
theorem transferFrames_other {p : Params} {pins f : Byte} {m : List Byte} {a : Fin 8} (hp : p.wf = true)
    (hsck : a ≠ p.pinSck) (hmosi : a ≠ p.pinMosi) (hcsn : a ≠ p.pinCsn) (hf : f ∈ transferFrames p pins m) :
    pinLevel f a = pinLevel pins a := by
  rw [transferFrames_eq hp, List.mem_cons, List.mem_append, List.mem_singleton] at hf
  obtain rfl | hbit | rfl := hf
  · exact selectedPins_other _ hcsn
  · exact (bitFrames_other hsck hmosi hbit).trans (selectedPins_other _ hcsn)
  · exact pinsAfterTransfer_other _ _ hsck hmosi hcsn

theorem transferFrames_length {p : Params} (hp : p.wf = true) (pins : Byte) (m : List Byte) :
    (transferFrames p pins m).length = 2 + 8 * p.framesPerBit * m.length := by
  have hbits : (bufferBits m).length * p.framesPerBit = 8 * p.framesPerBit * m.length := by
    rw [bufferBits_length, Nat.mul_right_comm]
  rw [transferFrames_eq hp, List.length_cons, List.length_append, bitFrames_length, hbits, List.length_singleton]
  omega

/-- Settles O32, from the frames written out. -/
theorem chipSelectEnvelope : Obligations.ChipSelectEnvelope := by
  intro p pins m hp hidle
  obtain ⟨-, -, hSckCsn, -, hMosiCsn, -⟩ := params_distinct p hp
  obtain ⟨htrail, -⟩ := pinsAfterTransfer_between m hp hidle
  obtain ⟨hsck, -⟩ := hidle
  refine ⟨selectedPins p pins, pinsAfterTransfer p pins m, bitFrames p (selectedPins p pins) (bufferBits m),
    transferFrames_eq hp pins m, rfl, transferPhases_getLast? p pins m, selectedPins_csn p pins,
    (selectedPins_other _ hSckCsn).trans hsck, selectedPins_other _ hMosiCsn, fun f hf => ?_,
    pinsAfterTransfer_csn p pins m, htrail, pinsAfterTransfer_mosi hp pins m,
    fun f hf a ha hb hc => transferFrames_other hp ha hb hc hf, transferFrames_length hp pins m⟩
  exact (bitFrames_other hSckCsn.symm hMosiCsn.symm hf).trans (selectedPins_csn p pins)

/-! ## From one frame to the next (R240, R318) -/

/-- What R240 and R318 allow between two frames: a rising clock is the only change, and `MOSI` moves under a low clock. -/
def SetUpBeforeClock (p : Params) (f g : Byte) : Prop :=
  (pinLevel f p.pinSck = false → pinLevel g p.pinSck = true → g = setPin f p.pinSck true) ∧
    (pinLevel f p.pinMosi ≠ pinLevel g p.pinMosi → pinLevel f p.pinSck = false ∧ pinLevel g p.pinSck = false)

/-- Under a low clock every other line is free to move. -/
theorem SetUpBeforeClock.of_low {p : Params} {f g : Byte} (hf : pinLevel f p.pinSck = false)
    (hg : pinLevel g p.pinSck = false) : SetUpBeforeClock p f g :=
  ⟨fun _ hrise => absurd (hg.symm.trans hrise) Bool.false_ne_true, fun _ => ⟨hf, hg⟩⟩

/-- The clock alone is free to move. -/
theorem SetUpBeforeClock.clock {p : Params} (hp : p.wf = true) (f : Byte) (v : Bool) :
    SetUpBeforeClock p f (setPin f p.pinSck v) := by
  obtain ⟨hSckMosi, -⟩ := params_distinct p hp
  refine ⟨fun _ hrise => ?_, fun hmoved => ?_⟩
  · rw [pinLevel_setPin_same] at hrise
    rw [hrise]
  · exact absurd (pinLevel_setPin_other f p.pinSck p.pinMosi v hSckMosi.symm).symm hmoved

theorem SetUpBeforeClock.refl (p : Params) (f : Byte) : SetUpBeforeClock p f f :=
  ⟨fun hlow hhigh => absurd (hlow.symm.trans hhigh) Bool.false_ne_true, fun hmoved => absurd rfl hmoved⟩

/-- A bit cell from a low clock, with whatever may follow the pins it leaves: the bit is set up, then only the clock moves. -/
theorem isChain_bitCell {p : Params} (hp : p.wf = true) {pins : Byte} {v : Bool} {rest : List Byte}
    (hsck : pinLevel pins p.pinSck = false)
    (hrest : List.IsChain (SetUpBeforeClock p) (cellLow p pins v :: rest)) :
    List.IsChain (SetUpBeforeClock p) (pins :: (bitCell p pins v ++ rest)) := by
  obtain ⟨hSckMosi, -⟩ := params_distinct p hp
  have hsetup : SetUpBeforeClock p pins (cellSetup p pins v) :=
    .of_low hsck ((pinLevel_setPin_other _ _ _ _ hSckMosi).trans hsck)
  have hrise : SetUpBeforeClock p (cellSetup p pins v) (cellHigh p pins v) := .clock hp _ true
  have hfall : SetUpBeforeClock p (cellHigh p pins v) (cellLow p pins v) := .clock hp _ false
  cases hhold : p.hold with
  | false =>
    simp only [bitCell, hhold, Bool.false_eq_true, if_false, List.cons_append, List.nil_append, List.isChain_cons_cons]
    exact ⟨hsetup, hrise, hfall, hrest⟩
  | true =>
    simp only [bitCell, hhold, if_true, List.cons_append, List.nil_append, List.isChain_cons_cons]
    exact ⟨hsetup, hrise, .refl p _, hfall, hrest⟩

theorem isChain_bitFrames {p : Params} (hp : p.wf = true) {pins : Byte} {bits : List Bool} {rest : List Byte}
    (hsck : pinLevel pins p.pinSck = false)
    (hrest : List.IsChain (SetUpBeforeClock p) (pinsAfterBits p pins bits :: rest)) :
    List.IsChain (SetUpBeforeClock p) (pins :: (bitFrames p pins bits ++ rest)) := by
  induction bits generalizing pins with
  | nil => exact hrest
  | cons v vs ih =>
    rw [bitFrames, List.append_assoc]
    exact isChain_bitCell hp hsck (ih (cellLow_sck p pins v) hrest)

/-- The pins before a transfer and its frames, each against the next. -/
theorem isChain_transferFrames {p : Params} (hp : p.wf = true) {pins : Byte} (m : List Byte)
    (hidle : betweenTransfers p pins) :
    List.IsChain (SetUpBeforeClock p) (pins :: transferFrames p pins m) := by
  obtain ⟨-, -, hSckCsn, -⟩ := params_distinct p hp
  obtain ⟨htrail, -⟩ := pinsAfterTransfer_between m hp hidle
  obtain ⟨hsck, -⟩ := hidle
  have hselected : pinLevel (selectedPins p pins) p.pinSck = false := (selectedPins_other _ hSckCsn).trans hsck
  have hlast := SetUpBeforeClock.of_low (pinsAfterBits_sck p _ (bufferBits m) hselected) htrail
  rw [transferFrames_eq hp]
  exact .cons_cons (.of_low hsck hselected) (isChain_bitFrames hp hselected (.cons_cons hlast (.singleton _)))

/-- Settles O33: the frames of a transfer are a chain of `SetUpBeforeClock`. -/
theorem dataIsSetUpBeforeClock : Obligations.DataIsSetUpBeforeClock := by
  intro p pins m k f g hp hidle hf hg
  obtain ⟨hk, rfl⟩ := List.getElem?_eq_some_iff.mp hf
  obtain ⟨hk', rfl⟩ := List.getElem?_eq_some_iff.mp hg
  exact (isChain_transferFrames hp m hidle).getElem k hk'

/-! ## The chunks of a buffer (R242) -/

theorem chunksOf_nil (k n : Nat) : chunksOf k n [] = [] := by
  cases n <;> rfl

/-- Where a chunk follows, the one before it was cut in full. -/
theorem chunksOf_dropLast_length (k : Nat) :
    ∀ (n : Nat) (m : List Byte), ∀ c ∈ (chunksOf k n m).dropLast, c.length = k
  | 0, _, _, hc => absurd hc List.not_mem_nil
  | _ + 1, [], _, hc => absurd hc List.not_mem_nil
  | n + 1, b :: bs, c, hc => by
    rw [chunksOf] at hc
    cases hrest : chunksOf k n ((b :: bs).drop k) with
    | nil => simp [hrest] at hc
    | cons d ds =>
      rw [hrest, List.dropLast_cons_cons, ← hrest] at hc
      obtain rfl | hc := List.mem_cons.mp hc
      · refine List.length_take_of_le (Nat.le_of_not_le fun hshort => ?_)
        rw [List.drop_of_length_le hshort, chunksOf_nil] at hrest
        cases hrest
      · exact chunksOf_dropLast_length k n _ c hc

/-- Settles O34, from the laws of `chunksOf` and the length of each phase. -/
theorem chunksFitFifo : Obligations.ChunksFitFifo := fun p pins m hp =>
  ⟨chunksOf_flatten (params_chunk_pos p (params_admitted hp).1) _ _ le_rfl, chunksOf_length_le _ _ _,
    chunksOf_dropLast_length _ _ _, transferPhases_frames_le hp pins m⟩

/-! ## Both transports (R235, R249) -/

theorem andThen_next_refused_iff (o : Host.Outcome State Fault Refusal) (f : State → State) (r : Refusal) :
    andThen o (fun s => .next (f s)) = .refused r ↔ o = .refused r := by
  cases o <;> simp [andThen]

/-- A target that took the bytes `m` answers a byte for each of them, and touches neither the bridge's FIFO nor the
environment. -/
theorem receive_answered {m : List Byte} {s t : State} (h : receive m s = .next t) :
    t.resp.length = m.length ∧ t.fifo = s.fifo ∧ t.env = s.env := by
  obtain ⟨rfl, rfl⟩ | ⟨op, rest, i, rfl, hdecode, hexec⟩ := receive_next m s t h
  · exact ⟨rfl, rfl, rfl⟩
  · obtain ⟨hwire, hlength, hencode⟩ := wireBytesHaveOneMeaning _ i hdecode
    obtain ⟨hframe, hresp⟩ := exec_answered hwire hexec
    have henv := hframe.env
    obtain ⟨⟨-, -, -, -, hfifo, -⟩, -⟩ := hframe
    exact ⟨by rw [hresp, ← encode_length, hencode], hfifo, henv⟩

/-- What a completed transfer over the emulator makes of the target's state. -/
def State.emulated (s : State) : State := { s.spendEnv with buffer := s.resp, frames := [] }

theorem emulatorTransfer_ready {s : State} (m : List Byte) (h : transferReady s) :
    emulatorTransfer m s = andThen (receive m s) fun t => .next t.emulated := by
  obtain ⟨-, -, -, -, -, henv⟩ := h
  simp only [emulatorTransfer, henv, State.emulated]

/-- The frames' marks on a received command, as marks on what the emulator makes of it. -/
theorem transferred_eq_emulated {s t : State} {m : List Byte} (h : transferReady s) (ht : receive m s = .next t) :
    t.transferred (transferFrames s.params s.pins m)
        (runPhases s.params (bufferBits t.resp) s.lines (transferPhases s.params s.pins m)) =
      { t.emulated with
        pins := pinsAfterTransfer s.params s.pins m, shiftIn := bufferBits m, shiftPos := 8 * m.length,
        frames := transferFrames s.params s.pins m } := by
  obtain ⟨hlength, hfifo, henv⟩ := receive_answered ht
  rw [transferred_eq h hlength henv]
  obtain ⟨-, -, -, -, hempty, hgo⟩ := h
  simp only [State.emulated, State.spendEnv, hfifo, hempty, henv, hgo, List.tail_nil]

/-- Settles O37: both transports hand the same bytes to the target, and differ in what they put around its answer. -/
theorem transportsAgreeAtWireLevel : Obligations.TransportsAgreeAtWireLevel := by
  intro s m hready
  rw [bitbangTransfer_ready m hready, emulatorTransfer_ready m hready]
  refine ⟨fun r => ?_, fun u hu => ?_, fun t ht => ?_⟩
  · rw [andThen_next_refused_iff, andThen_next_refused_iff]
  · obtain ⟨t, ht, hemulated⟩ := (andThen_next _ _ _).mp hu
    cases hemulated
    rw [ht]
    exact congrArg Host.Outcome.next (transferred_eq_emulated hready ht)
  · obtain ⟨u, hu, -⟩ := (andThen_next _ _ _).mp ht
    exact ⟨u.emulated, by rw [hu]; rfl⟩

/-! ## `begin` and `end` (R236 to R238) -/

theorem eq_of_pinLevel_eq {x y : Byte} (h : ∀ a : Fin 8, pinLevel x a = pinLevel y a) : x = y :=
  BitVec.eq_of_getLsbD_eq fun i hi => h ⟨i, hi⟩

/-- A line moved and moved back. -/
theorem setPin_setPin_self {x : Byte} {a : Fin 8} {v : Bool} (w : Bool) (h : pinLevel x a = v) :
    setPin (setPin x a w) a v = x := by
  refine eq_of_pinLevel_eq fun b => ?_
  by_cases hb : b = a
  · rw [hb, pinLevel_setPin_same, h]
  · rw [pinLevel_setPin_other _ _ _ _ hb, pinLevel_setPin_other _ _ _ _ hb]

/-- The reset pulse of program-mode entry ends on idle pins (R237). -/
theorem entryEnd_eq_idlePins {p : Params} (hp : p.wf = true) : entryEnd p = idlePins p := by
  obtain ⟨-, -, -, -, -, -, -, -, -, -, -, -, hResetProg⟩ := params_distinct p hp
  have hreset : pinLevel (idlePins p) p.pinReset = true := by
    rw [idlePins, pinLevel_setPin_other _ _ _ _ hResetProg, pinLevel_setPin_same]
  exact setPin_setPin_self false hreset

/-- With nothing in its way, `begin` drives the frames of program-mode entry and leaves idle pins. -/
theorem openStep_enters {s : State} (bus port : Nat) (hlink : s.linkOpen = false) (henv : s.env = [])
    (hbackend : s.params.backend = .bitbang) (hp : s.params.wf = true) :
    openStep bus port s = .next (s.entered (entryFrames s.params) (idlePins s.params)) := by
  simp [openStep, hlink, henv, hbackend, bitbangEntry, hp, failingPhase, runPhases_entry_levels, entryEnd_eq_idlePins hp]

/-- `begin` and the settle wait behind it, in two steps. -/
theorem runSteps_begin {s : State} {bus port : Nat} {ts : List Task} (hlink : s.linkOpen = false) (henv : s.env = [])
    (hbackend : s.params.backend = .bitbang) (hp : s.params.wf = true) (htasks : s.tasks = .openLink bus port :: ts) :
    runSteps 2 s = .next { settleStep ({ s with tasks := ts }.entered (entryFrames s.params) (idlePins s.params)) with
      tasks := ts } := by
  have hopen : step s = .next ({ s with tasks := ts }.entered (entryFrames s.params) (idlePins s.params)) := by
    rw [step_eq_runTask (by simp [henv]) htasks, runTask]
    exact openStep_enters (s := { s with tasks := ts }) bus port hlink henv hbackend hp
  rw [runSteps_succ hopen, runSteps_one,
    step_eq_runTask (task := .settle) (ts := ts) (by simp [State.entered, State.spendEnv, State.targetReset, henv]) rfl]
  rfl

/-- Settles O38: the reset pulse ends on the idle pins it began with, and the settle wait sets the mode. -/
theorem beginEntersProgramMode : Obligations.BeginEntersProgramMode := by
  intro s bus port ts hlink henv hbackend hp htasks
  have hend : setPin (setPin (idlePins s.params) s.params.pinReset false) s.params.pinReset true = idlePins s.params :=
    entryEnd_eq_idlePins hp
  have hidle : betweenTransfers s.params (idlePins s.params) := entryEnd_eq_idlePins hp ▸ entryEnd_between hp
  refine ⟨by rw [entryFrames, hend], _, runSteps_begin hlink henv hbackend hp htasks, ?_⟩
  exact ⟨rfl, rfl, rfl, hidle, rfl, rfl, rfl, rfl, rfl, fun _ => rfl, fun _ => rfl⟩

/-- Settles O39: the two exits of `openStep` before any frame is driven. -/
theorem beginWithoutEffect : Obligations.BeginWithoutEffect := by
  intro s bus port
  refine ⟨fun hopen => if_pos hopen, fun hclosed es henv => ?_⟩
  simp [openStep, hclosed, henv, State.spendEnv, State.raise]

/-- Settles O40: `closeStep` on a closed and on an open link. -/
theorem endClosesLink : Obligations.EndClosesLink := by
  intro s
  refine ⟨fun hclosed => ?_, fun hopen => ?_⟩
  · simp [closeStep, hclosed]
  · simp [closeStep, hopen]

/-! ## `transfer` and `transfer_scattered` up to their frames (R239, R245) -/

/-- Settles O41: the two tests of `transferStep` before the backend's turn. -/
theorem transferNeedsIntactLink : Obligations.TransferNeedsIntactLink := by
  intro s m
  refine ⟨fun hclosed => if_pos hclosed, fun hopen hlost => ?_⟩
  simp [transferStep, hopen, hlost]

/-- The two header bytes of an address that fits them (R55, R85). -/
theorem eq_addressHi_addressLo {address : Nat} (h : address < 65536) :
    address = 256 * (addressHi (BitVec.ofNat 16 address)).toNat + (addressLo (BitVec.ofNat 16 address)).toNat := by
  rw [← addressOf_toNat, addressOf_hi_lo, BitVec.toNat_ofNat, Nat.mod_eq_of_lt h]

/-- Settles O42: the tests of `scatteredStep` in their order, opcode before address. -/
theorem scatteredHeader : Obligations.ScatteredHeader := by
  intro op address buffer s
  have hadmitted : op = 0x03#8 ∨ op = 0x02#8 → ¬ (op ≠ 0x03#8 ∧ op ≠ 0x02#8) := by tauto
  refine ⟨fun hop hfits => ⟨_, _, eq_addressHi_addressLo hfits, ?_⟩, fun hop hwide => ?_, fun hread hprogram => ?_⟩
  · rw [scatteredStep, if_neg (hadmitted hop), if_neg (Nat.not_le.mpr hfits)]
  · rw [scatteredStep, if_neg (hadmitted hop), if_pos hwide]
  · exact if_pos ⟨hread, hprogram⟩

end Sys2Proof.Machine

/-! SUPPORT and proofs of the family "exceptions" (spec/60_exceptions.md): what one step can make of the outcome, by the
classes of the taxonomy (R270), and that the tests which raise a protocol error change nothing else (R274, R276). -/

namespace Sys2Proof.Machine

/-! ## What a step reports (R270) -/

/-- What the outcome of `t`, one step after `s`, can be. A protocol error leaves no choice of the state: `t` is the
`raise` of `s` itself, where a decode or a transport error may come with what the step did before it. -/
inductive Reports (s : State) : State → Prop where
  | nothing {t : State} (h : t.outcome = s.outcome) : Reports s t
  | success {t : State} {v : Value} (h : t.outcome = some (.ok v)) : Reports s t
  | decodeError {t : State} {e : DecodeError} (h : t.outcome = some (.error (.decode e))) : Reports s t
  | transportError {t : State} {e : TransportError} (h : t.outcome = some (.error (.transport e))) : Reports s t
  | protocolError (e : ProtocolError) : Reports s (s.raise (.protocol e))

theorem Reports.of_next {s t u : State} (hu : Reports s u)
    (h : (.next u : Host.Outcome State Fault Refusal) = .next t) : Reports s t :=
  Host.Outcome.next.inj h ▸ hu

theorem Reports.of_next_outcome_eq {s t u : State} (h : (.next u : Host.Outcome State Fault Refusal) = .next t)
    (hu : u.outcome = s.outcome) : Reports s t :=
  .of_next (.nothing hu) h

/-- A protocol error that was not the outcome before is this step's `raise`. -/
theorem Reports.eq_raise {s t : State} {e : ProtocolError} (h : Reports s t)
    (hbefore : s.outcome ≠ some (.error (.protocol e))) (hafter : t.outcome = some (.error (.protocol e))) :
    t = s.raise (.protocol e) := by
  cases h with
  | nothing hkept => exact absurd (hkept.symm.trans hafter) hbefore
  | success hok => cases hok.symm.trans hafter
  | decodeError herror => cases herror.symm.trans hafter
  | transportError herror => cases herror.symm.trans hafter
  | protocolError e' =>
    cases hafter
    rfl

/-! ## The transfer and the session: transport errors alone (R246) -/

theorem phaseError_transport (write : Bool) : ∃ e, phaseError write = .transport e := by
  cases write with
  | true => exact ⟨.writeFailed, rfl⟩
  | false => exact ⟨.readFailed, rfl⟩

/-- A failed phase is reported as a transport error, whatever state `u` the step had come to. -/
theorem raise_phaseError_reports (s u : State) (write : Bool) : Reports s (u.raise (phaseError write)) := by
  obtain ⟨e, he⟩ := phaseError_transport write
  rw [he]
  exact .transportError rfl

theorem commandFrame.outcome {s t : State} (h : commandFrame s t) : t.outcome = s.outcome := by
  simp only [commandFrame, sameOutsideTarget] at h
  tauto

theorem receive_outcome {m : List Byte} {s t : State} (h : receive m s = .next t) : t.outcome = s.outcome := by
  obtain ⟨-, rfl⟩ | ⟨op, rest, i, -, hdecode, hexec⟩ := receive_next _ _ _ h
  · rfl
  · obtain ⟨hwire, -⟩ := wireBytesHaveOneMeaning _ i hdecode
    exact (exec_answered hwire hexec).frame.outcome

theorem transferStep_reports {m : List Byte} {s t : State} (h : transferStep m s = .next t) : Reports s t := by
  obtain ⟨-, -, ⟨-, htransfer⟩ | ⟨-, htransfer⟩⟩ := transferStep_next _ _ _ h
  · obtain ⟨-, -, ⟨-, u, hu, rfl⟩ | ⟨j, write, u, -, -, rfl⟩⟩ := bitbangTransfer_next _ _ _ htransfer
    · have hkept := receive_outcome hu
      exact .nothing hkept
    · exact raise_phaseError_reports s _ write
  · obtain ⟨u, hu, rfl⟩ | ⟨write, u, -, rfl⟩ := emulatorTransfer_next _ _ _ htransfer
    · have hkept := receive_outcome hu
      exact .nothing hkept
    · exact raise_phaseError_reports s _ write

theorem bitbangEntry_reports {s t : State} (h : bitbangEntry s = .next t) : Reports s t := by
  unfold bitbangEntry at h
  split at h
  · cases h
  · simp only at h
    split at h
    · exact .of_next_outcome_eq h rfl
    · exact .of_next (raise_phaseError_reports s _ _) h

theorem openStep_reports {bus port : Nat} {s t : State} (h : openStep bus port s = .next t) : Reports s t := by
  obtain ⟨-, rfl⟩ | ⟨-, rfl | ⟨-, hentry⟩ | ⟨-, rfl⟩⟩ := openStep_next _ _ _ _ h
  · exact .nothing rfl
  · exact .transportError rfl
  · exact bitbangEntry_reports hentry
  · exact .nothing rfl

theorem closeStep_outcome (s : State) : (closeStep s).outcome = s.outcome := by
  unfold closeStep
  split
  · rfl
  · rfl

/-! ## Lines, files and records: decode errors alone (R123, R201) -/

theorem decodeLineStep_reports {line dest : List Byte} {clamp : Clamp} {s t : State}
    (h : decodeLineStep line dest clamp s = .next t) : Reports s t := by
  obtain ⟨i, hi, hexec⟩ | ⟨e, -, rfl⟩ := decodeLineStep_next _ _ _ _ _ h
  · obtain ⟨e, rfl⟩ | ⟨v, hv⟩ := exec_hex_outcome (decodeHex_isWire hi) hexec
    · exact .decodeError rfl
    · exact .success hv
  · exact .decodeError rfl

theorem planStep_reports {lines : List (List Byte)} {placement : Placement} {s t : State}
    (h : planStep lines placement s = .next t) : Reports s t := by
  obtain ⟨st, -, rfl⟩ | ⟨e, -, rfl⟩ := planStep_next _ _ _ _ h
  · exact .nothing rfl
  · exact .decodeError rfl

theorem infoConfigStep_reports (offset : Nat) (config : InfoPageConfig) (backup : Bool) (s : State) :
    Reports s (infoConfigStep offset config backup s) := by
  unfold infoConfigStep
  split
  · exact .decodeError rfl
  · exact .nothing rfl

/-! ## Tasks that report nothing -/

theorem scatteredStep_outcome {op : Byte} {address : Nat} {buffer : List Byte} {s t : State}
    (h : scatteredStep op address buffer s = .next t) : t.outcome = s.outcome := by
  obtain ⟨-, -, rfl⟩ := scatteredStep_next _ _ _ _ _ h
  rfl

theorem latchTestStep_outcome (s : State) : (latchTestStep s).outcome = s.outcome := by
  unfold latchTestStep
  split
  · rfl
  · rfl

theorem infoTestStep_outcome (want : Bool) (s : State) : (infoTestStep want s).outcome = s.outcome := by
  unfold infoTestStep
  split
  · rfl
  · rfl

theorem smartDecideStep_outcome (plan : PagePlan) (page : Nat) (target : List Byte) (backup isInfo : Bool) (s : State) :
    (smartDecideStep plan page target backup isInfo s).outcome = s.outcome := by
  have hkept := s.mutatePlan_outcome page isInfo plan (analysePlan plan s.buffer target)
  obtain ⟨-, hstep⟩ | ⟨-, hstep⟩ := smartDecideStep_cases plan page target backup isInfo s
  · rw [hstep, State.push_outcome, hkept]
  · rw [hstep, hkept]

theorem imagePagesStep_outcome (pages : List Nat) (backup : Bool) (s : State) :
    (imagePagesStep pages backup s).outcome = s.outcome := by
  cases pages with
  | nil => rfl
  | cons p ps =>
    simp only [imagePagesStep]
    split
    · rfl
    · rfl

/-! ## The five tests that raise a protocol error (R173 to R177, R223) -/

theorem latchCheckStep_reports (s : State) : Reports s (latchCheckStep s) := by
  unfold latchCheckStep
  split
  · exact .nothing rfl
  · exact .protocolError .writeLatchFailed

theorem infoCheckStep_reports (before : Bool) (s : State) : Reports s (infoCheckStep before s) := by
  unfold infoCheckStep
  split
  · exact .protocolError .infoPageToggleFailed
  · exact .nothing rfl

theorem readyTestStep_reports (polls : Nat) (s : State) : Reports s (readyTestStep polls s) := by
  unfold readyTestStep
  split
  · exact .nothing rfl
  · split
    · exact .protocolError .timeout
    · exact .nothing rfl

theorem unlockedTestStep_reports (s : State) : Reports s (unlockedTestStep s) := by
  unfold unlockedTestStep
  split
  · exact .protocolError .deviceLocked
  · exact .nothing rfl

theorem smartVerifyStep_reports (merged : List Byte) (s : State) : Reports s (smartVerifyStep merged s) := by
  unfold smartVerifyStep
  split
  · exact .nothing rfl
  · exact .protocolError .verificationError

/-! ## Whole tasks -/

theorem runTask_reports {task : Task} {s t : State} (h : runTask task s = .next t) : Reports s t := by
  cases task with
  | openLink bus port => exact openStep_reports (bus := bus) (port := port) h
  | settle => exact .of_next_outcome_eq h rfl
  | closeLink => exact .of_next_outcome_eq h (closeStep_outcome s)
  | xfer _ => exact transferStep_reports h
  | scattered _ _ _ => exact .nothing (scatteredStep_outcome h)
  | payload _ _ => exact .of_next_outcome_eq h rfl
  | decodeLine _ _ _ => exact decodeLineStep_reports h
  | latch => exact .of_next_outcome_eq h rfl
  | latchTest => exact .of_next_outcome_eq h (latchTestStep_outcome s)
  | latchCheck => exact .of_next (latchCheckStep_reports s) h
  | infoPage _ => exact .of_next_outcome_eq h rfl
  | infoTest _ => exact .of_next_outcome_eq h (infoTestStep_outcome _ s)
  | infoCheck _ => exact .of_next (infoCheckStep_reports _ s) h
  | waitReady _ => exact .of_next_outcome_eq h rfl
  | readyTest _ => exact .of_next (readyTestStep_reports _ s) h
  | checkUnlocked => exact .of_next_outcome_eq h rfl
  | unlockedTest => exact .of_next (unlockedTestStep_reports s) h
  | erasePage _ => exact .of_next_outcome_eq h rfl
  | eraseAll => exact .of_next_outcome_eq h rfl
  | program _ _ => exact .of_next_outcome_eq h rfl
  | readFlash _ _ _ => exact .of_next_outcome_eq h rfl
  | lock => exact .of_next_outcome_eq h rfl
  | planFile _ _ => exact planStep_reports h
  | smartRead _ _ _ _ _ => exact .of_next_outcome_eq h rfl
  | smartDecide _ _ _ _ _ => exact .of_next_outcome_eq h (smartDecideStep_outcome _ _ _ _ _ s)
  | smartBackup _ => exact .of_next_outcome_eq h rfl
  | smartVerify _ => exact .of_next (smartVerifyStep_reports _ s) h
  | imagePages _ _ => exact .of_next_outcome_eq h (imagePagesStep_outcome _ _ s)
  | discardPlan _ => exact .of_next_outcome_eq h rfl
  | infoConfig _ _ _ => exact .of_next (infoConfigStep_reports _ _ _ s) h
  | ret _ => exact .of_next (.success rfl) h

/-- Settles O44: of all that a task can report, a protocol error new to the outcome is a `raise` and nothing more. -/
theorem protocolErrorChangesNothingElse : Obligations.ProtocolErrorChangesNothingElse :=
  fun _ _ _ _ hbefore h hafter => (runTask_reports h).eq_raise hbefore hafter

end Sys2Proof.Machine

/-! SUPPORT and proof of the family "reset and hazards" (spec/70_reset_and_hazards.md): which commands write the FSR, and
that of those only `WRSR` reaches the region-select bit (R26, R313). -/

namespace Sys2Proof.Machine

/-! ## What a write of the FSR leaves of `INFEN` -/

theorem setWen_infen (f : Byte) (b : Bool) : fsrInfen (setWen f b) = fsrInfen f := setWen_bit f b 3 (by decide)

theorem setRdismb_infen (f : Byte) (b : Bool) : fsrInfen (setRdismb f b) = fsrInfen f := setRdismb_bit f b 3 (by decide)

theorem State.mutated_infen (s : State) : fsrInfen s.mutated.fsr = fsrInfen s.fsr :=
  statusMutated_other _ _ _ (j := 3) (by decide) (by decide)

/-! ## A HEX line's record does not reach the FSR -/

theorem checkRecord_fsr {s k : State} (address : Half) (type : Nat) (payload : List Byte) (checksum : Byte)
    (hk : k.fsr = s.fsr) : (checkRecord s address type payload checksum k).fsr = s.fsr := by
  obtain ⟨heq, -⟩ | ⟨heq, -⟩ | ⟨heq, -⟩ := checkRecord_cases s address type payload checksum k
  · rw [heq, State.raise_fsr]
  · rw [heq, State.raise_fsr]
  · rw [heq, hk]

theorem exec_fsr_of_hex {i : Instr} {s t : State} (hi : i.isWire = false) (h : exec i s = .next t) : t.fsr = s.fsr := by
  cases i with
  | hexData _ _ _ =>
    refine Host.Outcome.next.inj h ▸ checkRecord_fsr _ _ _ _ ?_
    split
    · exact s.raise_fsr _
    · rfl
  | hexEof _ _ _ => exact Host.Outcome.next.inj h ▸ checkRecord_fsr _ _ _ _ (s.finish_fsr _)
  | _ => cases hi

/-! ## `INFEN` over one instruction -/

/-- Settles O29: `READ`, `RDSR`, `RDFPCR` and the records write no FSR; the latch commands write `WEN`, the mutating ones
`WEN`, `RDYN` and `RDISMB`. -/
theorem onlyWrsrChangesInfen : Obligations.OnlyWrsrChangesInfen := by
  intro i s t hne h
  cases i with
  | wrsr v => exact absurd rfl (hne v)
  | wren =>
    obtain ⟨-, -, rfl⟩ := execWren_next _ _ h
    exact setWen_infen _ _
  | wrdis =>
    obtain ⟨-, -, rfl⟩ := execWrdis_next _ _ h
    exact setWen_infen _ _
  | program _ _ =>
    obtain ⟨-, -, ⟨rfl, -⟩ | ⟨-, -, -, -, rfl⟩⟩ := execProgram_next _ _ _ _ h
    · rfl
    · rw [State.mutated_infen, State.setRegion_fsr, State.reply_fsr]
  | erasePage _ =>
    obtain ⟨-, -, ⟨-, rfl⟩ | ⟨-, -, rfl⟩⟩ := execErasePage_next _ _ _ h
    · rfl
    · rw [State.mutated_infen, State.setRegion_fsr, State.reply_fsr]
  | eraseAll =>
    obtain ⟨-, -, ⟨-, rfl⟩ | ⟨-, rfl⟩⟩ := execEraseAll_next _ _ h
    · rfl
    · rw [State.mutated_infen, State.setFsr_fsr, setRdismb_infen]
  | cmdRdismb =>
    obtain ⟨-, -, ⟨-, rfl⟩ | ⟨-, rfl⟩⟩ := execCmdRdismb_next _ _ h
    · rfl
    · rw [State.mutated_infen, State.setFsr_fsr, setRdismb_infen]
  | read _ _ =>
    obtain ⟨-, -, -, rfl⟩ := execRead_next _ _ _ _ h
    rfl
  | rdsr fill =>
    obtain ⟨-, rfl⟩ := execRdsr_next fill _ _ h
    rfl
  | rdfpcr fill =>
    obtain ⟨-, -, rfl⟩ := execRdfpcr_next fill _ _ h
    rfl
  | cmdEndebug => cases h
  | hexData _ _ _ => rw [exec_fsr_of_hex rfl h]
  | hexEof _ _ _ => rw [exec_fsr_of_hex rfl h]

end Sys2Proof.Machine
